-- ==== Sys2Proof/Word.lean ====
section
/-! DEFINITION. The block's word types (spec 00_scope.md R6: data width 16, accumulator and pointer width 32). -/

namespace Sys2Proof

/-- Half of a 16-bit word, as the host sees memory (20_memory.md R64). -/
abbrev Byte := BitVec 8

/-- The width of every memory access, latch, mask and output word (R6 `WORD`). -/
abbrev Word := BitVec 16

/-- A channel pointer or modulo: 32 bits, additions modulo 2^32 (R6 `PTR`, `MOD`; R10). -/
abbrev Ptr := BitVec 32

/-- A shift accumulator of channel A or B (R6 `ACC`, R39). -/
abbrev Acc := BitVec 32

/-- A 32-bit command word (30_encoding.md R81). -/
abbrev Command := BitVec 32

end Sys2Proof
end

