-- ==== Sys2Proof/Config.lean ====
section
/-! DEFINITION. What a platform fixes: the three open parameters of the spec (00_scope.md R6, 92_eei_decisions.md
D14 to D16) and the shape of the replaceable register-layout record that 30_encoding.md asks a model to keep. -/

namespace Sys2Proof

/-- `HOST_BYTE_ORDER` (R6, R64): which byte of a word stands at the even byte address. -/
inductive ByteOrder
  | big     -- the more significant byte at the even address (the spec's default, D16)
  | little
deriving DecidableEq, Repr

/-- The parameters R6 leaves OPEN, "an argument of the model". They are carried in `State.platform`, which no
step writes, so a claim about every state is a claim about every value of them (log entry 3). -/
structure Platform where
  /-- `MEM_WORDS = 2 ^ memBits`: a power of two, 1 to 2^32 (R6, R60, D15). -/
  memBits : Fin 33
  /-- `IRQ_BLITTER`, the identifier handed to the interrupt sink (R222, D14); the spec gives it no width. -/
  irqBlitter : Nat
  /-- `HOST_BYTE_ORDER` (R64, D16). -/
  hostByteOrder : ByteOrder
deriving DecidableEq, Repr

/-- The register layout as one replaceable record (30_encoding.md, opening): register offsets (R83) and bit
positions inside the operand words (R84 to R87) and the status word (R91). Only the decoder and the operand and
flag accessors read it; no engine rule does. Its value is `regLayout` in Decode.lean. -/
structure RegLayout where
  /-- Offsets, R83. -/
  offStatus : BitVec 9
  offControl0 : BitVec 9
  offControl1 : BitVec 9
  offFirstWordMask : BitVec 9
  offLastWordMask : BitVec 9
  offCPtrHi : BitVec 9
  offCPtrLo : BitVec 9
  offBPtrHi : BitVec 9
  offBPtrLo : BitVec 9
  offAPtrHi : BitVec 9
  offAPtrLo : BitVec 9
  offDPtrHi : BitVec 9
  offDPtrLo : BitVec 9
  offSize : BitVec 9
  offMinterms : BitVec 9
  offCMod : BitVec 9
  offBMod : BitVec 9
  offAMod : BitVec 9
  offDMod : BitVec 9
  offCData : BitVec 9
  offBData : BitVec 9
  offAData : BitVec 9
  /-- Lowest bit of the 4-bit shift field, "at the same offset" in both control words (R84, R85). -/
  shiftLsb : Nat
  /-- Control word 0, R84. -/
  enableABit : Nat
  enableBBit : Nat
  enableCBit : Nat
  enableDBit : Nat
  /-- Lowest bit of the truth table in control word 0 and in the minterms word (R84, R87). -/
  mintermsLsb : Nat
  /-- Control word 1, R85. -/
  signBit : Nat
  quadrantLsb : Nat
  exclusiveBit : Nat
  inclusiveBit : Nat
  fillCarryBit : Nat
  oneDotBit : Nat
  lineModeBit : Nat
  /-- Size word, R86. -/
  heightLsb : Nat
  widthLsb : Nat
  /-- Status word, R91. -/
  busyBit : Nat
  zeroBit : Nat
deriving DecidableEq, Repr

end Sys2Proof
end

