-- ==== Sys2Proof/Syntax.lean ====
section
/-! DEFINITION. The command set (30_encoding.md R80): one constructor per row of the opcode table, and the raw
fields of a command word (R81). -/

namespace Sys2Proof

/-- The 23 commands of R80. Every setter carries the 16-bit operand `v = w[15:0]`. -/
inductive Instr
  | setControl0 (v : Word)
  | setControl1 (v : Word)
  | setFirstWordMask (v : Word)
  | setLastWordMask (v : Word)
  | setSize (v : Word)
  | setMinterms (v : Word)
  | setAData (v : Word)
  | setBData (v : Word)
  | setCData (v : Word)
  | setAPtrHi (v : Word)
  | setAPtrLo (v : Word)
  | setBPtrHi (v : Word)
  | setBPtrLo (v : Word)
  | setCPtrHi (v : Word)
  | setCPtrLo (v : Word)
  | setDPtrHi (v : Word)
  | setDPtrLo (v : Word)
  | setAMod (v : Word)
  | setBMod (v : Word)
  | setCMod (v : Word)
  | setDMod (v : Word)
  | advance
  | getStatus
deriving DecidableEq, Repr

/-- Whether a command is one of the 21 setters (R80 column `kind`). -/
def Instr.isSetter : Instr → Bool
  | .advance => false
  | .getStatus => false
  | _ => true

/-- The mnemonic of R80, letter for letter. -/
def Instr.mnemonic : Instr → String
  | .setControl0 _ => "SET_CONTROL0"
  | .setControl1 _ => "SET_CONTROL1"
  | .setFirstWordMask _ => "SET_FIRST_WORD_MASK"
  | .setLastWordMask _ => "SET_LAST_WORD_MASK"
  | .setSize _ => "SET_SIZE"
  | .setMinterms _ => "SET_MINTERMS"
  | .setAData _ => "SET_A_DATA"
  | .setBData _ => "SET_B_DATA"
  | .setCData _ => "SET_C_DATA"
  | .setAPtrHi _ => "SET_A_PTR_HI"
  | .setAPtrLo _ => "SET_A_PTR_LO"
  | .setBPtrHi _ => "SET_B_PTR_HI"
  | .setBPtrLo _ => "SET_B_PTR_LO"
  | .setCPtrHi _ => "SET_C_PTR_HI"
  | .setCPtrLo _ => "SET_C_PTR_LO"
  | .setDPtrHi _ => "SET_D_PTR_HI"
  | .setDPtrLo _ => "SET_D_PTR_LO"
  | .setAMod _ => "SET_A_MOD"
  | .setBMod _ => "SET_B_MOD"
  | .setCMod _ => "SET_C_MOD"
  | .setDMod _ => "SET_D_MOD"
  | .advance => "ADVANCE"
  | .getStatus => "GET_STATUS"

/-- The four fields of a command word (R81). -/
structure CommandFields where
  kind : BitVec 2
  zero : BitVec 5
  off : BitVec 9
  data : Word
deriving DecidableEq, Repr

/-- Why a command word is not a command of this block: the classes of R92 (c), told apart in the order in which
R82 tests them (log entry 10). -/
inductive Reject
  /-- `kind = 0b11`. -/
  | reservedKind
  /-- Bits 29:25 are not all 0. -/
  | zeroField
  /-- A TRIGGER with any of bits 24:0 set. -/
  | triggerBits
  /-- A READ of any offset but the status offset. -/
  | readOffset
  /-- A READ with `data ≠ 0`. -/
  | readData
  /-- A WRITE whose offset R83 does not list as writable (an odd one and the status offset among them). -/
  | writeOffset
deriving DecidableEq, Repr

/-- One row of the machine-readable command table: a word `w` is that command when `w & mask = match` (R82). -/
structure OpcodeRow where
  mnemonic : String
  mask : Command
  pattern : Command
deriving DecidableEq, Repr

end Sys2Proof
end

