-- ==== Sys2Proof/WellFormed.lean ====
section
/-! DEFINITION. What makes a command word a command (30_encoding.md R81, R92), check by check, over any register
layout; and well-formedness of a decoded command, which asks nothing more (R92 (d)). -/

namespace Sys2Proof

/-- The offsets a WRITE may name under the layout `L` (R83, access `write`). -/
def RegLayout.writeOffsets (L : RegLayout) : List (BitVec 9) :=
  [L.offControl0, L.offControl1, L.offFirstWordMask, L.offLastWordMask, L.offCPtrHi, L.offCPtrLo, L.offBPtrHi,
   L.offBPtrLo, L.offAPtrHi, L.offAPtrLo, L.offDPtrHi, L.offDPtrLo, L.offSize, L.offMinterms, L.offCMod, L.offBMod,
   L.offAMod, L.offDMod, L.offCData, L.offBData, L.offAData]

namespace CommandFields

/-- `kind` is WRITE, READ or TRIGGER (R81). -/
def kindOk (f : CommandFields) : Bool := f.kind != 3#2

/-- Bits 29:25 must be 0 (R81). -/
def zeroOk (f : CommandFields) : Bool := f.zero == 0#5

/-- The offset fits the access: listed for a WRITE, the status offset for a READ, 0 for a TRIGGER (R81, R83). -/
def offOk (L : RegLayout) (f : CommandFields) : Bool :=
  if f.kind = 0#2 then L.writeOffsets.contains f.off
  else if f.kind = 1#2 then f.off == L.offStatus
  else f.off == 0#9

/-- A READ and a TRIGGER carry no data (R81). -/
def dataOk (f : CommandFields) : Bool := f.kind == 0#2 || f.data == 0#16

/-- The four checks together: the word is a command of the block (R92 (a)). -/
def wellFormed (L : RegLayout) (f : CommandFields) : Bool := f.kindOk && f.zeroOk && f.offOk L && f.dataOk

end CommandFields

/-- Well-formedness of a decoded command. "There are no illegal operand values" (R92 (d)) and the operand's width
is its type, so every term of `Instr` is well formed. -/
def Instr.wellFormed : Instr → Bool
  | .setControl0 _ | .setControl1 _ | .setFirstWordMask _ | .setLastWordMask _ | .setSize _ | .setMinterms _ => true
  | .setAData _ | .setBData _ | .setCData _ => true
  | .setAPtrHi _ | .setAPtrLo _ | .setBPtrHi _ | .setBPtrLo _ => true
  | .setCPtrHi _ | .setCPtrLo _ | .setDPtrHi _ | .setDPtrLo _ => true
  | .setAMod _ | .setBMod _ | .setCMod _ | .setDMod _ => true
  | .advance | .getStatus => true

end Sys2Proof
end

