-- ==== Sys2Proof/Decode.lean ====
section
/-! DEFINITION. The register layout's value, the decoder (30_encoding.md R82), total on every 32-bit word and
rejecting by name, the encoder written from the same tables, and the machine-readable command table. -/

namespace Sys2Proof

/-- The layout of R83 to R87 and R91. -/
def regLayout : RegLayout where
  offStatus := 0x002#9
  offControl0 := 0x040#9
  offControl1 := 0x042#9
  offFirstWordMask := 0x044#9
  offLastWordMask := 0x046#9
  offCPtrHi := 0x048#9
  offCPtrLo := 0x04A#9
  offBPtrHi := 0x04C#9
  offBPtrLo := 0x04E#9
  offAPtrHi := 0x050#9
  offAPtrLo := 0x052#9
  offDPtrHi := 0x054#9
  offDPtrLo := 0x056#9
  offSize := 0x058#9
  offMinterms := 0x05A#9
  offCMod := 0x060#9
  offBMod := 0x062#9
  offAMod := 0x064#9
  offDMod := 0x066#9
  offCData := 0x070#9
  offBData := 0x072#9
  offAData := 0x074#9
  shiftLsb := 12
  enableABit := 11
  enableBBit := 10
  enableCBit := 9
  enableDBit := 8
  mintermsLsb := 0
  signBit := 6
  quadrantLsb := 2
  exclusiveBit := 4
  inclusiveBit := 3
  fillCarryBit := 2
  oneDotBit := 1
  lineModeBit := 0
  heightLsb := 6
  widthLsb := 0
  busyBit := 14
  zeroBit := 13

/-- The fields of a command word: kind 31:30, zero 29:25, off 24:16, data 15:0 (R81). -/
def fieldsOf (w : Command) : CommandFields where
  kind := w.extractLsb' 30 2
  zero := w.extractLsb' 25 5
  off := w.extractLsb' 16 9
  data := w.extractLsb' 0 16

/-- The command word with the given fields (R81). -/
def wordOf (f : CommandFields) : Command := f.kind ++ f.zero ++ f.off ++ f.data

/-- The setter a WRITE to `off` names (R83); none where no writable register is there. -/
def setterAt (L : RegLayout) (off : BitVec 9) (v : Word) : Option Instr :=
  if off = L.offControl0 then some (.setControl0 v)
  else if off = L.offControl1 then some (.setControl1 v)
  else if off = L.offFirstWordMask then some (.setFirstWordMask v)
  else if off = L.offLastWordMask then some (.setLastWordMask v)
  else if off = L.offCPtrHi then some (.setCPtrHi v)
  else if off = L.offCPtrLo then some (.setCPtrLo v)
  else if off = L.offBPtrHi then some (.setBPtrHi v)
  else if off = L.offBPtrLo then some (.setBPtrLo v)
  else if off = L.offAPtrHi then some (.setAPtrHi v)
  else if off = L.offAPtrLo then some (.setAPtrLo v)
  else if off = L.offDPtrHi then some (.setDPtrHi v)
  else if off = L.offDPtrLo then some (.setDPtrLo v)
  else if off = L.offSize then some (.setSize v)
  else if off = L.offMinterms then some (.setMinterms v)
  else if off = L.offCMod then some (.setCMod v)
  else if off = L.offBMod then some (.setBMod v)
  else if off = L.offAMod then some (.setAMod v)
  else if off = L.offDMod then some (.setDMod v)
  else if off = L.offCData then some (.setCData v)
  else if off = L.offBData then some (.setBData v)
  else if off = L.offAData then some (.setAData v)
  else none

/-- The decoding procedure of R82, its tests in the rule's order. -/
def decodeFields (L : RegLayout) (f : CommandFields) : Except Reject Instr :=
  if f.zero ≠ 0#5 then .error .zeroField
  else if f.kind = 3#2 then .error .reservedKind
  else if f.kind = 2#2 then
    if f.off = 0#9 ∧ f.data = 0#16 then .ok .advance else .error .triggerBits
  else if f.kind = 1#2 then
    if f.off ≠ L.offStatus then .error .readOffset
    else if f.data ≠ 0#16 then .error .readData
    else .ok .getStatus
  else
    match setterAt L f.off f.data with
    | some i => .ok i
    | none => .error .writeOffset

/-- The decoder: every 32-bit word is one command or is rejected by name (R82). -/
def decode (w : Command) : Except Reject Instr := decodeFields regLayout (fieldsOf w)

/-- A WRITE of `v` to `off`: kind 0b00 (R81, format W). -/
def writeFields (off : BitVec 9) (v : Word) : CommandFields := ⟨0#2, 0#5, off, v⟩

/-- The fields of a command's word (R81, R83). -/
def fieldsFor (L : RegLayout) : Instr → CommandFields
  | .setControl0 v => writeFields L.offControl0 v
  | .setControl1 v => writeFields L.offControl1 v
  | .setFirstWordMask v => writeFields L.offFirstWordMask v
  | .setLastWordMask v => writeFields L.offLastWordMask v
  | .setSize v => writeFields L.offSize v
  | .setMinterms v => writeFields L.offMinterms v
  | .setAData v => writeFields L.offAData v
  | .setBData v => writeFields L.offBData v
  | .setCData v => writeFields L.offCData v
  | .setAPtrHi v => writeFields L.offAPtrHi v
  | .setAPtrLo v => writeFields L.offAPtrLo v
  | .setBPtrHi v => writeFields L.offBPtrHi v
  | .setBPtrLo v => writeFields L.offBPtrLo v
  | .setCPtrHi v => writeFields L.offCPtrHi v
  | .setCPtrLo v => writeFields L.offCPtrLo v
  | .setDPtrHi v => writeFields L.offDPtrHi v
  | .setDPtrLo v => writeFields L.offDPtrLo v
  | .setAMod v => writeFields L.offAMod v
  | .setBMod v => writeFields L.offBMod v
  | .setCMod v => writeFields L.offCMod v
  | .setDMod v => writeFields L.offDMod v
  | .advance => ⟨2#2, 0#5, 0#9, 0#16⟩
  | .getStatus => ⟨1#2, 0#5, L.offStatus, 0#16⟩

/-- The encoder: the one 32-bit word of a command (R81, R93). -/
def encode (i : Instr) : Command := wordOf (fieldsFor regLayout i)

/-- The command table of R82, "a word `w` is the command of a row ... when `(w & mask) = match`". -/
def opcodeRows : List OpcodeRow :=
  [⟨"SET_CONTROL0", 0xFFFF0000#32, 0x00400000#32⟩,
   ⟨"SET_CONTROL1", 0xFFFF0000#32, 0x00420000#32⟩,
   ⟨"SET_FIRST_WORD_MASK", 0xFFFF0000#32, 0x00440000#32⟩,
   ⟨"SET_LAST_WORD_MASK", 0xFFFF0000#32, 0x00460000#32⟩,
   ⟨"SET_C_PTR_HI", 0xFFFF0000#32, 0x00480000#32⟩,
   ⟨"SET_C_PTR_LO", 0xFFFF0000#32, 0x004A0000#32⟩,
   ⟨"SET_B_PTR_HI", 0xFFFF0000#32, 0x004C0000#32⟩,
   ⟨"SET_B_PTR_LO", 0xFFFF0000#32, 0x004E0000#32⟩,
   ⟨"SET_A_PTR_HI", 0xFFFF0000#32, 0x00500000#32⟩,
   ⟨"SET_A_PTR_LO", 0xFFFF0000#32, 0x00520000#32⟩,
   ⟨"SET_D_PTR_HI", 0xFFFF0000#32, 0x00540000#32⟩,
   ⟨"SET_D_PTR_LO", 0xFFFF0000#32, 0x00560000#32⟩] ++
  [⟨"SET_SIZE", 0xFFFF0000#32, 0x00580000#32⟩,
   ⟨"SET_MINTERMS", 0xFFFF0000#32, 0x005A0000#32⟩,
   ⟨"SET_C_MOD", 0xFFFF0000#32, 0x00600000#32⟩,
   ⟨"SET_B_MOD", 0xFFFF0000#32, 0x00620000#32⟩,
   ⟨"SET_A_MOD", 0xFFFF0000#32, 0x00640000#32⟩,
   ⟨"SET_D_MOD", 0xFFFF0000#32, 0x00660000#32⟩,
   ⟨"SET_C_DATA", 0xFFFF0000#32, 0x00700000#32⟩,
   ⟨"SET_B_DATA", 0xFFFF0000#32, 0x00720000#32⟩,
   ⟨"SET_A_DATA", 0xFFFF0000#32, 0x00740000#32⟩,
   ⟨"GET_STATUS", 0xFFFFFFFF#32, 0x40020000#32⟩,
   ⟨"ADVANCE", 0xFFFFFFFF#32, 0x80000000#32⟩]

/-- Whether a word is the command of a row (R82). -/
def OpcodeRow.matches (r : OpcodeRow) (w : Command) : Bool := w &&& r.mask == r.pattern

/-- The command word whose low `nbits` bits are those of `w` and whose other bits are 0. -/
def tableWord (nbits w : Nat) : Command := BitVec.ofNat 32 (w % 2 ^ nbits)

/-- The command the decoder reads from a word given as the opcode table numbers its bits: one 32-bit word, bit 0
its least significant (R7, R81). -/
def decodeTableWord (nbits w : Nat) : Option Instr :=
  match decode (tableWord nbits w) with
  | .ok i => some i
  | .error _ => none

end Sys2Proof
end

