-- ==== Sys2Proof/Machine/State.lean ====
section
/-! DEFINITION. The machine's state as plain data: every element of 10_state.md R20 to R44, the memory array and the
interrupt sink that stand outside the block (R20), the host's command stream, and the model's own histories. -/

namespace Sys2Proof.Machine

/-- The four word streams; D is the write-back channel (R9, R12). -/
inductive Channel
  | a | b | c | d
deriving DecidableEq, Repr

/-- One value for each channel, index 0 = A, 1 = B, 2 = C, 3 = D (R9). -/
structure PerChannel (α : Type) where
  a : α
  b : α
  c : α
  d : α
deriving DecidableEq, Repr

/-- The value of `line_sign` (R24). -/
inductive Sign
  | plus | minus
deriving DecidableEq, Repr

/-- A byte-addressed memory: cell `w` of the array is the bytes at `2w` and `2w + 1` (R64). Its canonical form is
`Memory.wf` in Ops.lean. -/
abbrev Memory := List Host.Cell

/-- Why the machine stops. -/
inductive Fault
  /-- Raised by `ADVANCE` (R221), which marks the state; from then on every command and every step ends in it
  (R224). Safe: the spec names this stop and gives the patterned line no effect. -/
  | unsupportedPatternedLine
deriving DecidableEq, Repr

/-- Why the machine gives no meaning. -/
inductive Refusal
  /-- An arm of `exec` not yet given its meaning (there is none). Safe. -/
  | notModelled (mnemonic : String)
  /-- Raised by `step` on a word that is not a command of this block (R92 (c)): "a model marks the run refused".
  Safe. -/
  | notACommand (why : Reject)
deriving DecidableEq, Repr

/-- One memory access of the engine, by cell index (R62: "one read event or one write event per call"). -/
inductive Access
  | read (cell : Nat) (v : Word)
  | write (cell : Nat) (v : Word)
deriving DecidableEq, Repr

/-- What a command answers the host (R81): nothing for a setter, so no constructor for it. -/
inductive Response
  /-- The 16-bit status word of `GET_STATUS` (R210). -/
  | status (v : Word)
  /-- The bit `performed` of `ADVANCE` (R140). -/
  | performed (b : Bool)
deriving DecidableEq, Repr

/-- What the host does to the machine, one after another (R5, R69, R70). -/
inductive HostEvent
  /-- It issues a command word (R81). -/
  | command (w : Command)
  /-- Between commands it changes one memory cell (R70: "Between commands the host may change any cell"). -/
  | store (p : Ptr) (v : Word)
deriving DecidableEq, Repr

/-- Control state, "written by host, read by engine" (R20): the engine never writes any of it. -/
structure Control where
  /-- R21 `line_mode`. -/
  lineMode : Bool
  /-- R22 `one_dot`: descending in a rectangular transfer, single dot in a line. -/
  oneDot : Bool
  /-- R23 `line_direction`. -/
  lineDirection : BitVec 3
  /-- R24 `line_sign`: stored, read by no rule. -/
  lineSign : Sign
  /-- R26 `exclusive_fill`. -/
  exclusiveFill : Bool
  /-- R26 `inclusive_fill`. -/
  inclusiveFill : Bool
  /-- R27 `fill_carry`, the row seed. -/
  fillCarry : Bool
  /-- R28 `minterms`. -/
  minterms : BitVec 8
  /-- R29 `channel_enables`. -/
  enables : PerChannel Bool
  /-- R31 `a_mask[0]`. -/
  firstMask : Word
  /-- R31 `a_mask[1]`. -/
  lastMask : Word
  /-- R32 `width`, 0 to 64. -/
  width : Nat
deriving DecidableEq, Repr

/-- The whole machine. -/
structure State where
  /-- R20, R21 to R24, R26 to R29, R31, R32. -/
  control : Control
  /-- R30 `shifts[0]`. -/
  shiftA : BitVec 4
  /-- R30 `shifts[1]`. -/
  shiftB : BitVec 4
  /-- R33 `height`, 0 to 1024; nonzero is busy (R38). -/
  height : Nat
  /-- R34 `pointer[0..3]`, stored unmasked. -/
  pointer : PerChannel Ptr
  /-- R35 `modulo[0..3]`. -/
  modulo : PerChannel Ptr
  /-- R36 `a_data`. -/
  aData : Word
  /-- R36 `b_data`. -/
  bData : Word
  /-- R36 `c_data`. -/
  cData : Word
  /-- R37 `not_zero_flag`. -/
  notZeroFlag : Bool
  /-- R39 `a_acc`. -/
  aAcc : Acc
  /-- R39 `b_acc`. -/
  bAcc : Acc
  /-- R44 `fault`. -/
  fault : Option Fault
  /-- R60, the memory array. -/
  mem : Memory
  /-- R222, the interrupt sink as an event history, newest first. -/
  interrupts : List Nat
  /-- R81, the answers given to the host, newest first (log entry 4). -/
  responses : List Response
  /-- R62, the engine's memory accesses, newest first (log entry 5). -/
  accesses : List Access
  /-- R5, what the host does next, the next event first (log entry 1). -/
  inputs : List HostEvent
  /-- R6, the open parameters; no step writes them (log entry 3). -/
  platform : Platform
deriving DecidableEq, Repr

/-- The platform the reset state stands on: the spec's defaults for `IRQ_BLITTER` and `HOST_BYTE_ORDER` (R6), and
the 4096 words of the spec's test vectors (DESIGN CHOICE, log entry 3: R6 leaves `MEM_WORDS` open). -/
def resetPlatform : Platform := ⟨12, 0x0040, .big⟩

/-- The machine right after reset (R49, R241). The memory array and the sink are not touched by reset: nothing
listed (log entries 2 and 4). -/
def State.reset : State where
  control :=
    { lineMode := false, oneDot := false, lineDirection := 0#3, lineSign := .plus, exclusiveFill := false,
      inclusiveFill := false, fillCarry := false, minterms := 0x00#8, enables := ⟨false, false, false, false⟩,
      firstMask := 0x0000#16, lastMask := 0x0000#16, width := 0 }
  shiftA := 0#4
  shiftB := 0#4
  height := 0
  pointer := ⟨0#32, 0#32, 0#32, 0#32⟩
  modulo := ⟨0#32, 0#32, 0#32, 0#32⟩
  aData := 0x0000#16
  bData := 0x0000#16
  cData := 0x0000#16
  notZeroFlag := false
  aAcc := 0x00000000#32
  bAcc := 0x00000000#32
  fault := none
  mem := []
  interrupts := []
  responses := []
  accesses := []
  inputs := []
  platform := resetPlatform

end Sys2Proof.Machine
end

