-- ==== Sys2Proof/Machine/Ops.lean ====
section
/-! DEFINITION. The named operations over memory and registers: the byte store and its canonical form, the two
access primitives (20_memory.md R61, R62), channel indexing, the bit-field helpers, posting an interrupt, answering
the host, and the one exceptional event of the block (60_exceptions.md R224). -/

namespace Sys2Proof.Machine

/-- What ends a command or a step. -/
abbrev Result := Host.Outcome State Fault Refusal

/-! ### Bytes of memory -/

/-- What an unlisted byte reads as (DESIGN CHOICE, log entry 2: the spec gives memory no reset contents). -/
def unlistedByte : Byte := 0x00#8

/-- One byte of memory. -/
def Memory.read : Memory → Nat → Byte
  | [], _ => unlistedByte
  | (k, b) :: m, a => if k = a then b else Memory.read m a

/-- A new entry before the entries of larger addresses; none for the byte an unlisted address reads as. -/
def Memory.insert (a : Nat) (b : Byte) (m : Memory) : Memory := if b = unlistedByte then m else (a, b) :: m

/-- Store one byte, keeping the canonical form. -/
def Memory.write : Memory → Nat → Byte → Memory
  | [], a, b => Memory.insert a b []
  | (k, c) :: m, a, b =>
    if a < k then Memory.insert a b ((k, c) :: m)
    else if a = k then Memory.insert a b m
    else (k, c) :: Memory.write m a b

/-- Every listed address is at least `lo`, addresses strictly rise, no entry holds the unlisted byte. -/
def Memory.wfFrom : Nat → Memory → Bool
  | _, [] => true
  | lo, (k, b) :: m => decide (lo ≤ k) && b != unlistedByte && Memory.wfFrom (k + 1) m

/-- The canonical form: equal memories are equal lists. -/
def Memory.wf (m : Memory) : Bool := Memory.wfFrom 0 m

/-- Every listed byte address is below `n`. -/
def Memory.below (n : Nat) (m : Memory) : Bool := m.all (fun e => decide (e.1 < n))

/-! ### Words of memory (R60 to R64) -/

/-- `MEM_WORDS` (R6, R60). -/
def memWords (pl : Platform) : Nat := 2 ^ pl.memBits.val

/-- `ADDR_MASK = MEM_WORDS − 1` (R6, R61). -/
def addrMask (pl : Platform) : Ptr := BitVec.ofNat 32 (memWords pl - 1)

/-- The cell a pointer selects, `p & ADDR_MASK` (R61). -/
def cellOf (pl : Platform) (p : Ptr) : Nat := (p &&& addrMask pl).toNat

/-- The byte address of the more significant byte of a cell (R64). -/
def hiAddr (pl : Platform) (cell : Nat) : Nat :=
  match pl.hostByteOrder with
  | .big => 2 * cell
  | .little => 2 * cell + 1

/-- The byte address of the less significant byte of a cell (R64). -/
def loAddr (pl : Platform) (cell : Nat) : Nat :=
  match pl.hostByteOrder with
  | .big => 2 * cell + 1
  | .little => 2 * cell

/-- The word in a cell (R60, R64). -/
def readCell (pl : Platform) (m : Memory) (cell : Nat) : Word :=
  m.read (hiAddr pl cell) ++ m.read (loAddr pl cell)

/-- Memory after a word is stored in a cell (R60, R64). -/
def writeCell (pl : Platform) (m : Memory) (cell : Nat) (v : Word) : Memory :=
  (m.write (hiAddr pl cell) (v.extractLsb' 8 8)).write (loAddr pl cell) (v.extractLsb' 0 8)

/-- The word at a pointer's cell, as the model's observer reads it. -/
def wordAt (s : State) (p : Ptr) : Word := readCell s.platform s.mem (cellOf s.platform p)

/-- Record one access of the engine (R62). -/
def logAccess (x : Access) (s : State) : State := { s with accesses := x :: s.accesses }

/-- `MemRead(p)` (R62): the word at `p & ADDR_MASK`. The access is recorded and nothing else changes. -/
def memRead (p : Ptr) (s : State) : Word × State :=
  (wordAt s p, logAccess (.read (cellOf s.platform p) (wordAt s p)) s)

/-- `MemWrite(p, v)` (R62): the cell at `p & ADDR_MASK` becomes `v`. -/
def memWrite (p : Ptr) (v : Word) (s : State) : State :=
  logAccess (.write (cellOf s.platform p) v)
    { s with mem := writeCell s.platform s.mem (cellOf s.platform p) v }

/-- A store of the host between commands (R70): the cell changes and the engine records nothing. -/
def hostStore (p : Ptr) (v : Word) (s : State) : State :=
  { s with mem := writeCell s.platform s.mem (cellOf s.platform p) v }

/-! ### Channels -/

/-- The value of one channel. -/
def PerChannel.get {α : Type} (p : PerChannel α) : Channel → α
  | .a => p.a
  | .b => p.b
  | .c => p.c
  | .d => p.d

/-- Replace the value of one channel. -/
def PerChannel.set {α : Type} (p : PerChannel α) (ch : Channel) (v : α) : PerChannel α :=
  match ch with
  | .a => { p with a := v }
  | .b => { p with b := v }
  | .c => { p with c := v }
  | .d => { p with d := v }

/-- Replace `pointer[ch]`. -/
def setPointer (ch : Channel) (p : Ptr) (s : State) : State := { s with pointer := s.pointer.set ch p }

/-- Replace `modulo[ch]`. -/
def setModulo (ch : Channel) (p : Ptr) (s : State) : State := { s with modulo := s.modulo.set ch p }

/-- The 32-bit increment of `direction`: −1 when `one_dot` is set, else +1 (R25, R165). -/
def increment (s : State) : Ptr := if s.control.oneDot then 0xFFFFFFFF#32 else 0x00000001#32

/-- `direction * m` modulo 2^32 (R10 (c)). -/
def scaled (s : State) (m : Ptr) : Ptr := if s.control.oneDot then 0#32 - m else m

/-- Read memory at `pointer[ch]` and step the pointer by `direction` (R166, a post-incremented access). -/
def readAdvance (ch : Channel) (s : State) : Word × State :=
  ((memRead (s.pointer.get ch) s).1,
    setPointer ch (s.pointer.get ch + increment s) (memRead (s.pointer.get ch) s).2)

/-! ### Bit helpers -/

/-- The word of width `n` whose bit `i` is `f i`. -/
def bitsFrom (f : Nat → Bool) : (n : Nat) → BitVec n
  | 0 => 0#0
  | n + 1 => BitVec.cons (f n) (bitsFrom f n)

/-- `rotl32(v, s)` (R8). -/
def rotl32 (v : BitVec 32) (s : Nat) : BitVec 32 := if s = 0 then v else (v <<< s) ||| (v >>> (32 - s))

/-! ### The host's side and the fault -/

/-- `PostInterrupt(IRQ_BLITTER)` (R9, R222): one event to the sink. -/
def postInterrupt (s : State) : State := { s with interrupts := s.platform.irqBlitter :: s.interrupts }

/-- The answer of a command (R81). -/
def respond (r : Response) (s : State) : State := { s with responses := r :: s.responses }

/-- `raise Fault(f)` (R224): the command ends having changed nothing but the mark `fault`. The block has no trap
entry: no state is saved, no vector is fetched, no response is given. -/
def raiseFault (f : Fault) (s : State) : Result := .next { s with fault := some f }

/-- A command has a step only in a state that is not faulted (R44, R224). There is no return from a fault (R225):
the mark is cleared by reset alone. -/
def whenLive (s : State) (k : State → Result) : Result :=
  match s.fault with
  | none => k s
  | some f => .fault f

/-- The shape of every setter: it replaces state elements at once and answers nothing (R121). -/
def runSetter (f : State → State) (s : State) : Result := whenLive s (fun s => .next (f s))

/-- The next event of the host and the state in which it is acted on, none when the host is silent (R5). -/
def fetchEvent (s : State) : Option (HostEvent × State) :=
  match s.inputs with
  | [] => none
  | e :: es => some (e, { s with inputs := es })

end Sys2Proof.Machine
end

