-- ==== Sys2Proof/Machine/Operands.lean ====
section
/-! DEFINITION. Every operand form: the fields of the two control words, the size word, the minterms word, pointer
halves and modulo words (30_encoding.md R84 to R90), read through the replaceable layout. -/

namespace Sys2Proof.Machine

/-- The 4-bit shift field of either control word (R84, R85). -/
def controlShift (v : Word) : BitVec 4 := v.extractLsb' regLayout.shiftLsb 4

/-- The four channel enables of control word 0 (R84). -/
def control0Enables (v : Word) : PerChannel Bool where
  a := v.getLsbD regLayout.enableABit
  b := v.getLsbD regLayout.enableBBit
  c := v.getLsbD regLayout.enableCBit
  d := v.getLsbD regLayout.enableDBit

/-- The truth table of control word 0 and of the minterms word (R84, R87). -/
def mintermsField (v : Word) : BitVec 8 := v.extractLsb' regLayout.mintermsLsb 8

/-- `line_sign <- (v[6] = 1) ? −1 : +1` (R85). -/
def control1Sign (v : Word) : Sign := if v.getLsbD regLayout.signBit then .minus else .plus

/-- `line_direction <- v[4:2]` (R85). -/
def control1Direction (v : Word) : BitVec 3 := v.extractLsb' regLayout.quadrantLsb 3

/-- `exclusive_fill <- v[4]` (R85). -/
def control1Exclusive (v : Word) : Bool := v.getLsbD regLayout.exclusiveBit

/-- `inclusive_fill <- v[3] ∧ ¬v[4]`: exclusive takes precedence (R85, R26). -/
def control1Inclusive (v : Word) : Bool := v.getLsbD regLayout.inclusiveBit && !v.getLsbD regLayout.exclusiveBit

/-- `fill_carry <- v[2]` (R85). -/
def control1FillCarry (v : Word) : Bool := v.getLsbD regLayout.fillCarryBit

/-- `one_dot <- v[1]` (R85). -/
def control1OneDot (v : Word) : Bool := v.getLsbD regLayout.oneDotBit

/-- `line_mode <- v[0]` (R85). -/
def control1LineMode (v : Word) : Bool := v.getLsbD regLayout.lineModeBit

/-- A size field in which 0 means the maximum (R10 (f), R86). -/
def zeroMeansMax (max n : Nat) : Nat := if n = 0 then max else n

/-- `height <- (h = 0) ? 1024 : h`, `h = v[15:6]` (R86). -/
def sizeHeight (v : Word) : Nat := zeroMeansMax 1024 (v.extractLsb' regLayout.heightLsb 10).toNat

/-- `width <- (w = 0) ? 64 : w`, `w = v[5:0]` (R86). -/
def sizeWidth (v : Word) : Nat := zeroMeansMax 64 (v.extractLsb' regLayout.widthLsb 6).toNat

/-- `{v, p[15:0]}` (R89, R109). -/
def withHighHalf (v : Word) (p : Ptr) : Ptr := v ++ p.extractLsb' 0 16

/-- `{p[31:16], v}` (R89, R110). -/
def withLowHalf (v : Word) (p : Ptr) : Ptr := p.extractLsb' 16 16 ++ v

/-- `sext32_16(v)` (R90). -/
def moduloWord (v : Word) : Ptr := v.signExtend 32

/-- Replace the upper half of `pointer[ch]`, keeping the lower (R109). -/
def setPointerHi (ch : Channel) (v : Word) (s : State) : State :=
  setPointer ch (withHighHalf v (s.pointer.get ch)) s

/-- Replace the lower half of `pointer[ch]`, keeping the upper (R110). -/
def setPointerLo (ch : Channel) (v : Word) (s : State) : State :=
  setPointer ch (withLowHalf v (s.pointer.get ch)) s

end Sys2Proof.Machine
end

