-- ==== Sys2Proof/Machine/Flags.lean ====
section
/-! DEFINITION. The flags (10_state.md R37, R38) and the status word (46_status.md R210, 30_encoding.md R91). -/

namespace Sys2Proof.Machine

/-- `busy = (height ≠ 0)`, not stored (R38). -/
def busy (s : State) : Bool := s.height != 0

/-- A performed transfer starts with the flag clear (R37, R140). -/
def clearNotZero (s : State) : State := { s with notZeroFlag := false }

/-- Zero detection: an output word that is not 0x0000 sets the flag, none clears it (R37, R170). -/
def noteOutput (out : Word) (s : State) : State := { s with notZeroFlag := s.notZeroFlag || out != 0x0000#16 }

/-- The word with bit `i` equal to `b` and every other bit 0. -/
def flagBit (i : Nat) (b : Bool) : Word := if b then 1#16 <<< i else 0#16

/-- The status word: busy and the inverted not-zero flag, all other bits 0 (R91, R210). -/
def statusWord (s : State) : Word :=
  flagBit regLayout.zeroBit (!s.notZeroFlag) ||| flagBit regLayout.busyBit (busy s)

end Sys2Proof.Machine
end

