-- ==== Sys2Proof/Machine/Setters.lean ====
section
/-! DEFINITION. The 21 setters (40_register_setters.md R100 to R122): one definition per command. -/

namespace Sys2Proof.Machine

/-- The fields of control word 0 (R84, R100). -/
def writeControl0 (v : Word) (s : State) : State :=
  { s with
    shiftA := controlShift v
    control := { s.control with enables := control0Enables v, minterms := mintermsField v } }

/-- The fields of control word 1 (R85, R101). -/
def writeControl1 (v : Word) (s : State) : State :=
  { s with
    shiftB := controlShift v
    control :=
      { s.control with
        lineSign := control1Sign v
        lineDirection := control1Direction v
        exclusiveFill := control1Exclusive v
        inclusiveFill := control1Inclusive v
        fillCarry := control1FillCarry v
        oneDot := control1OneDot v
        lineMode := control1LineMode v } }

/-- The fields of the size word (R86, R104). -/
def writeSize (v : Word) (s : State) : State :=
  { s with height := sizeHeight v, control := { s.control with width := sizeWidth v } }

/-- `SET_CONTROL0 v` (R100). -/
def execSetControl0 (v : Word) : State → Result := runSetter (writeControl0 v)

/-- `SET_CONTROL1 v` (R101). -/
def execSetControl1 (v : Word) : State → Result := runSetter (writeControl1 v)

/-- `SET_FIRST_WORD_MASK v` (R102). -/
def execSetFirstWordMask (v : Word) : State → Result :=
  runSetter fun s => { s with control := { s.control with firstMask := v } }

/-- `SET_LAST_WORD_MASK v` (R103). -/
def execSetLastWordMask (v : Word) : State → Result :=
  runSetter fun s => { s with control := { s.control with lastMask := v } }

/-- `SET_SIZE v` (R104): the one command that arms the engine; it starts nothing. -/
def execSetSize (v : Word) : State → Result := runSetter (writeSize v)

/-- `SET_MINTERMS v` (R105). -/
def execSetMinterms (v : Word) : State → Result :=
  runSetter fun s => { s with control := { s.control with minterms := mintermsField v } }

/-- `SET_A_DATA v` (R106). -/
def execSetAData (v : Word) : State → Result := runSetter fun s => { s with aData := v }

/-- `SET_B_DATA v` (R107). -/
def execSetBData (v : Word) : State → Result := runSetter fun s => { s with bData := v }

/-- `SET_C_DATA v` (R108). -/
def execSetCData (v : Word) : State → Result := runSetter fun s => { s with cData := v }

/-- `SET_A_PTR_HI v` (R109). -/
def execSetAPtrHi (v : Word) : State → Result := runSetter (setPointerHi .a v)

/-- `SET_A_PTR_LO v` (R110). -/
def execSetAPtrLo (v : Word) : State → Result := runSetter (setPointerLo .a v)

/-- `SET_B_PTR_HI v` (R111). -/
def execSetBPtrHi (v : Word) : State → Result := runSetter (setPointerHi .b v)

/-- `SET_B_PTR_LO v` (R112). -/
def execSetBPtrLo (v : Word) : State → Result := runSetter (setPointerLo .b v)

/-- `SET_C_PTR_HI v` (R113). -/
def execSetCPtrHi (v : Word) : State → Result := runSetter (setPointerHi .c v)

/-- `SET_C_PTR_LO v` (R114). -/
def execSetCPtrLo (v : Word) : State → Result := runSetter (setPointerLo .c v)

/-- `SET_D_PTR_HI v` (R115). -/
def execSetDPtrHi (v : Word) : State → Result := runSetter (setPointerHi .d v)

/-- `SET_D_PTR_LO v` (R116). -/
def execSetDPtrLo (v : Word) : State → Result := runSetter (setPointerLo .d v)

/-- `SET_A_MOD v` (R117). -/
def execSetAMod (v : Word) : State → Result := runSetter (setModulo .a (moduloWord v))

/-- `SET_B_MOD v` (R118). -/
def execSetBMod (v : Word) : State → Result := runSetter (setModulo .b (moduloWord v))

/-- `SET_C_MOD v` (R119). -/
def execSetCMod (v : Word) : State → Result := runSetter (setModulo .c (moduloWord v))

/-- `SET_D_MOD v` (R120). -/
def execSetDMod (v : Word) : State → Result := runSetter (setModulo .d (moduloWord v))

end Sys2Proof.Machine
end

