-- ==== Sys2Proof/Machine/Status.lean ====
section
/-! DEFINITION. The status read `GET_STATUS` (46_status.md R210). -/

namespace Sys2Proof.Machine

/-- `GET_STATUS` (R210): answers the status word and changes nothing of the block. -/
def execGetStatus (s : State) : Result := whenLive s fun s => .next (respond (.status (statusWord s)) s)

end Sys2Proof.Machine
end

