-- ==== Sys2Proof/Machine/Fill.lean ====
section
/-! DEFINITION. The nibble-serial fill post-processor (41_fill.md): one bit, one nibble, one word; and the packed
tables the source precomputes (R134). -/

namespace Sys2Proof.Machine

/-- The fill mode (R130). -/
inductive FillMode
  | inclusive | exclusive
deriving DecidableEq, Repr

/-- The bit step: output bit and outgoing carry (R130). -/
def fillBit (mode : FillMode) (c b : Bool) : Bool × Bool :=
  let pre := match mode with
    | .inclusive => b && !c
    | .exclusive => b
  let post := match mode with
    | .inclusive => b && c
    | .exclusive => false
  (c ^^ pre, (c ^^ pre) ^^ post)

/-- The nibble step: four bit steps, least significant bit first, the carry chained (R131). -/
def fillNibble (mode : FillMode) (c : Bool) (n : BitVec 4) : BitVec 4 × Bool :=
  let r0 := fillBit mode c (n.getLsbD 0)
  let r1 := fillBit mode r0.2 (n.getLsbD 1)
  let r2 := fillBit mode r1.2 (n.getLsbD 2)
  let r3 := fillBit mode r2.2 (n.getLsbD 3)
  (BitVec.ofBool r3.1 ++ BitVec.ofBool r2.1 ++ BitVec.ofBool r1.1 ++ BitVec.ofBool r0.1, r3.2)

/-- The word step: four nibble steps, least significant nibble first, the carry chained (R135). -/
def fillWord (mode : FillMode) (c : Bool) (w : Word) : Word × Bool :=
  let r0 := fillNibble mode c (w.extractLsb' 0 4)
  let r1 := fillNibble mode r0.2 (w.extractLsb' 4 4)
  let r2 := fillNibble mode r1.2 (w.extractLsb' 8 4)
  let r3 := fillNibble mode r2.2 (w.extractLsb' 12 4)
  (r3.1 ++ r2.1 ++ r1.1 ++ r0.1, r3.2)

/-- The value table packed as R134 gives it: nibble `k` is `FILL_VALUE`. A constant, not state (R42). -/
def fillValueTable : BitVec 256 := 0xA54B69872DC3E10F5AB49678D23C1EF0FFDFFB9F7FD7F31FFEFCBEF8F67C3EF0#256

/-- The carry table packed as R134 gives it: bit `k` is `FILL_CARRY`. A constant, not state (R42). -/
def fillCarryTable : BitVec 64 := 0x9669699696696996#64

/-- The index `nibble | carry << 4 | mode << 5`, mode 1 for exclusive (R134). -/
def fillIndex (mode : FillMode) (c : Bool) (n : BitVec 4) : Nat :=
  n.toNat + (if c then 16 else 0) + (match mode with | .inclusive => 0 | .exclusive => 32)

/-- The table lookup (R131, R134); equal to `fillNibble` (Laws/Datapath.lean). -/
def fillLookup (mode : FillMode) (c : Bool) (n : BitVec 4) : BitVec 4 × Bool :=
  (fillValueTable.extractLsb' (4 * fillIndex mode c n) 4, fillCarryTable.getLsbD (fillIndex mode c n))

end Sys2Proof.Machine
end

