-- ==== Sys2Proof/Machine/Datapath.lean ====
section
/-! DEFINITION. The datapath functions (43_datapath.md): column mask, accumulators, barrel shifters, minterm
selector, and the fill stage a rectangular transfer applies to an output word (41_fill.md R136). -/

namespace Sys2Proof.Machine

/-- The column mask of channel A: first-word mask at column 0, last-word mask at the last column, both when the
row has one column (R150). -/
def colMask (ct : Control) (x : Nat) : Word :=
  (if x = 0 then ct.firstMask else 0xFFFF#16) &&& (if x + 1 = ct.width then ct.lastMask else 0xFFFF#16)

/-- Shift a word into an accumulator: the previous word moves to bits 31:16 (R151). -/
def shiftIn (acc : Acc) (w : Word) : Acc := (acc <<< 16) ||| w.zeroExtend 32

/-- The accumulator update of column `x`; the mask meets channel A only and leaves `a_data` alone (R151). -/
def accumulate (x : Nat) (s : State) : State :=
  { s with aAcc := shiftIn s.aAcc (s.aData &&& colMask s.control x), bAcc := shiftIn s.bAcc s.bData }

/-- The barrel shifter: logical right in ascending mode (R152), the low half of a 32-bit rotate left in descending
mode (R153). -/
def barrel (descending : Bool) (acc : Acc) (sh : BitVec 4) : Word :=
  if descending then (rotl32 acc sh.toNat).extractLsb' 0 16 else (acc >>> sh.toNat).extractLsb' 0 16

/-- One bit of the logic function: entry `k = 4·A + 2·B + C` of the truth table (R154). -/
def mintermBit (T : BitVec 8) (a b c : Bool) : Bool := T.getLsbD (4 * a.toNat + 2 * b.toNat + c.toNat)

/-- The minterm selector: sixteen independent lookups (R154). -/
def minterm (A B C : Word) (T : BitVec 8) : Word :=
  bitsFrom (fun i => mintermBit T (A.getLsbD i) (B.getLsbD i) (C.getLsbD i)) 16

/-- Whether the fill stage is on (R136). -/
def fillOn (ct : Control) : Bool := ct.exclusiveFill || ct.inclusiveFill

/-- The mode when it is on: exclusive takes precedence (R136). -/
def fillMode (ct : Control) : FillMode := if ct.exclusiveFill then .exclusive else .inclusive

/-- The fill stage: output word and running carry; with fill off both pass through (R136, R169). -/
def fillStage (ct : Control) (carry : Bool) (out : Word) : Word × Bool :=
  if fillOn ct then fillWord (fillMode ct) carry out else (out, carry)

end Sys2Proof.Machine
end

