-- ==== Sys2Proof/Machine/Line.lean ====
section
/-! DEFINITION. The line-draw transfer, a Bresenham variant (45_line_draw.md R185 to R197). -/

namespace Sys2Proof.Machine

/-- A line in progress: the state, the error term and the draw state, both local to the transfer (R41). The error
is exact (R191, R10 (d): "a model may use unbounded integers"). -/
structure LineRun where
  st : State
  error : Int
  draw : Bool
deriving DecidableEq, Repr

/-- A step along one axis (R41: `dx`, `dy` each in −1, 0, +1). -/
inductive Move
  | back | stay | forth
deriving DecidableEq, Repr

/-- The error seed: the sign-extended low 16 bits of `pointer[0]` (R186). -/
def errorSeed (s : State) : Int := (s.pointer.a.extractLsb' 0 16).toInt

/-- The line at entry: drawing is on (R187). -/
def lineStart (s : State) : LineRun := ⟨s, errorSeed s, true⟩

/-- The A input of a plot: `a_data` shifted right with zero fill (R156). -/
def lineInputA (s : State) : Word := s.aData >>> s.shiftA.toNat

/-- The word a plot writes, the C input being the word read at `pointer[3]` (R188). -/
def plotWord (s : State) (c : Word) : Word := minterm (lineInputA s) s.bData c s.control.minterms

/-- The plot: read at `pointer[3]` into `c_data`, combine, write back to the same cell, note the flag (R188). -/
def plot (s : State) : State :=
  let rd := memRead s.pointer.d s
  let out := plotWord s rd.1
  noteOutput out (memWrite s.pointer.d out { rd.2 with cData := rd.1 })

/-- The plot of one step: only in the draw state, which one-dot mode then leaves (R188, R189). -/
def linePlot (r : LineRun) : LineRun :=
  if r.draw then { r with st := plot r.st, draw := !r.st.control.oneDot } else r

/-- A step in the sign a direction bit gives: 1 is negative (R190). -/
def signMove (neg : Bool) : Move := if neg then .back else .forth

/-- The step set `(dx, dy)`: the major axis always, the minor axis when the error is not negative (R190). -/
def lineMoves (dir : BitVec 3) (diagonal : Bool) : Move × Move :=
  let major := signMove (dir.getLsbD 1)
  let minor := if diagonal then signMove (dir.getLsbD 0) else .stay
  if dir.getLsbD 2 then (major, minor) else (minor, major)

/-- The error update: the secondary modulo when negative, else the primary (R191). -/
def lineError (s : State) (e : Int) : Int := if e < 0 then e + s.modulo.b.toInt else e + s.modulo.a.toInt

/-- The x-axis step: the A shift moves by one modulo 16, and a wrap moves `pointer[3]` by one word (R192). -/
def stepX (m : Move) (s : State) : State :=
  match m with
  | .stay => s
  | .forth =>
    if s.shiftA = 15#4 then { setPointer .d (s.pointer.d + 1#32) s with shiftA := 0#4 }
    else { s with shiftA := s.shiftA + 1#4 }
  | .back =>
    if s.shiftA = 0#4 then { setPointer .d (s.pointer.d - 1#32) s with shiftA := 15#4 }
    else { s with shiftA := s.shiftA - 1#4 }

/-- The y-axis step on `pointer[3]`: by the tertiary modulo, the row stride (R193). -/
def stepY (m : Move) (s : State) : State :=
  match m with
  | .stay => s
  | .forth => setPointer .d (s.pointer.d + s.modulo.c) s
  | .back => setPointer .d (s.pointer.d - s.modulo.c) s

/-- The move of one step: choose the axes, update the error, step x then y; a y step turns drawing on (R190 to
R193, R189). -/
def lineMove (r : LineRun) : LineRun :=
  let mv := lineMoves r.st.control.lineDirection (decide (0 ≤ r.error))
  { st := stepY mv.2 (stepX mv.1 r.st), error := lineError r.st r.error, draw := r.draw || mv.2 != .stay }

/-- One iteration: plot, then step (R185, R194). -/
def lineStep (r : LineRun) : LineRun := lineMove (linePlot r)

/-- `n` iterations. -/
def lineSteps : (n : Nat) → LineRun → LineRun
  | 0, r => r
  | n + 1, r => lineSteps n (lineStep r)

/-- `LineTransfer()`: `height` steps, fixed at entry; error and draw state are dropped (R185, R194). -/
def lineTransfer (s : State) : State := (lineSteps s.height (lineStart s)).st

end Sys2Proof.Machine
end

