-- ==== Sys2Proof/Machine/Rect.lean ====
section
/-! DEFINITION. The rectangular copy, logic-combine and fill transfer (44_rect_transfer.md R165 to R175). -/

namespace Sys2Proof.Machine

/-- A row in progress: the state and the running fill carry, a value local to the transfer (R40). -/
structure RowRun where
  st : State
  carry : Bool
deriving DecidableEq, Repr

/-- Step 1 for channel A (R166). -/
def fetchA (s : State) : State :=
  if s.control.enables.a then { (readAdvance .a s).2 with aData := (readAdvance .a s).1 } else s

/-- Step 1 for channel B (R166). -/
def fetchB (s : State) : State :=
  if s.control.enables.b then { (readAdvance .b s).2 with bData := (readAdvance .b s).1 } else s

/-- Step 1 for channel C (R166). -/
def fetchC (s : State) : State :=
  if s.control.enables.c then { (readAdvance .c s).2 with cData := (readAdvance .c s).1 } else s

/-- Steps 1 and 2 of column `x`: the fetches in the order A, B, C, then mask and accumulate (R165 to R167). -/
def loadColumn (x : Nat) (s : State) : State := accumulate x (fetchC (fetchB (fetchA s)))

/-- Steps 3 and 4: shifted A, shifted B and the raw C latch through the truth table (R167, R168). -/
def logicOut (s : State) : Word :=
  minterm (barrel s.control.oneDot s.aAcc s.shiftA) (barrel s.control.oneDot s.bAcc s.shiftB) s.cData
    s.control.minterms

/-- Step 7: with D enabled the word is written and the pointer steps (R171). -/
def writeBack (out : Word) (s : State) : State :=
  if s.control.enables.d then setPointer .d (s.pointer.d + increment s) (memWrite s.pointer.d out s) else s

/-- The output word of column `x` after the fill stage, and the running carry it leaves (R168, R169). -/
def columnOut (x : Nat) (r : RowRun) : Word × Bool :=
  fillStage r.st.control r.carry (logicOut (loadColumn x r.st))

/-- One column: the seven steps of R165 in order. -/
def rectColumn (x : Nat) (r : RowRun) : RowRun where
  st := writeBack (columnOut x r).1 (noteOutput (columnOut x r).1 (loadColumn x r.st))
  carry := (columnOut x r).2

/-- `n` columns in ascending order, the first of them column `x`. -/
def rectColumns : (n : Nat) → (x : Nat) → RowRun → RowRun
  | 0, _, r => r
  | n + 1, x, r => rectColumns n (x + 1) (rectColumn x r)

/-- A channel's pointer after a row: moved by its modulo, scaled by direction, if the channel is enabled (R172). -/
def rowPointer (s : State) (ch : Channel) : Ptr :=
  if s.control.enables.get ch then s.pointer.get ch + scaled s (s.modulo.get ch) else s.pointer.get ch

/-- The row end, for all four channels (R172). -/
def rowEnd (s : State) : State :=
  { s with pointer := ⟨rowPointer s .a, rowPointer s .b, rowPointer s .c, rowPointer s .d⟩ }

/-- One row of `W` columns: the carry is seeded from `fill_carry` and dropped at the end (R137, R165). -/
def rectRow (W : Nat) (s : State) : State := rowEnd (rectColumns W 0 ⟨s, s.control.fillCarry⟩).st

/-- `H` rows in ascending order. -/
def rectRows : (H : Nat) → (W : Nat) → State → State
  | 0, _, s => s
  | H + 1, W, s => rectRows H W (rectRow W s)

/-- `RectTransfer()`: `height` rows of `width` columns, both fixed at entry (R165). -/
def rectTransfer (s : State) : State := rectRows s.height s.control.width s

end Sys2Proof.Machine
end

