-- ==== Sys2Proof/Machine/Trigger.lean ====
section
/-! DEFINITION. The trigger `ADVANCE` (42_trigger.md R140 to R145) and completion (46_status.md R211). -/

namespace Sys2Proof.Machine

/-- The unsupported configuration: a line with channel B's latch not all ones (R221). -/
def patternedLine (s : State) : Bool := s.control.lineMode && s.bData != 0xFFFF#16

/-- The transfer itself: one algorithm or the other by the single test of `line_mode` (R140, R142). -/
def transfer (s : State) : State := if s.control.lineMode then lineTransfer s else rectTransfer s

/-- Completion: `height <- 0`, then one interrupt (R211). -/
def complete (s : State) : State := postInterrupt { s with height := 0 }

/-- `ADVANCE` (R140): the idle test first (R141, R223), then the fault test, then the whole transfer. -/
def execAdvance (s : State) : Result :=
  whenLive s fun s =>
    if s.height = 0 then .next (respond (.performed false) s)
    else if patternedLine s then raiseFault .unsupportedPatternedLine s
    else .next (respond (.performed true) (complete (transfer (clearNotZero s))))

end Sys2Proof.Machine
end

