-- ==== Sys2Proof/Machine/Dispatch.lean ====
section
/-! DEFINITION. One arm per command: each calls the command's meaning. -/

namespace Sys2Proof.Machine

def exec (i : Instr) (s : State) : Host.Outcome State Fault Refusal :=
  match i with
  | .setControl0 v => Sys2Proof.Machine.execSetControl0 v s
  | .setControl1 v => Sys2Proof.Machine.execSetControl1 v s
  | .setFirstWordMask v => Sys2Proof.Machine.execSetFirstWordMask v s
  | .setLastWordMask v => Sys2Proof.Machine.execSetLastWordMask v s
  | .setSize v => Sys2Proof.Machine.execSetSize v s
  | .setMinterms v => Sys2Proof.Machine.execSetMinterms v s
  | .setAData v => Sys2Proof.Machine.execSetAData v s
  | .setBData v => Sys2Proof.Machine.execSetBData v s
  | .setCData v => Sys2Proof.Machine.execSetCData v s
  | .setAPtrHi v => Sys2Proof.Machine.execSetAPtrHi v s
  | .setAPtrLo v => Sys2Proof.Machine.execSetAPtrLo v s
  | .setBPtrHi v => Sys2Proof.Machine.execSetBPtrHi v s
  | .setBPtrLo v => Sys2Proof.Machine.execSetBPtrLo v s
  | .setCPtrHi v => Sys2Proof.Machine.execSetCPtrHi v s
  | .setCPtrLo v => Sys2Proof.Machine.execSetCPtrLo v s
  | .setDPtrHi v => Sys2Proof.Machine.execSetDPtrHi v s
  | .setDPtrLo v => Sys2Proof.Machine.execSetDPtrLo v s
  | .setAMod v => Sys2Proof.Machine.execSetAMod v s
  | .setBMod v => Sys2Proof.Machine.execSetBMod v s
  | .setCMod v => Sys2Proof.Machine.execSetCMod v s
  | .setDMod v => Sys2Proof.Machine.execSetDMod v s
  | .advance => Sys2Proof.Machine.execAdvance s
  | .getStatus => Sys2Proof.Machine.execGetStatus s

end Sys2Proof.Machine
end

