-- ==== Sys2Proof/Machine/Step.lean ====
section
/-! DEFINITION. One step of the machine: the host's next event (00_scope.md R5). -/

namespace Sys2Proof.Machine

/-- One step. A faulted state has none (R224). With nothing from the host the block waits (R49, R240; log entry 1).
A store of the host changes a cell (R70). A command word is decoded and run, or the run is refused (R82, R92). -/
def step (s : State) : Host.Outcome State Fault Refusal :=
  whenLive s fun s =>
    match fetchEvent s with
    | none => .next s
    | some (.store p v, s') => .next (hostStore p v s')
    | some (.command w, s') =>
      match decode w with
      | .ok i => exec i s'
      | .error e => .refused (.notACommand e)

/-- `s` with a command word at the head of the host's stream, where `step` takes its next event (log entry 1). -/
def State.withFetchWord (s : State) (nbits w : Nat) : State :=
  { s with inputs := .command (tableWord nbits w) :: s.inputs }

end Sys2Proof.Machine
end

