-- ==== Sys2Proof/Machine/Assembly.lean ====
section
/-! DEFINITION. The spec's command-stream text (30_encoding.md R94), its pseudo-commands and their expansion into
commands (R95), and what a host that issues them sees. -/

namespace Sys2Proof.Machine

/-- One upper-case hexadecimal digit. -/
def hexDigit (n : BitVec 4) : String :=
  ["0", "1", "2", "3", "4", "5", "6", "7", "8", "9", "A", "B", "C", "D", "E", "F"].getD n.toNat "0"

/-- A 16-bit hexadecimal literal (R94). -/
def hexWord (v : Word) : String :=
  "0x" ++ hexDigit (v.extractLsb' 12 4) ++ hexDigit (v.extractLsb' 8 4) ++ hexDigit (v.extractLsb' 4 4)
    ++ hexDigit (v.extractLsb' 0 4)

/-- The operand of a setter, none for `ADVANCE` and `GET_STATUS`. -/
def operandOf : Instr → Option Word
  | .setControl0 v | .setControl1 v | .setFirstWordMask v | .setLastWordMask v | .setSize v | .setMinterms v => some v
  | .setAData v | .setBData v | .setCData v => some v
  | .setAPtrHi v | .setAPtrLo v | .setBPtrHi v | .setBPtrLo v => some v
  | .setCPtrHi v | .setCPtrLo v | .setDPtrHi v | .setDPtrLo v => some v
  | .setAMod v | .setBMod v | .setCMod v | .setDMod v => some v
  | .advance | .getStatus => none

/-- One line of a command stream: the mnemonic, then for a setter its operand (R94). -/
def commandText (i : Instr) : String :=
  match operandOf i with
  | some v => i.mnemonic ++ " " ++ hexWord v
  | none => i.mnemonic

/-- A response as it is written after `=>` (R94). -/
def responseText : Response → String
  | .status v => hexWord v
  | .performed b => if b then "1" else "0"

/-- The pseudo-commands of R95. -/
inductive Pseudo
  | setPtr (ch : Channel) (a : Ptr)
  | setMasks (f l : Word)
  | setSizeWH (w h : Nat)
  | blit (w h : Nat)
  | waitIdle
deriving DecidableEq, Repr

/-- `SET_x_PTR_HI v` of a channel. -/
def ptrHiOf (ch : Channel) (v : Word) : Instr :=
  match ch with
  | .a => .setAPtrHi v
  | .b => .setBPtrHi v
  | .c => .setCPtrHi v
  | .d => .setDPtrHi v

/-- `SET_x_PTR_LO v` of a channel. -/
def ptrLoOf (ch : Channel) (v : Word) : Instr :=
  match ch with
  | .a => .setAPtrLo v
  | .b => .setBPtrLo v
  | .c => .setCPtrLo v
  | .d => .setDPtrLo v

/-- The operand of `SET_SIZE_WH w, h`: `((h mod 1024) << 6) | (w mod 64)` (R95). -/
def sizeOperand (w h : Nat) : Word := (BitVec.ofNat 16 (h % 1024) <<< 6) ||| BitVec.ofNat 16 (w % 64)

/-- The commands a pseudo-command issues (R95); for `WAIT_IDLE` the read it repeats. -/
def Pseudo.expand : Pseudo → List Instr
  | .setPtr ch a => [ptrHiOf ch (a.extractLsb' 16 16), ptrLoOf ch (a.extractLsb' 0 16)]
  | .setMasks f l => [.setFirstWordMask f, .setLastWordMask l]
  | .setSizeWH w h => [.setSize (sizeOperand w h)]
  | .blit w h => [.setSize (sizeOperand w h), .advance]
  | .waitIdle => [.getStatus]

/-- Run commands one after another, stopping at the first fault or refusal. -/
def runCommands : List Instr → State → Result
  | [], s => .next s
  | i :: is, s =>
    match exec i s with
    | .next t => runCommands is t
    | .fault f => .fault f
    | .refused r => .refused r

/-- Bit 14 of the last answer, where that is a status word: the busy bit as the host reads it (R91). -/
def lastStatusBusy (s : State) : Bool :=
  match s.responses with
  | .status v :: _ => v.getLsbD 14
  | _ => false

/-- Whether the host issues the expansion once more: `WAIT_IDLE` does "until bit 14 of the response is 0" (R95). -/
def Pseudo.again : Pseudo → State → Bool
  | .setPtr _ _, _ => false
  | .setMasks _ _, _ => false
  | .setSizeWH _ _, _ => false
  | .blit _ _, _ => false
  | .waitIdle, t => lastStatusBusy t

/-- A host that issues a pseudo-command, watched for at most `rounds` rounds of its expansion; none while it is still
repeating (log entry 12). -/
def Pseudo.run : (rounds : Nat) → Pseudo → State → Option Result
  | 0, _, _ => none
  | n + 1, p, s =>
    match runCommands p.expand s with
    | .next t => if p.again t then Pseudo.run n p t else some (.next t)
    | .fault f => some (.fault f)
    | .refused r => some (.refused r)

end Sys2Proof.Machine
end

