-- ==== Sys2Proof/Safety.lean ====
section
/-! DEFINITION. What counts as a safe run, in the terms claims use: a live state (60_exceptions.md R224) that meets
the invariants of 10_state.md R47; when a transfer is performed (42_trigger.md R140); and the course of a transfer as
recurrences. -/

namespace Sys2Proof.Machine

/-- The cell an access names. -/
def Access.cell : Access → Nat
  | .read c _ => c
  | .write c _ => c

/-- Whether an access is a write. -/
def Access.isWrite : Access → Bool
  | .read _ _ => false
  | .write _ _ => true

/-- Whether an access is a write of a word that is not 0x0000. -/
def Access.isNonzeroWrite : Access → Bool
  | .read _ _ => false
  | .write _ v => v != 0x0000#16

/-- Not faulted (R44): a command has a step. -/
abbrev State.Live (s : State) : Prop := s.fault = none

/-- R47: `height ∈ [0,1024]`, `width ∈ [0,64]`, and `width ∈ [1,64]` whenever `height ≠ 0`. -/
abbrev State.SizeInv (s : State) : Prop :=
  s.height ≤ 1024 ∧ s.control.width ≤ 64 ∧ (s.height ≠ 0 → 1 ≤ s.control.width)

/-- R47: the fill bits exclude each other, and the fields that decode the same three bits agree. -/
abbrev State.FillInv (s : State) : Prop :=
  ¬ (s.control.exclusiveFill = true ∧ s.control.inclusiveFill = true) ∧
  s.control.lineDirection.getLsbD 2 = s.control.exclusiveFill ∧
  s.control.lineDirection.getLsbD 0 = s.control.fillCarry ∧
  s.control.inclusiveFill = (s.control.lineDirection.getLsbD 1 && !s.control.lineDirection.getLsbD 2)

/-- A 32-bit value is the sign extension of its low 16 bits. -/
abbrev IsModuloWord (p : Ptr) : Prop := p = (p.extractLsb' 0 16).signExtend 32

/-- R47: "every `modulo[ch]` is the sign-extension of a 16-bit value". -/
abbrev State.ModuloInv (s : State) : Prop :=
  IsModuloWord s.modulo.a ∧ IsModuloWord s.modulo.b ∧ IsModuloWord s.modulo.c ∧ IsModuloWord s.modulo.d

/-- The memory is canonical and lists only bytes of its `MEM_WORDS` cells (R60, R64). -/
abbrev State.MemInv (s : State) : Prop := s.mem.wf = true ∧ s.mem.below (2 * memWords s.platform) = true

/-- R47: "every memory access uses an address below `MEM_WORDS`". -/
abbrev State.AccessInv (s : State) : Prop := s.accesses.all (fun x => decide (x.cell < memWords s.platform)) = true

/-- The invariants of R47 together, and the canonical form of memory. -/
abbrev State.Inv (s : State) : Prop := s.SizeInv ∧ s.FillInv ∧ s.ModuloInv ∧ s.MemInv ∧ s.AccessInv

/-- A state of a safe run. -/
abbrev State.Safe (s : State) : Prop := s.Live ∧ s.Inv

/-- `ADVANCE` performs a rectangular transfer here (R140). -/
abbrev State.RectReady (s : State) : Prop := s.Live ∧ s.height ≠ 0 ∧ s.control.lineMode = false

/-- `ADVANCE` performs a line transfer here (R140, R256). -/
abbrev State.LineReady (s : State) : Prop :=
  s.Live ∧ s.height ≠ 0 ∧ s.control.lineMode = true ∧ s.bData = 0xFFFF#16

/-! ### Terms the claims about transfers use -/

/-- An access without its value: whether it is a write, and its cell. -/
def Access.place (x : Access) : Bool × Nat := (x.isWrite, x.cell)

/-- The pointer of an enabled channel at column `x` of row `y` of a rectangular transfer entered in `s`: moved by
`direction * (y * (width + modulo[ch]) + x)` (R166, R172, R173). -/
def columnPointer (s : State) (ch : Channel) (y x : Nat) : Ptr :=
  s.pointer.get ch + scaled s (BitVec.ofNat 32 (y * s.control.width + x) + BitVec.ofNat 32 y * s.modulo.get ch)

/-- The accesses of one column in the order of R68: read A, read B, read C, write D, each if enabled. -/
def columnPlaces (s : State) (y x : Nat) : List (Bool × Nat) :=
  (if s.control.enables.a then [(false, cellOf s.platform (columnPointer s .a y x))] else []) ++
  (if s.control.enables.b then [(false, cellOf s.platform (columnPointer s .b y x))] else []) ++
  (if s.control.enables.c then [(false, cellOf s.platform (columnPointer s .c y x))] else []) ++
  (if s.control.enables.d then [(true, cellOf s.platform (columnPointer s .d y x))] else [])

/-- The accesses of step `k` of a line entered in `s`: a read and a write of the cell at `pointer[3]` if it plots
(R68, R188). -/
def linePlaces (s : State) (k : Nat) : List (Bool × Nat) :=
  if (lineSteps k (lineStart s)).draw then
    [(false, cellOf s.platform (lineSteps k (lineStart s)).st.pointer.d),
     (true, cellOf s.platform (lineSteps k (lineStart s)).st.pointer.d)]
  else []

/-- The exclusive-or of `c` with bits `0 .. i−1` of `w` (R133): the fill carry that meets bit `i`. -/
def parityFrom (c : Bool) (w : Word) (i : Nat) : Bool := (List.range i).foldl (fun p j => p ^^ w.getLsbD j) c

/-- The pixel position a line stands at, counted along the bitmap's words: `16 * pointer[3] + shifts[0]`, in 36 bits
(R64, R192). -/
def pixelPosition (s : State) : BitVec 36 := s.pointer.d ++ s.shiftA

/-- Two states that differ in nothing but the byte order, holding the same words (R64). -/
abbrev SameWords (s₁ s₂ : State) : Prop :=
  s₂ = { s₁ with mem := s₂.mem, platform := s₂.platform } ∧
  s₂.platform = { s₁.platform with hostByteOrder := s₂.platform.hostByteOrder } ∧
  s₁.mem.wf = true ∧ s₂.mem.wf = true ∧
  ∀ c, readCell s₁.platform s₁.mem c = readCell s₂.platform s₂.mem c

/-! ### The course of a transfer, word by word

A second description of the two algorithms, written from their pseudocode (R165, R185) as recurrences over the column
or step number, beside the machine's own. The claims hold the machine against it. -/

/-- What a cell holds after stores, the newest first, into the memory of `s`. -/
def cellAfter (s : State) : List (Nat × Word) → Nat → Word
  | [], c => readCell s.platform s.mem c
  | (d, v) :: stores, c => if c = d then v else cellAfter s stores c

/-- What stands after some columns of a rectangular transfer: latches, accumulators, running fill carry, the output
word of the last column, and the stores so far, newest first. -/
structure RectCourse where
  aData : Word
  bData : Word
  cData : Word
  aAcc : Acc
  bAcc : Acc
  carry : Bool
  out : Word
  stores : List (Nat × Word)
deriving DecidableEq, Repr

/-- The cell a channel's pointer selects at column `n` of a rectangular transfer entered in `s`, columns counted
through all rows. -/
def columnCell (s : State) (ch : Channel) (n : Nat) : Nat :=
  cellOf s.platform (columnPointer s ch (n / s.control.width) (n % s.control.width))

/-- The mask channel A meets at column `n` (R150). -/
def columnMask (s : State) (n : Nat) : Word :=
  (if n % s.control.width = 0 then s.control.firstMask else 0xFFFF#16) &&&
    (if n % s.control.width + 1 = s.control.width then s.control.lastMask else 0xFFFF#16)

/-- The logic function of R165 steps 3 and 4 over two accumulators and a C word. -/
def combine (s : State) (aAcc bAcc : Acc) (c : Word) : Word :=
  minterm (barrel s.control.oneDot aAcc s.shiftA) (barrel s.control.oneDot bAcc s.shiftB) c s.control.minterms

/-- Step 5 of R165: the filled word and the exit carry; with fill off the word passes. -/
def filled (s : State) (carry : Bool) (raw : Word) : Word × Bool :=
  if s.control.exclusiveFill then fillWord .exclusive carry raw
  else if s.control.inclusiveFill then fillWord .inclusive carry raw
  else (raw, carry)

/-- The word a source channel contributes to column `n`: the cell as the stores before it left it, or the latch
(R166, R174 (f)). -/
def columnWord (s : State) (k : RectCourse) (ch : Channel) (latch : Word) (n : Nat) : Word :=
  if s.control.enables.get ch then cellAfter s k.stores (columnCell s ch n) else latch

/-- Column `n` of R165 over what stands before it: fetch, mask and accumulate, shift, logic, fill, write-back. -/
def columnCourse (s : State) (n : Nat) (k : RectCourse) : RectCourse :=
  let a := columnWord s k .a k.aData n
  let b := columnWord s k .b k.bData n
  let c := columnWord s k .c k.cData n
  let aAcc := k.aAcc.extractLsb' 0 16 ++ (a &&& columnMask s n)
  let bAcc := k.bAcc.extractLsb' 0 16 ++ b
  let seed := if n % s.control.width = 0 then s.control.fillCarry else k.carry
  let out := filled s seed (combine s aAcc bAcc c)
  { aData := a, bData := b, cData := c, aAcc := aAcc, bAcc := bAcc, carry := out.2, out := out.1,
    stores := if s.control.enables.d then (columnCell s .d n, out.1) :: k.stores else k.stores }

/-- What stands after `n` columns of a rectangular transfer entered in `s` (R165). -/
def rectCourse (s : State) : Nat → RectCourse
  | 0 => ⟨s.aData, s.bData, s.cData, s.aAcc, s.bAcc, s.control.fillCarry, 0x0000#16, []⟩
  | n + 1 => columnCourse s n (rectCourse s n)

/-- The accesses of column `n` with their words, oldest first (R68). -/
def columnAccesses (s : State) (n : Nat) : List Access :=
  (if s.control.enables.a then [.read (columnCell s .a n) (rectCourse s (n + 1)).aData] else []) ++
  (if s.control.enables.b then [.read (columnCell s .b n) (rectCourse s (n + 1)).bData] else []) ++
  (if s.control.enables.c then [.read (columnCell s .c n) (rectCourse s (n + 1)).cData] else []) ++
  (if s.control.enables.d then [.write (columnCell s .d n) (rectCourse s (n + 1)).out] else [])

/-- What stands after some steps of a line: pixel position, error, draw state, C latch, and the stores so far, newest
first. -/
structure LineCourse where
  position : BitVec 36
  error : Int
  draw : Bool
  cData : Word
  stores : List (Nat × Word)
deriving DecidableEq, Repr

/-- The cell of the word the line stands at. -/
def LineCourse.cell (s : State) (k : LineCourse) : Nat := cellOf s.platform (k.position.extractLsb' 4 32)

/-- The word a plot reads there (R188, R196 (a)). -/
def LineCourse.readWord (s : State) (k : LineCourse) : Word := cellAfter s k.stores (k.cell s)

/-- The word a plot writes there: `a_data` shifted by the step's own `shifts[0]`, all ones, and the word read, through
the truth table (R143, R188). -/
def LineCourse.written (s : State) (k : LineCourse) : Word :=
  minterm (s.aData >>> (k.position.extractLsb' 0 4).toNat) 0xFFFF#16 (k.readWord s) s.control.minterms

/-- The x and y parts of a step as numbers: the major axis always, the minor axis when the error is not negative
(R190). -/
def stepVector (s : State) (error : Int) : Int × Int :=
  let major : Int := if s.control.lineDirection.getLsbD 1 then -1 else 1
  let minor : Int := if 0 ≤ error then (if s.control.lineDirection.getLsbD 0 then -1 else 1) else 0
  if s.control.lineDirection.getLsbD 2 then (major, minor) else (minor, major)

/-- One step of R185 over what stands before it: the plot if drawing is on, then the move. -/
def stepCourse (s : State) (k : LineCourse) : LineCourse where
  position := k.position + BitVec.ofInt 36 (stepVector s k.error).1 +
    ((BitVec.ofInt 32 (stepVector s k.error).2 * s.modulo.c) ++ 0#4)
  error := k.error + (if k.error < 0 then s.modulo.b.toInt else s.modulo.a.toInt)
  draw := (k.draw && !s.control.oneDot) || decide ((stepVector s k.error).2 ≠ 0)
  cData := if k.draw then k.readWord s else k.cData
  stores := if k.draw then (k.cell s, k.written s) :: k.stores else k.stores

/-- What stands after `k` steps of a line entered in `s` (R185 to R187). -/
def lineCourse (s : State) : Nat → LineCourse
  | 0 => ⟨s.pointer.d ++ s.shiftA, (s.pointer.a.extractLsb' 0 16).toInt, true, s.cData, []⟩
  | k + 1 => stepCourse s (lineCourse s k)

/-- The accesses of step `k` with their words, oldest first: a read and a write of one cell if it plots (R68, R188). -/
def stepAccesses (s : State) (k : Nat) : List Access :=
  if (lineCourse s k).draw then
    [.read ((lineCourse s k).cell s) ((lineCourse s k).readWord s),
     .write ((lineCourse s k).cell s) ((lineCourse s k).written s)]
  else []

end Sys2Proof.Machine
end

