-- ==== Sys2Proof/Certificates/Slice0/Obligations.lean ====
section
/-! DEFINITION. The statements for the provers. Each is about the machine, from the spec's numbered rules; a free
parameter of the platform (`MEM_WORDS`, `IRQ_BLITTER`, `HOST_BYTE_ORDER`) is a field of the state, so a statement
over every state holds for every value of it. -/

open Sys2Proof Sys2Proof.Machine

/-! ### Encoding -/

/-- R81, R82, R93: a well-formed command's word decodes to it, and a word that decodes to a command is that command's
one encoding: no bit of a command word is dropped. -/
def Obligations.DecodeAndEncodeAgree : Prop :=
  (∀ i : Instr, i.wellFormed = true → decode (encode i) = .ok i) ∧
  ∀ (w : Command) (i : Instr), decode w = .ok i → encode i = w

/-- R82: a word is the command of a row of the opcode table exactly when `(w & mask) = match`, and no word is in two
rows. -/
def Obligations.DecoderMatchesOpcodeTable : Prop :=
  ∀ w : Command,
    (∀ i, decode w = .ok i → ∃ r ∈ opcodeRows, r.mnemonic = i.mnemonic ∧ w &&& r.mask = r.pattern) ∧
    (∀ r ∈ opcodeRows, w &&& r.mask = r.pattern → ∃ i, decode w = .ok i ∧ i.mnemonic = r.mnemonic) ∧
    ∀ r ∈ opcodeRows, ∀ r' ∈ opcodeRows, w &&& r.mask = r.pattern → w &&& r'.mask = r'.pattern → r = r'

/-- R92 (c): the decoder refuses exactly the words the rule lists. The writable offsets are those of R83. -/
def Obligations.RefusedWordsAreThoseListed : Prop :=
  ∀ w : Command,
    (∃ e, decode w = .error e) ↔
      (w.extractLsb' 30 2 = 3#2 ∨ w.extractLsb' 25 5 ≠ 0#5 ∨
        (w.extractLsb' 30 2 = 0#2 ∧ (w.extractLsb' 16 9).toNat ∉
          [0x040, 0x042, 0x044, 0x046, 0x048, 0x04A, 0x04C, 0x04E, 0x050, 0x052, 0x054, 0x056, 0x058, 0x05A, 0x060,
           0x062, 0x064, 0x066, 0x070, 0x072, 0x074]) ∨
        (w.extractLsb' 30 2 = 1#2 ∧ (w.extractLsb' 16 9 ≠ 0x002#9 ∨ w.extractLsb' 0 16 ≠ 0#16)) ∨
        (w.extractLsb' 30 2 = 2#2 ∧ w.extractLsb' 0 25 ≠ 0#25))

/-- R81, R83: words written out from the spec's encoding, one of each family, decode to what they stand for; three
of R92 (c) are refused. -/
def Obligations.SampleWordsDecode : Prop :=
  decode 0b00000000010000000000100111110000#32 = .ok (.setControl0 0x09F0#16) ∧
  decode 0b00000000010000100000000000001010#32 = .ok (.setControl1 0x000A#16) ∧
  decode 0b00000000010001000000111111111111#32 = .ok (.setFirstWordMask 0x0FFF#16) ∧
  decode 0b00000000010110000000000001000010#32 = .ok (.setSize 0x0042#16) ∧
  decode 0b00000000011100101111111111111111#32 = .ok (.setBData 0xFFFF#16) ∧
  decode 0b00000000010101100000001000000000#32 = .ok (.setDPtrLo 0x0200#16) ∧
  decode 0b00000000011001100000000000000010#32 = .ok (.setDMod 0x0002#16) ∧
  decode 0b01000000000000100000000000000000#32 = .ok .getStatus ∧
  decode 0b10000000000000000000000000000000#32 = .ok .advance ∧
  decode 0x80000001#32 = .error .triggerBits ∧
  decode 0x00410000#32 = .error .writeOffset ∧
  decode 0xC0000000#32 = .error .reservedKind

/-! ### Steps -/

/-- R5, R69, R92: when the host's next event is a command word that decodes to `i`, the step is `exec i`, in the state
whose host stream has moved past the word; a word that is no command refuses the run, by name; and `withFetchWord`
puts a word where the next step takes it. The stream is the model's (log entry 1). -/
def Obligations.StepRunsTheCommandWord : Prop :=
  (∀ (s : State) (w : Command) (rest : List HostEvent), s.Live → s.inputs = .command w :: rest →
    (∀ i, decode w = .ok i → step s = exec i { s with inputs := rest }) ∧
    (∀ e, decode w = .error e → step s = .refused (.notACommand e))) ∧
  ∀ (s : State) (n : Nat) (i : Instr), s.Live → decodeTableWord 32 n = some i →
    step (s.withFetchWord 32 n) = exec i s

/-- R70: a host store between commands changes one cell and nothing else of the machine; and with nothing from the
host the block waits (the model's choice, log entry 1). -/
def Obligations.HostStoreChangesOneCell : Prop :=
  (∀ (s : State) (p : Ptr) (v : Word) (rest : List HostEvent), s.Live → s.inputs = .store p v :: rest →
    s.mem.wf = true →
    ∃ m : Memory, step s = .next { s with inputs := rest, mem := m } ∧ m.wf = true ∧
      ∀ c, readCell s.platform m c = if c = cellOf s.platform p then v else readCell s.platform s.mem c) ∧
  ∀ s : State, s.Live → s.inputs = [] → step s = .next s

/-- R44, R224: the mark starts clear, and in a marked state no command and no step has a next state: each ends in the
same fault, so nothing clears the mark. -/
def Obligations.FaultedStateHasNoStep : Prop :=
  State.reset.fault = none ∧
  ∀ (s : State) (f : Fault), s.fault = some f → step s = .fault f ∧ ∀ i : Instr, exec i s = .fault f

/-! ### Setters -/

/-- R100. -/
def Obligations.SetControl0WritesItsFields : Prop :=
  ∀ (v : Word) (s : State), s.Live →
    decode (0x0040#16 ++ v) = .ok (.setControl0 v) ∧
    exec (.setControl0 v) s = .next
      { s with
        shiftA := v.extractLsb' 12 4
        control :=
          { s.control with
            enables := ⟨v.getLsbD 11, v.getLsbD 10, v.getLsbD 9, v.getLsbD 8⟩
            minterms := v.extractLsb' 0 8 } }

/-- R101: with exclusive fill taking precedence, and bits 11:7 and 5 ignored. -/
def Obligations.SetControl1WritesItsFields : Prop :=
  ∀ (v : Word) (s : State), s.Live →
    decode (0x0042#16 ++ v) = .ok (.setControl1 v) ∧
    exec (.setControl1 v) s = .next
      { s with
        shiftB := v.extractLsb' 12 4
        control :=
          { s.control with
            lineSign := if v.getLsbD 6 then .minus else .plus
            lineDirection := v.extractLsb' 2 3
            exclusiveFill := v.getLsbD 4
            inclusiveFill := v.getLsbD 3 && !v.getLsbD 4
            fillCarry := v.getLsbD 2
            oneDot := v.getLsbD 1
            lineMode := v.getLsbD 0 } } ∧
    exec (.setControl1 (v &&& 0xF05F#16)) s = exec (.setControl1 v) s

/-- R102, R103, R105: the two masks whole, and the truth table, bits 15:8 of whose word are ignored. -/
def Obligations.MaskAndMintermSettersWriteTheirField : Prop :=
  ∀ (v : Word) (s : State), s.Live →
    decode (0x0044#16 ++ v) = .ok (.setFirstWordMask v) ∧
    exec (.setFirstWordMask v) s = .next { s with control := { s.control with firstMask := v } } ∧
    decode (0x0046#16 ++ v) = .ok (.setLastWordMask v) ∧
    exec (.setLastWordMask v) s = .next { s with control := { s.control with lastMask := v } } ∧
    decode (0x005A#16 ++ v) = .ok (.setMinterms v) ∧
    exec (.setMinterms v) s = .next { s with control := { s.control with minterms := v.extractLsb' 0 8 } } ∧
    exec (.setMinterms (v &&& 0x00FF#16)) s = exec (.setMinterms v) s

/-- R104, R86: height in bits 15:6 and width in bits 5:0, 0 meaning the maximum; every operand makes the engine
busy. -/
def Obligations.SetSizeArmsTheEngine : Prop :=
  ∀ (v : Word) (s : State), s.Live →
    decode (0x0058#16 ++ v) = .ok (.setSize v) ∧
    ∃ t, exec (.setSize v) s = .next t ∧
      t = { s with height := t.height, control := { s.control with width := t.control.width } } ∧
      t.height = (if v.toNat / 64 = 0 then 1024 else v.toNat / 64) ∧
      t.control.width = (if v.toNat % 64 = 0 then 64 else v.toNat % 64) ∧
      1 ≤ t.height ∧ t.height ≤ 1024 ∧ 1 ≤ t.control.width ∧ t.control.width ≤ 64 ∧ busy t = true

/-- R106 to R108. -/
def Obligations.DataSettersWriteTheirLatch : Prop :=
  ∀ (v : Word) (s : State), s.Live →
    decode (0x0074#16 ++ v) = .ok (.setAData v) ∧ exec (.setAData v) s = .next { s with aData := v } ∧
    decode (0x0072#16 ++ v) = .ok (.setBData v) ∧ exec (.setBData v) s = .next { s with bData := v } ∧
    decode (0x0070#16 ++ v) = .ok (.setCData v) ∧ exec (.setCData v) s = .next { s with cData := v }

/-- R109 to R116: `SET_x_PTR_HI` writes bits 31:16 of the channel's pointer and keeps the lower half, `SET_x_PTR_LO`
writes bits 15:0 and keeps the upper half. -/
def Obligations.PointerSettersWriteOneHalf : Prop :=
  ∀ (v : Word) (s : State), s.Live →
    decode (0x0050#16 ++ v) = .ok (.setAPtrHi v) ∧
    exec (.setAPtrHi v) s = .next { s with pointer := { s.pointer with a := v ++ s.pointer.a.extractLsb' 0 16 } } ∧
    decode (0x0052#16 ++ v) = .ok (.setAPtrLo v) ∧
    exec (.setAPtrLo v) s = .next { s with pointer := { s.pointer with a := s.pointer.a.extractLsb' 16 16 ++ v } } ∧
    decode (0x004C#16 ++ v) = .ok (.setBPtrHi v) ∧
    exec (.setBPtrHi v) s = .next { s with pointer := { s.pointer with b := v ++ s.pointer.b.extractLsb' 0 16 } } ∧
    decode (0x004E#16 ++ v) = .ok (.setBPtrLo v) ∧
    exec (.setBPtrLo v) s = .next { s with pointer := { s.pointer with b := s.pointer.b.extractLsb' 16 16 ++ v } } ∧
    decode (0x0048#16 ++ v) = .ok (.setCPtrHi v) ∧
    exec (.setCPtrHi v) s = .next { s with pointer := { s.pointer with c := v ++ s.pointer.c.extractLsb' 0 16 } } ∧
    decode (0x004A#16 ++ v) = .ok (.setCPtrLo v) ∧
    exec (.setCPtrLo v) s = .next { s with pointer := { s.pointer with c := s.pointer.c.extractLsb' 16 16 ++ v } } ∧
    decode (0x0054#16 ++ v) = .ok (.setDPtrHi v) ∧
    exec (.setDPtrHi v) s = .next { s with pointer := { s.pointer with d := v ++ s.pointer.d.extractLsb' 0 16 } } ∧
    decode (0x0056#16 ++ v) = .ok (.setDPtrLo v) ∧
    exec (.setDPtrLo v) s = .next { s with pointer := { s.pointer with d := s.pointer.d.extractLsb' 16 16 ++ v } }

/-- R117 to R120: the sign-extended operand, as a number: its 32-bit reading is its 16-bit reading. -/
def Obligations.ModuloSettersSignExtend : Prop :=
  ∀ (v : Word) (s : State), s.Live → ∃ m : Ptr, m.toInt = v.toInt ∧
    decode (0x0064#16 ++ v) = .ok (.setAMod v) ∧
    exec (.setAMod v) s = .next { s with modulo := { s.modulo with a := m } } ∧
    decode (0x0062#16 ++ v) = .ok (.setBMod v) ∧
    exec (.setBMod v) s = .next { s with modulo := { s.modulo with b := m } } ∧
    decode (0x0060#16 ++ v) = .ok (.setCMod v) ∧
    exec (.setCMod v) s = .next { s with modulo := { s.modulo with c := m } } ∧
    decode (0x0066#16 ++ v) = .ok (.setDMod v) ∧
    exec (.setDMod v) s = .next { s with modulo := { s.modulo with d := m } }

/-- R121 (b) to (h): every setter completes in every live state and touches no memory, interrupt, fault, flag,
answer or accumulator; the busy flag moves only through `SET_SIZE`. -/
def Obligations.SettersHaveNoSideEffect : Prop :=
  ∀ (i : Instr) (s : State), i.isSetter = true → s.Live →
    ∃ t, exec i s = .next t ∧ t.mem = s.mem ∧ t.accesses = s.accesses ∧ t.interrupts = s.interrupts ∧
      t.responses = s.responses ∧ t.fault = s.fault ∧ t.notZeroFlag = s.notZeroFlag ∧ t.aAcc = s.aAcc ∧
      t.bAcc = s.bAcc ∧ t.inputs = s.inputs ∧ t.platform = s.platform ∧
      (i.mnemonic ≠ "SET_SIZE" → t.height = s.height ∧ t.control.width = s.control.width)

/-- R243: from reset every command is defined; "the order of the setters among themselves is free, because setters are
independent of each other, except where two setters write the same element": of `SET_CONTROL0` and `SET_MINTERMS` the
later gives the table, the two halves of a pointer combine; and `SET_SIZE`, before or after the others, starts
nothing. -/
def Obligations.SettersOfDifferentElementsCommute : Prop :=
  (∀ i : Instr, ∃ t, exec i State.reset = .next t) ∧
  (∀ (i j : Instr) (s t u : State), i.isSetter = true → j.isSetter = true → i.mnemonic ≠ j.mnemonic →
    ¬ (i.mnemonic ∈ ["SET_CONTROL0", "SET_MINTERMS"] ∧ j.mnemonic ∈ ["SET_CONTROL0", "SET_MINTERMS"]) →
    exec i s = .next t → exec j t = .next u → ∃ t', exec j s = .next t' ∧ exec i t' = .next u) ∧
  (∀ (i j : Instr) (s t u w : State), i.mnemonic ∈ ["SET_CONTROL0", "SET_MINTERMS"] →
    j.mnemonic ∈ ["SET_CONTROL0", "SET_MINTERMS"] → exec i s = .next t → exec j t = .next u →
    exec j s = .next w → u.control.minterms = w.control.minterms) ∧
  ∀ (v : Word) (s t : State), exec (.setSize v) s = .next t →
    t = { s with height := t.height, control := { s.control with width := t.control.width } }

/-- R95: the pseudo-commands do what their names say: a pointer is set whole, whichever half comes first; both masks;
a size in words and rows; a size and then its transfer. `WAIT_IDLE` repeats the status read until bit 14 of the
response is 0: it reads once in an idle state, after an `ADVANCE` too, ends only on a response whose bit 14 is 0, and
while nothing triggers a busy engine it is still reading after any number of rounds (the bound on the rounds is the
model's, log entry 12). -/
def Obligations.PseudoCommandsExpand : Prop :=
  ∀ s : State, s.Live →
    (∀ (ch : Channel) (a : Ptr),
      runCommands (Pseudo.setPtr ch a).expand s = .next (setPointer ch a s) ∧
      runCommands (Pseudo.setPtr ch a).expand.reverse s = .next (setPointer ch a s)) ∧
    (∀ f l : Word, runCommands (Pseudo.setMasks f l).expand s =
      .next { s with control := { s.control with firstMask := f, lastMask := l } }) ∧
    (∀ w h : Nat, 1 ≤ w → w ≤ 64 → 1 ≤ h → h ≤ 1024 →
      runCommands (Pseudo.setSizeWH w h).expand s =
        .next { s with height := h, control := { s.control with width := w } } ∧
      runCommands (Pseudo.blit w h).expand s =
        exec .advance { s with height := h, control := { s.control with width := w } }) ∧
    (∀ n : Nat, s.height = 0 → Pseudo.run (n + 1) .waitIdle s = some (exec .getStatus s)) ∧
    (∀ n : Nat, s.height ≠ 0 → Pseudo.run n .waitIdle s = none) ∧
    (∀ (n : Nat) (t : State), exec .advance s = .next t → t.Live →
      Pseudo.run (n + 1) .waitIdle t = some (exec .getStatus t)) ∧
    (∀ (n : Nat) (t : State), Pseudo.run n .waitIdle s = some (.next t) →
      ∃ v rest, t.responses = .status v :: rest ∧ v.getLsbD 14 = false) ∧
    ∀ (p : Pseudo) (n : Nat), p ≠ .waitIdle → Pseudo.run (n + 1) p s = some (runCommands p.expand s)

/-! ### The trigger and completion -/

/-- R141, R223: an idle `ADVANCE` answers 0 and changes nothing, whatever `line_mode` and `b_data` are. -/
def Obligations.AdvanceWhenIdleDoesNothing : Prop :=
  ∀ s : State, s.Live → s.height = 0 →
    exec .advance s = .next { s with responses := .performed false :: s.responses }

/-- R221, R224, R256: a line with `b_data ≠ 0xFFFF` marks the state and changes nothing else: no register, no flag,
no cell, no interrupt, no answer. -/
def Obligations.PatternedLineFaults : Prop :=
  ∀ s : State, s.Live → s.height ≠ 0 → s.control.lineMode = true → s.bData ≠ 0xFFFF#16 →
    exec .advance s = .next { s with fault := some .unsupportedPatternedLine }

/-- R220, R221, R224: in a live state every command has a next state; the one fault is raised by `ADVANCE` alone,
exactly with `height ≠ 0`, `line_mode = 1` and `b_data ≠ 0xFFFF`, and a faulting command changes nothing but the mark.
That it answers a next state with the mark set is the model's reading (log entry 6). -/
def Obligations.OnlyPatternedLinesFault : Prop :=
  ∀ (i : Instr) (s : State), s.Live →
    ∃ t, exec i s = .next t ∧
      (t.fault ≠ none ↔
        i = .advance ∧ s.height ≠ 0 ∧ s.control.lineMode = true ∧ s.bData ≠ 0xFFFF#16) ∧
      (t.fault ≠ none → t = { s with fault := some .unsupportedPatternedLine })

/-- R142: the complete list of transitions between Idle (`height = 0`) and Running. -/
def Obligations.StateMachineTransitions : Prop :=
  ∀ (i : Instr) (s t : State), exec i s = .next t →
    ((s.height = 0 ∧ t.height ≠ 0) → i.mnemonic = "SET_SIZE") ∧
    ((s.height ≠ 0 ∧ t.height = 0) → i = .advance) ∧
    (i.mnemonic = "SET_SIZE" → t.height ≠ 0) ∧
    (i = .advance → t.fault = none → t.height = 0) ∧
    (i.mnemonic ≠ "SET_SIZE" → i ≠ .advance → t.height = s.height)

/-- R211, R222: one event at the end of every performed transfer, and at no other time. -/
def Obligations.OneInterruptPerTransfer : Prop :=
  ∀ (i : Instr) (s t : State), exec i s = .next t →
    t.interrupts =
      if i = .advance ∧ s.height ≠ 0 ∧ ¬ (s.control.lineMode = true ∧ s.bData ≠ 0xFFFF#16)
      then s.platform.irqBlitter :: s.interrupts else s.interrupts

/-- R20, R143: no transfer writes control state, a modulo, shift B or what the host still has to send. -/
def Obligations.EngineNeverWritesControlState : Prop :=
  ∀ s t : State, exec .advance s = .next t →
    t.control = s.control ∧ t.modulo = s.modulo ∧ t.shiftB = s.shiftB ∧ t.inputs = s.inputs ∧
    t.platform = s.platform

/-- R145: after an `ADVANCE` a second one without a new `SET_SIZE`, whatever other commands come between, performs
nothing; a new `SET_SIZE` writes the size alone, and then an `ADVANCE` performs a transfer again. -/
def Obligations.OneTriggerOneTransfer : Prop :=
  ∀ s t : State, exec .advance s = .next t → t.Live →
    exec .advance t = .next { t with responses := .performed false :: t.responses } ∧
    (∀ (is : List Instr) (u : State), (∀ i ∈ is, i.mnemonic ≠ "SET_SIZE") → runCommands is t = .next u →
      exec .advance u = .next { u with responses := .performed false :: u.responses }) ∧
    ∀ v : Word, ∃ u, exec (.setSize v) t = .next u ∧ busy u = true ∧
      u = { t with height := u.height, control := { t.control with width := u.control.width } } ∧
      ((t.control.lineMode = false ∨ t.bData = 0xFFFF#16) →
        ∃ w, exec .advance u = .next w ∧ w.responses = .performed true :: u.responses)

/-- R37, R212, R170, R188: after a transfer whose output words are all written, the flag tells whether one of them
was not 0x0000. -/
def Obligations.FlagTellsNonzeroOutput : Prop :=
  ∀ s t : State, (s.LineReady ∨ (s.RectReady ∧ s.control.enables.d = true)) → exec .advance s = .next t →
    ∃ new, t.accesses = new ++ s.accesses ∧ t.notZeroFlag = new.any Access.isNonzeroWrite

/-! ### Status -/

/-- R210, R91: the status word bit by bit, answered with no change of the block. -/
def Obligations.GetStatusAnswersBusyAndZero : Prop :=
  ∀ s : State, s.Live →
    ∃ v : Word, exec .getStatus s = .next { s with responses := .status v :: s.responses } ∧
      v = (if s.notZeroFlag then 0x0000#16 else 0x2000#16) + (if s.height = 0 then 0x0000#16 else 0x4000#16)

/-- R213, R38: every `SET_SIZE` makes the status busy; the busy bit stays on until an `ADVANCE`; after a completed
trigger the status is not busy and `height` is 0; and nothing but `SET_SIZE` turns the bit on again. -/
def Obligations.BusyFromSizeToAdvance : Prop :=
  (∀ (v : Word) (s : State), s.Live →
    ∃ t, exec (.setSize v) s = .next t ∧ (statusWord t).getLsbD 14 = true) ∧
  (∀ (i : Instr) (s t : State), exec i s = .next t → (statusWord s).getLsbD 14 = true →
    (statusWord t).getLsbD 14 = false → i = .advance) ∧
  (∀ s t : State, exec .advance s = .next t → t.Live → (statusWord t).getLsbD 14 = false ∧ t.height = 0) ∧
  ∀ (i : Instr) (s t : State), exec i s = .next t → (statusWord s).getLsbD 14 = false →
    (statusWord t).getLsbD 14 = true → i.mnemonic = "SET_SIZE"

/-! ### Reset and invariants -/

/-- R49, R241: the values the spec gives; the memory and the host's side are the model's (log entries 2 and 4). -/
def Obligations.ResetValues : Prop :=
  State.reset.control =
    { lineMode := false, oneDot := false, lineDirection := 0#3, lineSign := .plus, exclusiveFill := false,
      inclusiveFill := false, fillCarry := false, minterms := 0#8, enables := ⟨false, false, false, false⟩,
      firstMask := 0#16, lastMask := 0#16, width := 0 } ∧
  State.reset.shiftA = 0#4 ∧ State.reset.shiftB = 0#4 ∧ State.reset.height = 0 ∧
  (∀ ch, State.reset.pointer.get ch = 0#32 ∧ State.reset.modulo.get ch = 0#32) ∧
  State.reset.aData = 0#16 ∧ State.reset.bData = 0#16 ∧ State.reset.cData = 0#16 ∧
  State.reset.notZeroFlag = false ∧ State.reset.aAcc = 0#32 ∧ State.reset.bAcc = 0#32 ∧
  State.reset.fault = none ∧ increment State.reset = 1#32 ∧ busy State.reset = false ∧
  statusWord State.reset = 0x2000#16

/-- R47 holds after reset. -/
def Obligations.ResetMeetsInvariant : Prop := State.reset.Inv

/-- R47, R60: every step, of a command or of a host store, keeps the invariants, from every state that meets them. -/
def Obligations.StepKeepsInvariant : Prop :=
  ∀ s t : State, s.Inv → step s = .next t → t.Inv

/-- R47: every state reached from reset, on any platform, over any canonical memory, by whatever the host sends,
meets the invariants. -/
def Obligations.ReachableStatesMeetInvariant : Prop :=
  ∀ (pl : Platform) (m : Memory) (es : List HostEvent) (n : Nat) (t : State),
    m.wf = true → m.below (2 * memWords pl) = true →
    Host.Core.run Sys2Proof.core n { State.reset with platform := pl, mem := m, inputs := es } = .next t → t.Inv

/-! ### Memory -/

/-- R61, R10 (b): a pointer selects the cell of its value modulo `MEM_WORDS`; no address is out of range; pointers
that differ by a multiple of `MEM_WORDS` name one cell. -/
def Obligations.AddressesWrapAtMemWords : Prop :=
  ∀ (pl : Platform) (p : Ptr) (k : Nat),
    memWords pl = 2 ^ pl.memBits.val ∧ cellOf pl p = p.toNat % memWords pl ∧ cellOf pl p < memWords pl ∧
    cellOf pl (p + BitVec.ofNat 32 (k * memWords pl)) = cellOf pl p

/-- R62, R63, R64: a read changes nothing but the record of accesses; a write changes exactly one cell, and the word
reads back as written in either byte order. The record and the canonical form are the model's (log entries 5, 13). -/
def Obligations.MemoryReadsBackWhatWasWritten : Prop :=
  ∀ (s : State) (p q : Ptr) (v : Word), s.mem.wf = true →
    (memRead p s).1 = readCell s.platform s.mem (cellOf s.platform p) ∧
    (memRead p s).2 =
      { s with accesses := .read (cellOf s.platform p) (memRead p s).1 :: s.accesses } ∧
    (memWrite p v s).mem.wf = true ∧
    memWrite p v s =
      { s with
        mem := (memWrite p v s).mem
        accesses := .write (cellOf s.platform p) v :: s.accesses } ∧
    (memRead q (memWrite p v s)).1 = if cellOf s.platform q = cellOf s.platform p then v else (memRead q s).1

/-- R64: "no byte order is observable through the block": two states that hold the same words in different byte
orders stay so under every command. -/
def Obligations.ByteOrderIsUnobservable : Prop :=
  ∀ (i : Instr) (s₁ s₂ t₁ : State), SameWords s₁ s₂ → exec i s₁ = .next t₁ →
    ∃ t₂, exec i s₂ = .next t₂ ∧ SameWords t₁ t₂

/-! ### The datapath -/

/-- R150, R151: the four cases of the column mask (with one column both masks apply); after a column the new word
stands in bits 15:0 of each accumulator (A after masking) and the word before it in bits 31:16; the latches keep the
unmasked words. -/
def Obligations.AccumulatorsHoldMaskedWords : Prop :=
  (∀ (ct : Control) (x : Nat), x < ct.width →
    (x = 0 → 1 < ct.width → colMask ct x = ct.firstMask) ∧
    (x + 1 = ct.width → 1 < ct.width → colMask ct x = ct.lastMask) ∧
    (x = 0 → ct.width = 1 → colMask ct x = ct.firstMask &&& ct.lastMask) ∧
    (0 < x → x + 1 < ct.width → colMask ct x = 0xFFFF#16)) ∧
  ∀ (s : State) (x : Nat),
    (accumulate x s).aAcc = s.aAcc.extractLsb' 0 16 ++ (s.aData &&& colMask s.control x) ∧
    (accumulate x s).bAcc = s.bAcc.extractLsb' 0 16 ++ s.bData ∧
    (accumulate x s).aData = s.aData ∧ (accumulate x s).bData = s.bData

/-- R152, R153: over the current and the previous word, in both directions and for every shift. -/
def Obligations.BarrelShifterJoinsTwoWords : Prop :=
  ∀ (prev cur : Word) (sh : BitVec 4),
    barrel false (prev ++ cur) sh =
      (if sh = 0#4 then cur else (cur >>> sh.toNat) ||| (prev <<< (16 - sh.toNat))) ∧
    barrel true (prev ++ cur) sh =
      (if sh = 0#4 then cur else (cur <<< sh.toNat) ||| (prev >>> (16 - sh.toNat)))

/-- R154: each bit position looks up entry `4·A + 2·B + C` on its own; and the sum-of-products form of the table. -/
def Obligations.MintermSelectsTableEntry : Prop :=
  ∀ (A B C : Word) (T : BitVec 8),
    (∀ i, i < 16 → (minterm A B C T).getLsbD i =
      T.getLsbD ((if A.getLsbD i then 4 else 0) + (if B.getLsbD i then 2 else 0) + (if C.getLsbD i then 1 else 0))) ∧
    minterm A B C T =
      (if T.getLsbD 0 then ~~~A &&& ~~~B &&& ~~~C else 0#16) ||| (if T.getLsbD 1 then ~~~A &&& ~~~B &&& C else 0#16) |||
      (if T.getLsbD 2 then ~~~A &&& B &&& ~~~C else 0#16) ||| (if T.getLsbD 3 then ~~~A &&& B &&& C else 0#16) |||
      (if T.getLsbD 4 then A &&& ~~~B &&& ~~~C else 0#16) ||| (if T.getLsbD 5 then A &&& ~~~B &&& C else 0#16) |||
      (if T.getLsbD 6 then A &&& B &&& ~~~C else 0#16) ||| (if T.getLsbD 7 then A &&& B &&& C else 0#16)

/-- R155: the named truth tables. -/
def Obligations.UsefulTruthTables : Prop :=
  ∀ A B C : Word,
    minterm A B C 0x00#8 = 0x0000#16 ∧ minterm A B C 0xFF#8 = 0xFFFF#16 ∧
    minterm A B C 0xF0#8 = A ∧ minterm A B C 0x0F#8 = ~~~A ∧
    minterm A B C 0xCC#8 = B ∧ minterm A B C 0x33#8 = ~~~B ∧
    minterm A B C 0xAA#8 = C ∧ minterm A B C 0x55#8 = ~~~C ∧
    minterm A B C 0xC0#8 = A &&& B ∧ minterm A B C 0xFC#8 = A ||| B ∧
    minterm A B C 0xA0#8 = A &&& C ∧ minterm A B C 0xFA#8 = A ||| C ∧
    minterm A B C 0x88#8 = B &&& C ∧ minterm A B C 0xEE#8 = B ||| C ∧
    minterm A B C 0x5A#8 = A ^^^ C ∧ minterm A B C 0x3C#8 = A ^^^ B ∧
    minterm A B C 0x66#8 = B ^^^ C ∧ minterm A B C 0x96#8 = A ^^^ B ^^^ C ∧
    minterm A B C 0xCA#8 = (A &&& B) ||| (~~~A &&& C) ∧ minterm A B C 0xE2#8 = (B &&& A) ||| (~~~B &&& C) ∧
    minterm A B C 0x4A#8 = (~~~A &&& C) ||| (A &&& B &&& ~~~C) ∧ minterm A B C 0x0A#8 = ~~~A &&& C ∧
    minterm A B C 0x80#8 = A &&& B &&& C ∧ minterm A B C 0x01#8 = ~~~A &&& ~~~B &&& ~~~C

/-! ### Fill -/

/-- R132, R134, R135: the nibble step gives the rows of the two tables, the packed lookup is the nibble step, and a
word filled by consulting the packed tables four bits at a time is the word fill. -/
def Obligations.FillTablesAreTheNibbleStep : Prop :=
  (List.range 16).map (fun n => (fillNibble .inclusive false (BitVec.ofNat 4 n)).1.toNat) =
    [0x0, 0xF, 0xE, 0x3, 0xC, 0x7, 0x6, 0xF, 0x8, 0xF, 0xE, 0xB, 0xC, 0xF, 0xE, 0xF] ∧
  (List.range 16).map (fun n => (fillNibble .inclusive true (BitVec.ofNat 4 n)).1.toNat) =
    [0xF, 0x1, 0x3, 0xF, 0x7, 0xD, 0xF, 0x7, 0xF, 0x9, 0xB, 0xF, 0xF, 0xD, 0xF, 0xF] ∧
  (List.range 16).map (fun n => (fillNibble .exclusive false (BitVec.ofNat 4 n)).1.toNat) =
    [0x0, 0xF, 0xE, 0x1, 0xC, 0x3, 0x2, 0xD, 0x8, 0x7, 0x6, 0x9, 0x4, 0xB, 0xA, 0x5] ∧
  (List.range 16).map (fun n => (fillNibble .exclusive true (BitVec.ofNat 4 n)).1.toNat) =
    [0xF, 0x0, 0x1, 0xE, 0x3, 0xC, 0xD, 0x2, 0x7, 0x8, 0x9, 0x6, 0xB, 0x4, 0x5, 0xA] ∧
  (∀ mode ∈ [FillMode.inclusive, FillMode.exclusive],
    (List.range 16).map (fun n => (fillNibble mode false (BitVec.ofNat 4 n)).2.toNat) =
      [0, 1, 1, 0, 1, 0, 0, 1, 1, 0, 0, 1, 0, 1, 1, 0] ∧
    (List.range 16).map (fun n => (fillNibble mode true (BitVec.ofNat 4 n)).2.toNat) =
      [1, 0, 0, 1, 0, 1, 1, 0, 0, 1, 1, 0, 1, 0, 0, 1]) ∧
  ∀ (mode : FillMode) (c : Bool),
    (∀ n : BitVec 4, fillLookup mode c n = fillNibble mode c n) ∧
    ∀ w : Word,
      let r0 := fillLookup mode c (w.extractLsb' 0 4)
      let r1 := fillLookup mode r0.2 (w.extractLsb' 4 4)
      let r2 := fillLookup mode r1.2 (w.extractLsb' 8 4)
      let r3 := fillLookup mode r2.2 (w.extractLsb' 12 4)
      fillWord mode c w = (r3.1 ++ r2.1 ++ r1.1 ++ r0.1, r3.2)

/-- R130, R133, R135: over a whole word, bit 0 first: the carry that meets bit `i` is the seed exclusive-or the bits
below it; an exclusive fill outputs carry xor bit, an inclusive fill carry or bit; the exit carry takes in all
sixteen. -/
def Obligations.FillWordIsACarryChain : Prop :=
  ∀ (c : Bool) (w : Word),
    (∀ i, i < 16 →
      (fillWord .exclusive c w).1.getLsbD i = (parityFrom c w i ^^ w.getLsbD i) ∧
      (fillWord .inclusive c w).1.getLsbD i = (parityFrom c w i || w.getLsbD i)) ∧
    (fillWord .exclusive c w).2 = parityFrom c w 16 ∧ (fillWord .inclusive c w).2 = parityFrom c w 16

/-! ### Rectangular transfers -/

/-- R140, R173: a rectangular `ADVANCE` completes in every state that is ready for one, clears `height`, posts one
interrupt, answers 1, and leaves shifts, modulos, control fields, disabled latches and disabled pointers alone. -/
def Obligations.RectAdvanceCompletes : Prop :=
  ∀ s : State, s.RectReady →
    ∃ t, exec .advance s = .next t ∧ t.height = 0 ∧ t.interrupts = s.platform.irqBlitter :: s.interrupts ∧
      t.responses = .performed true :: s.responses ∧ t.fault = none ∧ t.control = s.control ∧
      t.shiftA = s.shiftA ∧ t.shiftB = s.shiftB ∧ t.modulo = s.modulo ∧
      (s.control.enables.a = false → t.aData = s.aData) ∧ (s.control.enables.b = false → t.bData = s.bData) ∧
      (s.control.enables.c = false → t.cData = s.cData) ∧
      (∀ ch, s.control.enables.get ch = false → t.pointer.get ch = s.pointer.get ch) ∧
      (s.control.enables.d = false → t.mem = s.mem) ∧ t.inputs = s.inputs ∧ t.platform = s.platform

/-- R172, R173: an enabled channel's pointer moves by `dir * H * (W + modulo[ch])` modulo 2^32. -/
def Obligations.RectPointersAdvance : Prop :=
  ∀ (s t : State) (ch : Channel), s.RectReady → exec .advance s = .next t →
    t.pointer.get ch =
      if s.control.enables.get ch then
        s.pointer.get ch + scaled s (BitVec.ofNat 32 s.height * (BitVec.ofNat 32 s.control.width + s.modulo.get ch))
      else s.pointer.get ch

/-- R68, R165, R175: a rectangular transfer makes exactly the accesses of its columns, in order: rows ascending,
columns ascending, and in a column read A, read B, read C, write D, each if enabled. And with the words: column by
column, over a row of any width and any number of rows, what is read, masked (R150), accumulated (R151), combined and
filled with the carry chained within the row (R137, R169), what is written and read back (R174 (f)), and the latches,
accumulators and flag left behind (R170, R173). The record of accesses is the model's (log entry 5). -/
def Obligations.RectAccessesInOrder : Prop :=
  ∀ s t : State, s.RectReady → exec .advance s = .next t →
    t.accesses.reverse.map Access.place = s.accesses.reverse.map Access.place ++
      ((List.range s.height).flatMap fun y => (List.range s.control.width).flatMap fun x => columnPlaces s y x) ∧
    ((s.control.enables.d = true → s.mem.wf = true) →
      let n := s.height * s.control.width
      t.accesses.reverse = s.accesses.reverse ++ (List.range n).flatMap (columnAccesses s) ∧
      t.aData = (rectCourse s n).aData ∧ t.bData = (rectCourse s n).bData ∧ t.cData = (rectCourse s n).cData ∧
      t.aAcc = (rectCourse s n).aAcc ∧ t.bAcc = (rectCourse s n).bAcc ∧
      (∀ c, readCell t.platform t.mem c = cellAfter s (rectCourse s n).stores c) ∧
      t.notZeroFlag = (List.range n).any fun m => (rectCourse s (m + 1)).out != 0x0000#16)

/-- R171, R173: memory changes only at the cells channel D writes; the address of each is computed from the row and
the column. -/
def Obligations.RectMemoryFrame : Prop :=
  ∀ (s t : State) (a : Nat), s.RectReady → exec .advance s = .next t →
    (s.control.enables.d = true → ∀ y, y < s.height → ∀ x, x < s.control.width →
      a / 2 ≠ cellOf s.platform (columnPointer s .d y x)) →
    t.mem.read a = s.mem.read a

/-- R165 whole, for one row of one column: every enable, both masks, both shifters in both directions, the truth
table, the fill, the flag, the write and the pointers. -/
def Obligations.OneWordTransfer : Prop :=
  ∀ s : State, s.RectReady → s.height = 1 → s.control.width = 1 → s.mem.wf = true →
    let ct := s.control
    let a := if ct.enables.a then wordAt s s.pointer.a else s.aData
    let b := if ct.enables.b then wordAt s s.pointer.b else s.bData
    let c := if ct.enables.c then wordAt s s.pointer.c else s.cData
    let aAcc := s.aAcc.extractLsb' 0 16 ++ (a &&& ct.firstMask &&& ct.lastMask)
    let bAcc := s.bAcc.extractLsb' 0 16 ++ b
    let raw := minterm (barrel ct.oneDot aAcc s.shiftA) (barrel ct.oneDot bAcc s.shiftB) c ct.minterms
    let out :=
      if ct.exclusiveFill then (fillWord .exclusive ct.fillCarry raw).1
      else if ct.inclusiveFill then (fillWord .inclusive ct.fillCarry raw).1
      else raw
    ∃ t, exec .advance s = .next t ∧ t.aData = a ∧ t.bData = b ∧ t.cData = c ∧ t.aAcc = aAcc ∧ t.bAcc = bAcc ∧
      t.notZeroFlag = (out != 0x0000#16) ∧ t.height = 0 ∧
      (∀ q : Ptr, wordAt t q =
        if ct.enables.d = true ∧ cellOf s.platform q = cellOf s.platform s.pointer.d then out else wordAt s q) ∧
      ∀ ch, t.pointer.get ch =
        if ct.enables.get ch then
          (if ct.oneDot then s.pointer.get ch - (1#32 + s.modulo.get ch)
           else s.pointer.get ch + (1#32 + s.modulo.get ch))
        else s.pointer.get ch

/-- R174 (a): with A, B and C disabled, D enabled, latches and accumulators 0 and no fill, every written word is the
truth table's entry 0 repeated over the rectangle. -/
def Obligations.DisabledSourcesRepeatEntryZero : Prop :=
  ∀ s t : State, s.RectReady → exec .advance s = .next t → s.control.enables = ⟨false, false, false, true⟩ →
    s.aData = 0#16 → s.bData = 0#16 → s.cData = 0#16 → s.aAcc = 0#32 → s.bAcc = 0#32 →
    s.control.exclusiveFill = false → s.control.inclusiveFill = false →
    ∃ new, t.accesses = new ++ s.accesses ∧ new.length = s.height * s.control.width ∧
      ∀ x ∈ new, ∃ c, x = .write c (if s.control.minterms.getLsbD 0 then 0xFFFF#16 else 0x0000#16)

/-- R170, R174 (b): the flag is evaluated in every column, whether or not channel D is enabled. With no source channel
reading memory, and more generally where no enabled source reads a cell channel D would have written before, enabling
D changes neither the flag nor a latch nor an accumulator. With D disabled the transfer is a pure test: memory is
unchanged and the flag is 1 exactly when the output word of some column, computed from memory as it stood at entry,
is not 0x0000, over all rows and columns, with every mask, shift, table and fill. -/
def Obligations.FlagIgnoresDEnable : Prop :=
  (∀ s t₀ t₁ : State, s.RectReady → s.control.enables = ⟨false, false, false, false⟩ →
    exec .advance s = .next t₀ →
    exec .advance { s with control := { s.control with enables := ⟨false, false, false, true⟩ } } = .next t₁ →
    t₁.notZeroFlag = t₀.notZeroFlag) ∧
  (∀ s t₀ t₁ : State, s.RectReady → s.mem.wf = true → s.control.enables.d = false →
    (∀ ch, ch ≠ .d → s.control.enables.get ch = true → ∀ m n, m < n → n < s.height * s.control.width →
      columnCell s ch n ≠ columnCell s .d m) →
    exec .advance s = .next t₀ →
    exec .advance { s with control := { s.control with enables := { s.control.enables with d := true } } } =
      .next t₁ →
    t₁.notZeroFlag = t₀.notZeroFlag ∧ t₁.aData = t₀.aData ∧ t₁.bData = t₀.bData ∧ t₁.cData = t₀.cData ∧
    t₁.aAcc = t₀.aAcc ∧ t₁.bAcc = t₀.bAcc) ∧
  ∀ s : State, s.RectReady → s.control.enables.d = false →
    let word (ch : Channel) (latch : Word) (n : Nat) : Word :=
      if s.control.enables.get ch then readCell s.platform s.mem (columnCell s ch n) else latch
    let a (n : Nat) : Word := word .a s.aData n &&& columnMask s n
    let b (n : Nat) : Word := word .b s.bData n
    let aAcc (n : Nat) : Acc := (if n = 0 then s.aAcc.extractLsb' 0 16 else a (n - 1)) ++ a n
    let bAcc (n : Nat) : Acc := (if n = 0 then s.bAcc.extractLsb' 0 16 else b (n - 1)) ++ b n
    let raw (n : Nat) : Word := combine s (aAcc n) (bAcc n) (word .c s.cData n)
    let carry (n : Nat) : Bool := (List.range (n % s.control.width)).foldl
      (fun c j => (filled s c (raw (n - n % s.control.width + j))).2) s.control.fillCarry
    ∃ t, exec .advance s = .next t ∧ t.mem = s.mem ∧
      (t.notZeroFlag = true ↔
        ∃ n, n < s.height * s.control.width ∧ (filled s (carry n) (raw n)).1 ≠ 0x0000#16)

/-- R137, R145, R247, R248: the fill seed is fresh in every row and everything else carries over: `m + n` rows are
`m` rows and then, after a new size, `n` rows; the flag of the whole is the or of the two. -/
def Obligations.RowsSplitIntoTwoTransfers : Prop :=
  ∀ (s t t₁ t₂ : State) (m n : Nat), s.Live → s.control.lineMode = false → m ≠ 0 → n ≠ 0 →
    exec .advance { s with height := m + n } = .next t →
    exec .advance { s with height := m } = .next t₁ →
    exec .advance { t₁ with height := n } = .next t₂ →
    t.mem = t₂.mem ∧ t.pointer = t₂.pointer ∧ t.aData = t₂.aData ∧ t.bData = t₂.bData ∧ t.cData = t₂.cData ∧
    t.aAcc = t₂.aAcc ∧ t.bAcc = t₂.bAcc ∧ t.accesses = t₂.accesses ∧
    t.notZeroFlag = (t₁.notZeroFlag || t₂.notZeroFlag)

/-- R85, R24: a rectangular transfer never reads the quadrant code or the sign bit. -/
def Obligations.RectIgnoresLineFields : Prop :=
  ∀ (s t : State) (dir : BitVec 3) (sg : Sign), s.RectReady → exec .advance s = .next t →
    exec .advance { s with control := { s.control with lineDirection := dir, lineSign := sg } } =
      .next { t with control := { t.control with lineDirection := dir, lineSign := sg } }

/-! ### Line transfers -/

/-- R140, R195: a line `ADVANCE` completes in every state that is ready for one, clears `height`, posts one interrupt,
answers 1, and leaves everything but `pointer[3]`, `shifts[0]`, `c_data`, the flag and the plotted cells alone. -/
def Obligations.LineAdvanceCompletes : Prop :=
  ∀ s : State, s.LineReady →
    ∃ t, exec .advance s = .next t ∧ t.height = 0 ∧ t.interrupts = s.platform.irqBlitter :: s.interrupts ∧
      t.responses = .performed true :: s.responses ∧ t.fault = none ∧ t.control = s.control ∧
      t.shiftB = s.shiftB ∧ t.modulo = s.modulo ∧ t.aData = s.aData ∧ t.bData = s.bData ∧ t.aAcc = s.aAcc ∧
      t.bAcc = s.bAcc ∧ t.pointer.a = s.pointer.a ∧ t.pointer.b = s.pointer.b ∧ t.pointer.c = s.pointer.c ∧
      t.inputs = s.inputs ∧ t.platform = s.platform

/-- R68, R188, R194, R195: a line makes exactly two accesses of one cell for each step that plots, a read and then a
write, in the order of its `height` steps. And with the words, at every step: the word read, as earlier plots left it
(R196 (a)), and the word written, `a_data` shifted by that step's `shifts[0]` through the truth table with all ones and
the word read (R143, R185, R188); `c_data` is the word read at the last plotted step (R195); the flag, memory and the
position follow. The record of accesses is the model's (log entry 5), and the error term is exact (log entry 14). -/
def Obligations.LineAccessesInOrder : Prop :=
  ∀ s t : State, s.LineReady → exec .advance s = .next t →
    t.accesses.reverse.map Access.place = s.accesses.reverse.map Access.place ++
      ((List.range s.height).flatMap fun k => linePlaces s k) ∧
    (s.mem.wf = true →
      t.accesses.reverse = s.accesses.reverse ++ (List.range s.height).flatMap (stepAccesses s) ∧
      t.cData = (lineCourse s s.height).cData ∧ pixelPosition t = (lineCourse s s.height).position ∧
      (∀ c, readCell t.platform t.mem c = cellAfter s (lineCourse s s.height).stores c) ∧
      t.notZeroFlag = (List.range s.height).any fun k =>
        (lineCourse s k).draw && (lineCourse s k).written s != 0x0000#16)

/-- R188, R195: memory changes only at plotted cells, the address of each computed from the steps before it. -/
def Obligations.LineMemoryFrame : Prop :=
  ∀ (s t : State) (a : Nat), s.LineReady → exec .advance s = .next t →
    (∀ k, k < s.height → (lineSteps k (lineStart s)).draw = true →
      a / 2 ≠ cellOf s.platform (lineSteps k (lineStart s)).st.pointer.d) →
    t.mem.read a = s.mem.read a

/-- R187, R189: the first step plots; without one-dot mode every step plots; on a y-major line one-dot mode changes
nothing; with it, a step plots exactly when it is the first or the step before it moved in y. -/
def Obligations.WhichStepsPlot : Prop :=
  ∀ (s : State) (k : Nat),
    (lineSteps 0 (lineStart s)).draw = true ∧
    (s.control.oneDot = false → (lineSteps k (lineStart s)).draw = true) ∧
    (s.control.lineDirection.getLsbD 2 = false → (lineSteps k (lineStart s)).draw = true) ∧
    (s.control.oneDot = true → s.control.lineDirection.getLsbD 2 = true →
      (lineSteps (k + 1) (lineStart s)).draw = decide (0 ≤ (lineSteps k (lineStart s)).error))

/-- R190: the eight codes, as (x, y) steps, first the major step alone and then with the minor step. -/
def Obligations.StepSetOfEachCode : Prop :=
  lineMoves 0b000#3 false = (.stay, .forth) ∧ lineMoves 0b000#3 true = (.forth, .forth) ∧
  lineMoves 0b001#3 false = (.stay, .forth) ∧ lineMoves 0b001#3 true = (.back, .forth) ∧
  lineMoves 0b010#3 false = (.stay, .back) ∧ lineMoves 0b010#3 true = (.forth, .back) ∧
  lineMoves 0b011#3 false = (.stay, .back) ∧ lineMoves 0b011#3 true = (.back, .back) ∧
  lineMoves 0b100#3 false = (.forth, .stay) ∧ lineMoves 0b100#3 true = (.forth, .forth) ∧
  lineMoves 0b101#3 false = (.forth, .stay) ∧ lineMoves 0b101#3 true = (.forth, .back) ∧
  lineMoves 0b110#3 false = (.back, .stay) ∧ lineMoves 0b110#3 true = (.back, .forth) ∧
  lineMoves 0b111#3 false = (.back, .stay) ∧ lineMoves 0b111#3 true = (.back, .back)

/-- R192, R193: along the bitmap's words an x step is exactly one pixel, wraps of the shift included, and a y step is
one row stride; neither touches anything but `pointer[3]` and `shifts[0]`. -/
def Obligations.StepsMoveOnePixel : Prop :=
  ∀ s : State,
    pixelPosition (stepX .forth s) = pixelPosition s + 1#36 ∧
    pixelPosition (stepX .back s) = pixelPosition s - 1#36 ∧
    stepX .stay s = s ∧ stepY .stay s = s ∧
    stepY .forth s = { s with pointer := { s.pointer with d := s.pointer.d + s.modulo.c } } ∧
    stepY .back s = { s with pointer := { s.pointer with d := s.pointer.d - s.modulo.c } } ∧
    ∀ m, stepX m s =
      { s with shiftA := (stepX m s).shiftA, pointer := { s.pointer with d := (stepX m s).pointer.d } }

/-- R10 (d), R191: with modulos written through the register surface the error stays below 2^26 in every one of at
most 1024 steps, so a 32-bit error term never overflows and the model's exact one is the machine's. -/
def Obligations.ErrorTermNeverOverflows : Prop :=
  ∀ (s : State) (k : Nat), s.ModuloInv → k ≤ 1024 → (lineSteps k (lineStart s)).error.natAbs < 2 ^ 26

/-- R185 whole, for one step: the plot through the truth table with B all ones, the word read as the C input, and the
move by the sign of the seed. -/
def Obligations.OneStepLine : Prop :=
  ∀ s : State, s.LineReady → s.height = 1 → s.mem.wf = true →
    let c := wordAt s s.pointer.d
    let out := minterm (s.aData >>> s.shiftA.toNat) 0xFFFF#16 c s.control.minterms
    let diagonal := decide (0 ≤ (s.pointer.a.extractLsb' 0 16).toInt)
    let major : Int := if s.control.lineDirection.getLsbD 1 then -1 else 1
    let minor : Int := if diagonal then (if s.control.lineDirection.getLsbD 0 then -1 else 1) else 0
    let dx := if s.control.lineDirection.getLsbD 2 then major else minor
    let dy := if s.control.lineDirection.getLsbD 2 then minor else major
    ∃ t, exec .advance s = .next t ∧ t.cData = c ∧ t.notZeroFlag = (out != 0x0000#16) ∧ t.height = 0 ∧
      (∀ q : Ptr, wordAt t q = if cellOf s.platform q = cellOf s.platform s.pointer.d then out else wordAt s q) ∧
      pixelPosition t =
        pixelPosition s + BitVec.ofInt 36 dx + ((BitVec.ofInt 32 dy * s.modulo.c) ++ 0#4)

/-- R191, R192, R193: Bresenham. With the classical set-up for a line of major extent `M` and minor extent `m`
(any positive multiple `f` of it), after `k` steps the line has taken `k` major steps and the rounded `k·m/M` minor
steps: the pixel position is the start moved by those, in all eight octants; and an `ADVANCE` ends there after
`height` steps. -/
def Obligations.LineFollowsIdealLine : Prop :=
  ∀ (s t : State) (f m M : Int), s.LineReady → exec .advance s = .next t → 0 < f → 0 ≤ m → m ≤ M → 0 < M →
    errorSeed s = f * (2 * m - M) → s.modulo.b.toInt = f * (2 * m) → s.modulo.a.toInt = f * (2 * m - 2 * M) →
    let majorSign : Int := if s.control.lineDirection.getLsbD 1 then -1 else 1
    let minorSign : Int := if s.control.lineDirection.getLsbD 0 then -1 else 1
    let major (k : Nat) : Int := majorSign * k
    let minor (k : Nat) : Int := minorSign * ((2 * m * k + M) / (2 * M))
    let dx (k : Nat) := if s.control.lineDirection.getLsbD 2 then major k else minor k
    let dy (k : Nat) := if s.control.lineDirection.getLsbD 2 then minor k else major k
    let position (k : Nat) :=
      pixelPosition s + BitVec.ofInt 36 (dx k) + ((BitVec.ofInt 32 (dy k) * s.modulo.c) ++ 0#4)
    (∀ k, pixelPosition (lineSteps k (lineStart s)).st = position k) ∧ pixelPosition t = position s.height

/-- R188, R185, R10, R24: two states ready for a line that agree on what a line reads make the same accesses with the
same words and end with the same memory, position, latch and flag, whatever their enables, masks, width, fill fields,
sign bit, shift B, accumulators, other pointers and D modulo are. -/
def Obligations.LineIgnoresOtherRegisters : Prop :=
  ∀ s₁ s₂ t₁ t₂ : State, s₁.LineReady → s₂.LineReady →
    s₁.height = s₂.height → s₁.aData = s₂.aData → s₁.shiftA = s₂.shiftA → s₁.pointer.d = s₂.pointer.d →
    s₁.pointer.a.extractLsb' 0 16 = s₂.pointer.a.extractLsb' 0 16 →
    s₁.modulo.a = s₂.modulo.a → s₁.modulo.b = s₂.modulo.b → s₁.modulo.c = s₂.modulo.c →
    s₁.control.minterms = s₂.control.minterms → s₁.control.lineDirection = s₂.control.lineDirection →
    s₁.control.oneDot = s₂.control.oneDot → s₁.mem = s₂.mem → s₁.platform = s₂.platform →
    s₁.accesses = s₂.accesses → exec .advance s₁ = .next t₁ → exec .advance s₂ = .next t₂ →
    t₁.mem = t₂.mem ∧ t₁.accesses = t₂.accesses ∧ t₁.pointer.d = t₂.pointer.d ∧ t₁.shiftA = t₂.shiftA ∧
    t₁.cData = t₂.cData ∧ t₁.notZeroFlag = t₂.notZeroFlag

/-! ### The flag -/

/-- R170: in every column, whatever channel D's enable, the output word after the fill is or-ed into the flag, so the
flag becomes 1 at the first column whose word is not 0x0000 and stays 1; and at the end of the transfer it is 1 exactly
when some column's word was not 0x0000. -/
def Obligations.FlagCollectsEveryColumn : Prop :=
  (∀ (x : Nat) (r : RowRun), (rectColumn x r).st.notZeroFlag =
    (r.st.notZeroFlag || (columnOut x r).1 != 0x0000#16)) ∧
  ∀ s : State, s.RectReady → (s.control.enables.d = true → s.mem.wf = true) →
    ∃ t, exec .advance s = .next t ∧
      (t.notZeroFlag = true ↔
        ∃ n, n < s.height * s.control.width ∧ (rectCourse s (n + 1)).out ≠ 0x0000#16)
end

