-- ==== Sys2Proof/Laws/State.lean ====
section
/-! SUPPORT. One lemma per field per named update of State, so that no later proof unfolds a record update. -/

namespace Sys2Proof.Machine

/-! `logAccess` -/

@[simp] theorem logAccess_control (x : Access) (s : State) : (logAccess x s).control = s.control := rfl
@[simp] theorem logAccess_shiftA (x : Access) (s : State) : (logAccess x s).shiftA = s.shiftA := rfl
@[simp] theorem logAccess_shiftB (x : Access) (s : State) : (logAccess x s).shiftB = s.shiftB := rfl
@[simp] theorem logAccess_height (x : Access) (s : State) : (logAccess x s).height = s.height := rfl
@[simp] theorem logAccess_pointer (x : Access) (s : State) : (logAccess x s).pointer = s.pointer := rfl
@[simp] theorem logAccess_modulo (x : Access) (s : State) : (logAccess x s).modulo = s.modulo := rfl
@[simp] theorem logAccess_aData (x : Access) (s : State) : (logAccess x s).aData = s.aData := rfl
@[simp] theorem logAccess_bData (x : Access) (s : State) : (logAccess x s).bData = s.bData := rfl
@[simp] theorem logAccess_cData (x : Access) (s : State) : (logAccess x s).cData = s.cData := rfl
@[simp] theorem logAccess_notZeroFlag (x : Access) (s : State) : (logAccess x s).notZeroFlag = s.notZeroFlag := rfl
@[simp] theorem logAccess_aAcc (x : Access) (s : State) : (logAccess x s).aAcc = s.aAcc := rfl
@[simp] theorem logAccess_bAcc (x : Access) (s : State) : (logAccess x s).bAcc = s.bAcc := rfl
@[simp] theorem logAccess_fault (x : Access) (s : State) : (logAccess x s).fault = s.fault := rfl
@[simp] theorem logAccess_mem (x : Access) (s : State) : (logAccess x s).mem = s.mem := rfl
@[simp] theorem logAccess_interrupts (x : Access) (s : State) : (logAccess x s).interrupts = s.interrupts := rfl
@[simp] theorem logAccess_responses (x : Access) (s : State) : (logAccess x s).responses = s.responses := rfl
@[simp] theorem logAccess_accesses (x : Access) (s : State) : (logAccess x s).accesses = x :: s.accesses := rfl
@[simp] theorem logAccess_inputs (x : Access) (s : State) : (logAccess x s).inputs = s.inputs := rfl
@[simp] theorem logAccess_platform (x : Access) (s : State) : (logAccess x s).platform = s.platform := rfl

/-! `hostStore` -/

@[simp] theorem hostStore_control (p : Ptr) (v : Word) (s : State) : (hostStore p v s).control = s.control := rfl
@[simp] theorem hostStore_shiftA (p : Ptr) (v : Word) (s : State) : (hostStore p v s).shiftA = s.shiftA := rfl
@[simp] theorem hostStore_shiftB (p : Ptr) (v : Word) (s : State) : (hostStore p v s).shiftB = s.shiftB := rfl
@[simp] theorem hostStore_height (p : Ptr) (v : Word) (s : State) : (hostStore p v s).height = s.height := rfl
@[simp] theorem hostStore_pointer (p : Ptr) (v : Word) (s : State) : (hostStore p v s).pointer = s.pointer := rfl
@[simp] theorem hostStore_modulo (p : Ptr) (v : Word) (s : State) : (hostStore p v s).modulo = s.modulo := rfl
@[simp] theorem hostStore_aData (p : Ptr) (v : Word) (s : State) : (hostStore p v s).aData = s.aData := rfl
@[simp] theorem hostStore_bData (p : Ptr) (v : Word) (s : State) : (hostStore p v s).bData = s.bData := rfl
@[simp] theorem hostStore_cData (p : Ptr) (v : Word) (s : State) : (hostStore p v s).cData = s.cData := rfl
@[simp] theorem hostStore_notZeroFlag (p : Ptr) (v : Word) (s : State) : (hostStore p v s).notZeroFlag = s.notZeroFlag := rfl
@[simp] theorem hostStore_aAcc (p : Ptr) (v : Word) (s : State) : (hostStore p v s).aAcc = s.aAcc := rfl
@[simp] theorem hostStore_bAcc (p : Ptr) (v : Word) (s : State) : (hostStore p v s).bAcc = s.bAcc := rfl
@[simp] theorem hostStore_fault (p : Ptr) (v : Word) (s : State) : (hostStore p v s).fault = s.fault := rfl
@[simp] theorem hostStore_mem (p : Ptr) (v : Word) (s : State) : (hostStore p v s).mem = writeCell s.platform s.mem (cellOf s.platform p) v := rfl
@[simp] theorem hostStore_interrupts (p : Ptr) (v : Word) (s : State) : (hostStore p v s).interrupts = s.interrupts := rfl
@[simp] theorem hostStore_responses (p : Ptr) (v : Word) (s : State) : (hostStore p v s).responses = s.responses := rfl
@[simp] theorem hostStore_accesses (p : Ptr) (v : Word) (s : State) : (hostStore p v s).accesses = s.accesses := rfl
@[simp] theorem hostStore_inputs (p : Ptr) (v : Word) (s : State) : (hostStore p v s).inputs = s.inputs := rfl
@[simp] theorem hostStore_platform (p : Ptr) (v : Word) (s : State) : (hostStore p v s).platform = s.platform := rfl

/-! `memWrite` -/

@[simp] theorem memWrite_control (p : Ptr) (v : Word) (s : State) : (memWrite p v s).control = s.control := rfl
@[simp] theorem memWrite_shiftA (p : Ptr) (v : Word) (s : State) : (memWrite p v s).shiftA = s.shiftA := rfl
@[simp] theorem memWrite_shiftB (p : Ptr) (v : Word) (s : State) : (memWrite p v s).shiftB = s.shiftB := rfl
@[simp] theorem memWrite_height (p : Ptr) (v : Word) (s : State) : (memWrite p v s).height = s.height := rfl
@[simp] theorem memWrite_pointer (p : Ptr) (v : Word) (s : State) : (memWrite p v s).pointer = s.pointer := rfl
@[simp] theorem memWrite_modulo (p : Ptr) (v : Word) (s : State) : (memWrite p v s).modulo = s.modulo := rfl
@[simp] theorem memWrite_aData (p : Ptr) (v : Word) (s : State) : (memWrite p v s).aData = s.aData := rfl
@[simp] theorem memWrite_bData (p : Ptr) (v : Word) (s : State) : (memWrite p v s).bData = s.bData := rfl
@[simp] theorem memWrite_cData (p : Ptr) (v : Word) (s : State) : (memWrite p v s).cData = s.cData := rfl
@[simp] theorem memWrite_notZeroFlag (p : Ptr) (v : Word) (s : State) : (memWrite p v s).notZeroFlag = s.notZeroFlag := rfl
@[simp] theorem memWrite_aAcc (p : Ptr) (v : Word) (s : State) : (memWrite p v s).aAcc = s.aAcc := rfl
@[simp] theorem memWrite_bAcc (p : Ptr) (v : Word) (s : State) : (memWrite p v s).bAcc = s.bAcc := rfl
@[simp] theorem memWrite_fault (p : Ptr) (v : Word) (s : State) : (memWrite p v s).fault = s.fault := rfl
@[simp] theorem memWrite_mem (p : Ptr) (v : Word) (s : State) : (memWrite p v s).mem = writeCell s.platform s.mem (cellOf s.platform p) v := rfl
@[simp] theorem memWrite_interrupts (p : Ptr) (v : Word) (s : State) : (memWrite p v s).interrupts = s.interrupts := rfl
@[simp] theorem memWrite_responses (p : Ptr) (v : Word) (s : State) : (memWrite p v s).responses = s.responses := rfl
@[simp] theorem memWrite_accesses (p : Ptr) (v : Word) (s : State) : (memWrite p v s).accesses = .write (cellOf s.platform p) v :: s.accesses := rfl
@[simp] theorem memWrite_inputs (p : Ptr) (v : Word) (s : State) : (memWrite p v s).inputs = s.inputs := rfl
@[simp] theorem memWrite_platform (p : Ptr) (v : Word) (s : State) : (memWrite p v s).platform = s.platform := rfl

/-! `setPointer` -/

@[simp] theorem setPointer_control (ch : Channel) (p : Ptr) (s : State) : (setPointer ch p s).control = s.control := rfl
@[simp] theorem setPointer_shiftA (ch : Channel) (p : Ptr) (s : State) : (setPointer ch p s).shiftA = s.shiftA := rfl
@[simp] theorem setPointer_shiftB (ch : Channel) (p : Ptr) (s : State) : (setPointer ch p s).shiftB = s.shiftB := rfl
@[simp] theorem setPointer_height (ch : Channel) (p : Ptr) (s : State) : (setPointer ch p s).height = s.height := rfl
@[simp] theorem setPointer_pointer (ch : Channel) (p : Ptr) (s : State) : (setPointer ch p s).pointer = s.pointer.set ch p := rfl
@[simp] theorem setPointer_modulo (ch : Channel) (p : Ptr) (s : State) : (setPointer ch p s).modulo = s.modulo := rfl
@[simp] theorem setPointer_aData (ch : Channel) (p : Ptr) (s : State) : (setPointer ch p s).aData = s.aData := rfl
@[simp] theorem setPointer_bData (ch : Channel) (p : Ptr) (s : State) : (setPointer ch p s).bData = s.bData := rfl
@[simp] theorem setPointer_cData (ch : Channel) (p : Ptr) (s : State) : (setPointer ch p s).cData = s.cData := rfl
@[simp] theorem setPointer_notZeroFlag (ch : Channel) (p : Ptr) (s : State) : (setPointer ch p s).notZeroFlag = s.notZeroFlag := rfl
@[simp] theorem setPointer_aAcc (ch : Channel) (p : Ptr) (s : State) : (setPointer ch p s).aAcc = s.aAcc := rfl
@[simp] theorem setPointer_bAcc (ch : Channel) (p : Ptr) (s : State) : (setPointer ch p s).bAcc = s.bAcc := rfl
@[simp] theorem setPointer_fault (ch : Channel) (p : Ptr) (s : State) : (setPointer ch p s).fault = s.fault := rfl
@[simp] theorem setPointer_mem (ch : Channel) (p : Ptr) (s : State) : (setPointer ch p s).mem = s.mem := rfl
@[simp] theorem setPointer_interrupts (ch : Channel) (p : Ptr) (s : State) : (setPointer ch p s).interrupts = s.interrupts := rfl
@[simp] theorem setPointer_responses (ch : Channel) (p : Ptr) (s : State) : (setPointer ch p s).responses = s.responses := rfl
@[simp] theorem setPointer_accesses (ch : Channel) (p : Ptr) (s : State) : (setPointer ch p s).accesses = s.accesses := rfl
@[simp] theorem setPointer_inputs (ch : Channel) (p : Ptr) (s : State) : (setPointer ch p s).inputs = s.inputs := rfl
@[simp] theorem setPointer_platform (ch : Channel) (p : Ptr) (s : State) : (setPointer ch p s).platform = s.platform := rfl

/-! `setModulo` -/

@[simp] theorem setModulo_control (ch : Channel) (p : Ptr) (s : State) : (setModulo ch p s).control = s.control := rfl
@[simp] theorem setModulo_shiftA (ch : Channel) (p : Ptr) (s : State) : (setModulo ch p s).shiftA = s.shiftA := rfl
@[simp] theorem setModulo_shiftB (ch : Channel) (p : Ptr) (s : State) : (setModulo ch p s).shiftB = s.shiftB := rfl
@[simp] theorem setModulo_height (ch : Channel) (p : Ptr) (s : State) : (setModulo ch p s).height = s.height := rfl
@[simp] theorem setModulo_pointer (ch : Channel) (p : Ptr) (s : State) : (setModulo ch p s).pointer = s.pointer := rfl
@[simp] theorem setModulo_modulo (ch : Channel) (p : Ptr) (s : State) : (setModulo ch p s).modulo = s.modulo.set ch p := rfl
@[simp] theorem setModulo_aData (ch : Channel) (p : Ptr) (s : State) : (setModulo ch p s).aData = s.aData := rfl
@[simp] theorem setModulo_bData (ch : Channel) (p : Ptr) (s : State) : (setModulo ch p s).bData = s.bData := rfl
@[simp] theorem setModulo_cData (ch : Channel) (p : Ptr) (s : State) : (setModulo ch p s).cData = s.cData := rfl
@[simp] theorem setModulo_notZeroFlag (ch : Channel) (p : Ptr) (s : State) : (setModulo ch p s).notZeroFlag = s.notZeroFlag := rfl
@[simp] theorem setModulo_aAcc (ch : Channel) (p : Ptr) (s : State) : (setModulo ch p s).aAcc = s.aAcc := rfl
@[simp] theorem setModulo_bAcc (ch : Channel) (p : Ptr) (s : State) : (setModulo ch p s).bAcc = s.bAcc := rfl
@[simp] theorem setModulo_fault (ch : Channel) (p : Ptr) (s : State) : (setModulo ch p s).fault = s.fault := rfl
@[simp] theorem setModulo_mem (ch : Channel) (p : Ptr) (s : State) : (setModulo ch p s).mem = s.mem := rfl
@[simp] theorem setModulo_interrupts (ch : Channel) (p : Ptr) (s : State) : (setModulo ch p s).interrupts = s.interrupts := rfl
@[simp] theorem setModulo_responses (ch : Channel) (p : Ptr) (s : State) : (setModulo ch p s).responses = s.responses := rfl
@[simp] theorem setModulo_accesses (ch : Channel) (p : Ptr) (s : State) : (setModulo ch p s).accesses = s.accesses := rfl
@[simp] theorem setModulo_inputs (ch : Channel) (p : Ptr) (s : State) : (setModulo ch p s).inputs = s.inputs := rfl
@[simp] theorem setModulo_platform (ch : Channel) (p : Ptr) (s : State) : (setModulo ch p s).platform = s.platform := rfl

/-! `clearNotZero` -/

@[simp] theorem clearNotZero_control (s : State) : (clearNotZero s).control = s.control := rfl
@[simp] theorem clearNotZero_shiftA (s : State) : (clearNotZero s).shiftA = s.shiftA := rfl
@[simp] theorem clearNotZero_shiftB (s : State) : (clearNotZero s).shiftB = s.shiftB := rfl
@[simp] theorem clearNotZero_height (s : State) : (clearNotZero s).height = s.height := rfl
@[simp] theorem clearNotZero_pointer (s : State) : (clearNotZero s).pointer = s.pointer := rfl
@[simp] theorem clearNotZero_modulo (s : State) : (clearNotZero s).modulo = s.modulo := rfl
@[simp] theorem clearNotZero_aData (s : State) : (clearNotZero s).aData = s.aData := rfl
@[simp] theorem clearNotZero_bData (s : State) : (clearNotZero s).bData = s.bData := rfl
@[simp] theorem clearNotZero_cData (s : State) : (clearNotZero s).cData = s.cData := rfl
@[simp] theorem clearNotZero_notZeroFlag (s : State) : (clearNotZero s).notZeroFlag = false := rfl
@[simp] theorem clearNotZero_aAcc (s : State) : (clearNotZero s).aAcc = s.aAcc := rfl
@[simp] theorem clearNotZero_bAcc (s : State) : (clearNotZero s).bAcc = s.bAcc := rfl
@[simp] theorem clearNotZero_fault (s : State) : (clearNotZero s).fault = s.fault := rfl
@[simp] theorem clearNotZero_mem (s : State) : (clearNotZero s).mem = s.mem := rfl
@[simp] theorem clearNotZero_interrupts (s : State) : (clearNotZero s).interrupts = s.interrupts := rfl
@[simp] theorem clearNotZero_responses (s : State) : (clearNotZero s).responses = s.responses := rfl
@[simp] theorem clearNotZero_accesses (s : State) : (clearNotZero s).accesses = s.accesses := rfl
@[simp] theorem clearNotZero_inputs (s : State) : (clearNotZero s).inputs = s.inputs := rfl
@[simp] theorem clearNotZero_platform (s : State) : (clearNotZero s).platform = s.platform := rfl

/-! `noteOutput` -/

@[simp] theorem noteOutput_control (v : Word) (s : State) : (noteOutput v s).control = s.control := rfl
@[simp] theorem noteOutput_shiftA (v : Word) (s : State) : (noteOutput v s).shiftA = s.shiftA := rfl
@[simp] theorem noteOutput_shiftB (v : Word) (s : State) : (noteOutput v s).shiftB = s.shiftB := rfl
@[simp] theorem noteOutput_height (v : Word) (s : State) : (noteOutput v s).height = s.height := rfl
@[simp] theorem noteOutput_pointer (v : Word) (s : State) : (noteOutput v s).pointer = s.pointer := rfl
@[simp] theorem noteOutput_modulo (v : Word) (s : State) : (noteOutput v s).modulo = s.modulo := rfl
@[simp] theorem noteOutput_aData (v : Word) (s : State) : (noteOutput v s).aData = s.aData := rfl
@[simp] theorem noteOutput_bData (v : Word) (s : State) : (noteOutput v s).bData = s.bData := rfl
@[simp] theorem noteOutput_cData (v : Word) (s : State) : (noteOutput v s).cData = s.cData := rfl
@[simp] theorem noteOutput_notZeroFlag (v : Word) (s : State) : (noteOutput v s).notZeroFlag = (s.notZeroFlag || v != 0x0000#16) := rfl
@[simp] theorem noteOutput_aAcc (v : Word) (s : State) : (noteOutput v s).aAcc = s.aAcc := rfl
@[simp] theorem noteOutput_bAcc (v : Word) (s : State) : (noteOutput v s).bAcc = s.bAcc := rfl
@[simp] theorem noteOutput_fault (v : Word) (s : State) : (noteOutput v s).fault = s.fault := rfl
@[simp] theorem noteOutput_mem (v : Word) (s : State) : (noteOutput v s).mem = s.mem := rfl
@[simp] theorem noteOutput_interrupts (v : Word) (s : State) : (noteOutput v s).interrupts = s.interrupts := rfl
@[simp] theorem noteOutput_responses (v : Word) (s : State) : (noteOutput v s).responses = s.responses := rfl
@[simp] theorem noteOutput_accesses (v : Word) (s : State) : (noteOutput v s).accesses = s.accesses := rfl
@[simp] theorem noteOutput_inputs (v : Word) (s : State) : (noteOutput v s).inputs = s.inputs := rfl
@[simp] theorem noteOutput_platform (v : Word) (s : State) : (noteOutput v s).platform = s.platform := rfl

/-! `accumulate` -/

@[simp] theorem accumulate_control (x : Nat) (s : State) : (accumulate x s).control = s.control := rfl
@[simp] theorem accumulate_shiftA (x : Nat) (s : State) : (accumulate x s).shiftA = s.shiftA := rfl
@[simp] theorem accumulate_shiftB (x : Nat) (s : State) : (accumulate x s).shiftB = s.shiftB := rfl
@[simp] theorem accumulate_height (x : Nat) (s : State) : (accumulate x s).height = s.height := rfl
@[simp] theorem accumulate_pointer (x : Nat) (s : State) : (accumulate x s).pointer = s.pointer := rfl
@[simp] theorem accumulate_modulo (x : Nat) (s : State) : (accumulate x s).modulo = s.modulo := rfl
@[simp] theorem accumulate_aData (x : Nat) (s : State) : (accumulate x s).aData = s.aData := rfl
@[simp] theorem accumulate_bData (x : Nat) (s : State) : (accumulate x s).bData = s.bData := rfl
@[simp] theorem accumulate_cData (x : Nat) (s : State) : (accumulate x s).cData = s.cData := rfl
@[simp] theorem accumulate_notZeroFlag (x : Nat) (s : State) : (accumulate x s).notZeroFlag = s.notZeroFlag := rfl
@[simp] theorem accumulate_aAcc (x : Nat) (s : State) : (accumulate x s).aAcc = shiftIn s.aAcc (s.aData &&& colMask s.control x) := rfl
@[simp] theorem accumulate_bAcc (x : Nat) (s : State) : (accumulate x s).bAcc = shiftIn s.bAcc s.bData := rfl
@[simp] theorem accumulate_fault (x : Nat) (s : State) : (accumulate x s).fault = s.fault := rfl
@[simp] theorem accumulate_mem (x : Nat) (s : State) : (accumulate x s).mem = s.mem := rfl
@[simp] theorem accumulate_interrupts (x : Nat) (s : State) : (accumulate x s).interrupts = s.interrupts := rfl
@[simp] theorem accumulate_responses (x : Nat) (s : State) : (accumulate x s).responses = s.responses := rfl
@[simp] theorem accumulate_accesses (x : Nat) (s : State) : (accumulate x s).accesses = s.accesses := rfl
@[simp] theorem accumulate_inputs (x : Nat) (s : State) : (accumulate x s).inputs = s.inputs := rfl
@[simp] theorem accumulate_platform (x : Nat) (s : State) : (accumulate x s).platform = s.platform := rfl

/-! `postInterrupt` -/

@[simp] theorem postInterrupt_control (s : State) : (postInterrupt s).control = s.control := rfl
@[simp] theorem postInterrupt_shiftA (s : State) : (postInterrupt s).shiftA = s.shiftA := rfl
@[simp] theorem postInterrupt_shiftB (s : State) : (postInterrupt s).shiftB = s.shiftB := rfl
@[simp] theorem postInterrupt_height (s : State) : (postInterrupt s).height = s.height := rfl
@[simp] theorem postInterrupt_pointer (s : State) : (postInterrupt s).pointer = s.pointer := rfl
@[simp] theorem postInterrupt_modulo (s : State) : (postInterrupt s).modulo = s.modulo := rfl
@[simp] theorem postInterrupt_aData (s : State) : (postInterrupt s).aData = s.aData := rfl
@[simp] theorem postInterrupt_bData (s : State) : (postInterrupt s).bData = s.bData := rfl
@[simp] theorem postInterrupt_cData (s : State) : (postInterrupt s).cData = s.cData := rfl
@[simp] theorem postInterrupt_notZeroFlag (s : State) : (postInterrupt s).notZeroFlag = s.notZeroFlag := rfl
@[simp] theorem postInterrupt_aAcc (s : State) : (postInterrupt s).aAcc = s.aAcc := rfl
@[simp] theorem postInterrupt_bAcc (s : State) : (postInterrupt s).bAcc = s.bAcc := rfl
@[simp] theorem postInterrupt_fault (s : State) : (postInterrupt s).fault = s.fault := rfl
@[simp] theorem postInterrupt_mem (s : State) : (postInterrupt s).mem = s.mem := rfl
@[simp] theorem postInterrupt_interrupts (s : State) : (postInterrupt s).interrupts = s.platform.irqBlitter :: s.interrupts := rfl
@[simp] theorem postInterrupt_responses (s : State) : (postInterrupt s).responses = s.responses := rfl
@[simp] theorem postInterrupt_accesses (s : State) : (postInterrupt s).accesses = s.accesses := rfl
@[simp] theorem postInterrupt_inputs (s : State) : (postInterrupt s).inputs = s.inputs := rfl
@[simp] theorem postInterrupt_platform (s : State) : (postInterrupt s).platform = s.platform := rfl

/-! `respond` -/

@[simp] theorem respond_control (r : Response) (s : State) : (respond r s).control = s.control := rfl
@[simp] theorem respond_shiftA (r : Response) (s : State) : (respond r s).shiftA = s.shiftA := rfl
@[simp] theorem respond_shiftB (r : Response) (s : State) : (respond r s).shiftB = s.shiftB := rfl
@[simp] theorem respond_height (r : Response) (s : State) : (respond r s).height = s.height := rfl
@[simp] theorem respond_pointer (r : Response) (s : State) : (respond r s).pointer = s.pointer := rfl
@[simp] theorem respond_modulo (r : Response) (s : State) : (respond r s).modulo = s.modulo := rfl
@[simp] theorem respond_aData (r : Response) (s : State) : (respond r s).aData = s.aData := rfl
@[simp] theorem respond_bData (r : Response) (s : State) : (respond r s).bData = s.bData := rfl
@[simp] theorem respond_cData (r : Response) (s : State) : (respond r s).cData = s.cData := rfl
@[simp] theorem respond_notZeroFlag (r : Response) (s : State) : (respond r s).notZeroFlag = s.notZeroFlag := rfl
@[simp] theorem respond_aAcc (r : Response) (s : State) : (respond r s).aAcc = s.aAcc := rfl
@[simp] theorem respond_bAcc (r : Response) (s : State) : (respond r s).bAcc = s.bAcc := rfl
@[simp] theorem respond_fault (r : Response) (s : State) : (respond r s).fault = s.fault := rfl
@[simp] theorem respond_mem (r : Response) (s : State) : (respond r s).mem = s.mem := rfl
@[simp] theorem respond_interrupts (r : Response) (s : State) : (respond r s).interrupts = s.interrupts := rfl
@[simp] theorem respond_responses (r : Response) (s : State) : (respond r s).responses = r :: s.responses := rfl
@[simp] theorem respond_accesses (r : Response) (s : State) : (respond r s).accesses = s.accesses := rfl
@[simp] theorem respond_inputs (r : Response) (s : State) : (respond r s).inputs = s.inputs := rfl
@[simp] theorem respond_platform (r : Response) (s : State) : (respond r s).platform = s.platform := rfl

/-! `rowEnd` -/

@[simp] theorem rowEnd_control (s : State) : (rowEnd s).control = s.control := rfl
@[simp] theorem rowEnd_shiftA (s : State) : (rowEnd s).shiftA = s.shiftA := rfl
@[simp] theorem rowEnd_shiftB (s : State) : (rowEnd s).shiftB = s.shiftB := rfl
@[simp] theorem rowEnd_height (s : State) : (rowEnd s).height = s.height := rfl
@[simp] theorem rowEnd_pointer (s : State) : (rowEnd s).pointer = ⟨rowPointer s .a, rowPointer s .b, rowPointer s .c, rowPointer s .d⟩ := rfl
@[simp] theorem rowEnd_modulo (s : State) : (rowEnd s).modulo = s.modulo := rfl
@[simp] theorem rowEnd_aData (s : State) : (rowEnd s).aData = s.aData := rfl
@[simp] theorem rowEnd_bData (s : State) : (rowEnd s).bData = s.bData := rfl
@[simp] theorem rowEnd_cData (s : State) : (rowEnd s).cData = s.cData := rfl
@[simp] theorem rowEnd_notZeroFlag (s : State) : (rowEnd s).notZeroFlag = s.notZeroFlag := rfl
@[simp] theorem rowEnd_aAcc (s : State) : (rowEnd s).aAcc = s.aAcc := rfl
@[simp] theorem rowEnd_bAcc (s : State) : (rowEnd s).bAcc = s.bAcc := rfl
@[simp] theorem rowEnd_fault (s : State) : (rowEnd s).fault = s.fault := rfl
@[simp] theorem rowEnd_mem (s : State) : (rowEnd s).mem = s.mem := rfl
@[simp] theorem rowEnd_interrupts (s : State) : (rowEnd s).interrupts = s.interrupts := rfl
@[simp] theorem rowEnd_responses (s : State) : (rowEnd s).responses = s.responses := rfl
@[simp] theorem rowEnd_accesses (s : State) : (rowEnd s).accesses = s.accesses := rfl
@[simp] theorem rowEnd_inputs (s : State) : (rowEnd s).inputs = s.inputs := rfl
@[simp] theorem rowEnd_platform (s : State) : (rowEnd s).platform = s.platform := rfl

/-! `PerChannel.get` and `PerChannel.set` -/

@[simp] theorem get_set_same {α : Type} (p : PerChannel α) (ch : Channel) (v : α) : (p.set ch v).get ch = v := by
  cases ch <;> rfl

theorem get_set_other {α : Type} (p : PerChannel α) (ch ch' : Channel) (v : α) (h : ch' ≠ ch) :
    (p.set ch v).get ch' = p.get ch' := by
  cases ch <;> cases ch' <;> first | rfl | exact absurd rfl h

theorem perChannel_ext {α : Type} (p q : PerChannel α) (h : ∀ ch, p.get ch = q.get ch) : p = q := by
  have ha := h .a
  have hb := h .b
  have hc := h .c
  have hd := h .d
  cases p
  cases q
  simp_all [PerChannel.get]

@[simp] theorem memRead_fst (p : Ptr) (s : State) : (memRead p s).1 = wordAt s p := rfl

@[simp] theorem memRead_snd (p : Ptr) (s : State) :
    (memRead p s).2 = logAccess (.read (cellOf s.platform p) (wordAt s p)) s := rfl

end Sys2Proof.Machine
end

