-- ==== Sys2Proof/Laws/Datapath.lean ====
section
/-! SUPPORT. The laws of the bit helpers, the accumulators, the barrel shifters, the minterm selector and the fill
(43_datapath.md, 41_fill.md). -/

namespace Sys2Proof.Machine

/-- Bit `i` of a word built from a bit function is the function's value there. -/
@[simp] theorem getLsbD_bitsFrom (f : Nat → Bool) (n i : Nat) :
    (bitsFrom f n).getLsbD i = (decide (i < n) && f i) := by
  induction n with
  | zero => simp [bitsFrom]
  | succ n ih =>
    rw [bitsFrom, BitVec.getLsbD_cons, ih]
    by_cases h : i = n
    · simp [h]
    · rw [if_neg h, decide_eq_decide.mpr (show i < n ↔ i < n + 1 by omega)]

/-- One position of the minterm selector (R154). -/
theorem getLsbD_minterm (A B C : Word) (T : BitVec 8) (i : Nat) :
    (minterm A B C T).getLsbD i =
      (decide (i < 16) && mintermBit T (A.getLsbD i) (B.getLsbD i) (C.getLsbD i)) := getLsbD_bitsFrom _ _ _

/-- A truth table gives its function bit by bit (R155): to prove a word equation of `minterm`, prove it of one bit. -/
theorem minterm_eq_of_bits (A B C R : Word) (T : BitVec 8)
    (h : ∀ i, i < 16 → mintermBit T (A.getLsbD i) (B.getLsbD i) (C.getLsbD i) = R.getLsbD i) :
    minterm A B C T = R := by
  apply BitVec.eq_of_getLsbD_eq
  intro i hi
  rw [getLsbD_minterm, decide_eq_true hi, Bool.true_and, h i hi]

/-- The new word in the low half, the old word in the high half (R151). -/
theorem shiftIn_eq_append (acc : Acc) (w : Word) : shiftIn acc w = acc.extractLsb' 0 16 ++ w := by
  apply BitVec.eq_of_getLsbD_eq
  intro i hi
  simp only [shiftIn, BitVec.getLsbD_or, BitVec.getLsbD_shiftLeft, BitVec.getLsbD_append,
    BitVec.getLsbD_extractLsb', BitVec.truncate_eq_setWidth, BitVec.getLsbD_setWidth]
  by_cases h : i < 16
  · simp [h, hi]
  · have h2 : w.getLsbD i = false := BitVec.getLsbD_of_ge _ _ (by omega)
    simp [h, hi, h2, show i - 16 < 16 by omega]

/-- The ascending shifter over previous and current word (R152). -/
theorem barrel_ascending (prev cur : Word) (sh : BitVec 4) :
    barrel false (prev ++ cur) sh =
      (if sh = 0#4 then cur else (cur >>> sh.toNat) ||| (prev <<< (16 - sh.toNat))) := by
  have hs : sh.toNat < 16 := sh.isLt
  apply BitVec.eq_of_getLsbD_eq
  intro i hi
  simp only [barrel, Bool.false_eq_true, if_false, BitVec.getLsbD_extractLsb', hi, decide_true, Bool.true_and,
    Nat.zero_add, BitVec.getLsbD_ushiftRight, BitVec.getLsbD_append]
  by_cases h : sh = 0#4
  · subst h
    simp only [BitVec.toNat_ofNat, Nat.zero_mod, Nat.zero_add, if_pos hi, if_true]
  · have h0 : sh.toNat ≠ 0 := fun e => h (BitVec.eq_of_toNat_eq e)
    rw [if_neg h]
    simp only [BitVec.getLsbD_or, BitVec.getLsbD_ushiftRight, BitVec.getLsbD_shiftLeft, hi, decide_true,
      Bool.true_and]
    by_cases hlt : sh.toNat + i < 16
    · simp [hlt, show i < 16 - sh.toNat by omega]
    · rw [if_neg hlt, BitVec.getLsbD_of_ge cur _ (by omega)]
      simp only [Bool.false_or, show ¬ i < 16 - sh.toNat by omega, decide_false, Bool.not_false, Bool.true_and]
      congr 1
      omega

/-- The descending shifter over previous and current word (R153). -/
theorem barrel_descending (prev cur : Word) (sh : BitVec 4) :
    barrel true (prev ++ cur) sh =
      (if sh = 0#4 then cur else (cur <<< sh.toNat) ||| (prev >>> (16 - sh.toNat))) := by
  have hs : sh.toNat < 16 := sh.isLt
  apply BitVec.eq_of_getLsbD_eq
  intro i hi
  simp only [barrel, if_true, BitVec.getLsbD_extractLsb', hi, decide_true, Bool.true_and, Nat.zero_add, rotl32]
  by_cases h : sh = 0#4
  · subst h
    simp only [BitVec.toNat_ofNat, Nat.zero_mod, if_true, BitVec.getLsbD_append, if_pos hi]
  · have h0 : sh.toNat ≠ 0 := fun e => h (BitVec.eq_of_toNat_eq e)
    rw [if_neg h0, if_neg h]
    simp only [BitVec.getLsbD_or, BitVec.getLsbD_ushiftRight, BitVec.getLsbD_shiftLeft, hi, decide_true,
      Bool.true_and, show i < 32 by omega, BitVec.getLsbD_append]
    rw [if_neg (show ¬ 32 - sh.toNat + i < 16 by omega), if_pos (show i - sh.toNat < 16 by omega)]
    congr 2
    omega

/-- Both shifters give 0 on an empty accumulator. -/
@[simp] theorem barrel_zero (d : Bool) (sh : BitVec 4) : barrel d 0#32 sh = 0#16 := by
  cases d <;> simp [barrel, rotl32]

/-- The packed tables are the nibble step (R131, R134). -/
theorem fillLookup_eq_fillNibble (mode : FillMode) (c : Bool) (n : BitVec 4) :
    fillLookup mode c n = fillNibble mode c n := by
  revert n
  cases mode <;> cases c <;> decide

/-- The bit step in closed form (R130). -/
theorem fillBit_inclusive (c b : Bool) : fillBit .inclusive c b = (c || b, c ^^ b) := by
  cases c <;> cases b <;> rfl

theorem fillBit_exclusive (c b : Bool) : fillBit .exclusive c b = (c ^^ b, c ^^ b) := by
  cases c <;> cases b <;> rfl

/-- The outgoing carry of the bit step does not depend on the mode (R132). -/
theorem fillBit_carry (mode : FillMode) (c b : Bool) : (fillBit mode c b).2 = (c ^^ b) := by
  cases mode
  · rw [fillBit_inclusive]
  · rw [fillBit_exclusive]

end Sys2Proof.Machine
end

