-- ==== Sys2Proof/Laws/Memory.lean ====
section
/-! SUPPORT. The laws of memory: read after write, frame, canonical form, and address formation
(20_memory.md R60 to R64). -/

namespace Sys2Proof.Machine

/-! ### Bytes -/

theorem read_insert_same (a : Nat) (b : Byte) (m : Memory) (h : m.read a = unlistedByte) :
    (Memory.insert a b m).read a = b := by
  unfold Memory.insert
  split
  · next hb => rw [h, hb]
  · simp [Memory.read]

theorem read_insert_other (a a' : Nat) (b : Byte) (m : Memory) (h : a' ≠ a) :
    (Memory.insert a b m).read a' = m.read a' := by
  unfold Memory.insert
  split
  · rfl
  · simp [Memory.read, Ne.symm h]

/-- A canonical memory lists nothing below its bound. -/
theorem read_below_bound (m : Memory) : ∀ lo a, Memory.wfFrom lo m = true → a < lo → m.read a = unlistedByte := by
  induction m with
  | nil => intros; rfl
  | cons e m ih =>
    intro lo a h ha
    obtain ⟨k, b⟩ := e
    simp only [Memory.wfFrom, Bool.and_eq_true, decide_eq_true_eq] at h
    have hk : k ≠ a := by omega
    simp only [Memory.read, if_neg hk]
    exact ih (k + 1) a h.2 (by omega)

theorem wfFrom_mono (m : Memory) (lo lo' : Nat) (h : Memory.wfFrom lo m = true) (hl : lo' ≤ lo) :
    Memory.wfFrom lo' m = true := by
  cases m with
  | nil => rfl
  | cons e m =>
    obtain ⟨k, b⟩ := e
    simp only [Memory.wfFrom, Bool.and_eq_true, decide_eq_true_eq] at h ⊢
    exact ⟨⟨by omega, h.1.2⟩, h.2⟩

theorem wfFrom_insert (m : Memory) (lo a : Nat) (b : Byte) (h : Memory.wfFrom (a + 1) m = true) (hl : lo ≤ a) :
    Memory.wfFrom lo (Memory.insert a b m) = true := by
  unfold Memory.insert
  split
  · exact wfFrom_mono m _ _ h (by omega)
  · next hb => simp [Memory.wfFrom, hl, hb, h]

theorem wfFrom_write (m : Memory) (a : Nat) (b : Byte) :
    ∀ lo, Memory.wfFrom lo m = true → lo ≤ a → Memory.wfFrom lo (m.write a b) = true := by
  induction m with
  | nil => intro lo _ hl; exact wfFrom_insert [] lo a b rfl hl
  | cons e m ih =>
    intro lo h hl
    obtain ⟨k, c⟩ := e
    have h' := h
    simp only [Memory.wfFrom, Bool.and_eq_true, decide_eq_true_eq] at h
    unfold Memory.write
    split
    · next hak =>
      refine wfFrom_insert _ lo a b ?_ hl
      simp only [Memory.wfFrom, Bool.and_eq_true, decide_eq_true_eq]
      exact ⟨⟨by omega, h.1.2⟩, h.2⟩
    · split
      · next hak => subst hak; exact wfFrom_insert m lo a b h.2 hl
      · simp only [Memory.wfFrom, Bool.and_eq_true, decide_eq_true_eq]
        exact ⟨h.1, ih (k + 1) h.2 (by omega)⟩

/-- Storing a byte keeps the canonical form. -/
theorem wf_write (m : Memory) (a : Nat) (b : Byte) (h : m.wf = true) : (m.write a b).wf = true :=
  wfFrom_write m a b 0 h (Nat.zero_le a)

theorem read_write_same_from (m : Memory) (a : Nat) (b : Byte) :
    ∀ lo, Memory.wfFrom lo m = true → (m.write a b).read a = b := by
  induction m with
  | nil => intro lo _; exact read_insert_same a b [] rfl
  | cons e m ih =>
    intro lo h
    obtain ⟨k, c⟩ := e
    simp only [Memory.wfFrom, Bool.and_eq_true, decide_eq_true_eq] at h
    unfold Memory.write
    split
    · next hak =>
      apply read_insert_same
      have hk : k ≠ a := by omega
      simp only [Memory.read, if_neg hk]
      exact read_below_bound m (k + 1) a h.2 (by omega)
    · split
      · next hak =>
        subst hak
        exact read_insert_same a b m (read_below_bound m (a + 1) a h.2 (by omega))
      · next h1 h2 =>
        have hk : k ≠ a := fun e => h2 e.symm
        simp only [Memory.read, if_neg hk]
        exact ih (k + 1) h.2

/-- A byte just stored reads back. -/
theorem read_write_same (m : Memory) (a : Nat) (b : Byte) (h : m.wf = true) : (m.write a b).read a = b :=
  read_write_same_from m a b 0 h

/-- Storing a byte leaves every other byte alone, in any memory. -/
theorem read_write_other (m : Memory) (a a' : Nat) (b : Byte) (h : a' ≠ a) :
    (m.write a b).read a' = m.read a' := by
  induction m with
  | nil => exact read_insert_other a a' b [] h
  | cons e m ih =>
    obtain ⟨k, c⟩ := e
    unfold Memory.write
    split
    · exact read_insert_other a a' b _ h
    · split
      · next hak =>
        subst hak
        rw [read_insert_other a a' b m h]
        simp [Memory.read, Ne.symm h]
      · simp only [Memory.read, ih]

theorem below_insert (m : Memory) (a n : Nat) (b : Byte) (h : m.below n = true) (ha : a < n) :
    (Memory.insert a b m).below n = true := by
  unfold Memory.insert
  split
  · exact h
  · simpa [Memory.below, ha] using h

/-- Storing a byte of an address below `n` keeps every listed address below `n`. -/
theorem below_write (m : Memory) (a n : Nat) (b : Byte) (h : m.below n = true) (ha : a < n) :
    (m.write a b).below n = true := by
  induction m with
  | nil => exact below_insert [] a n b h ha
  | cons e m ih =>
    obtain ⟨k, c⟩ := e
    have h' := h
    simp only [Memory.below, List.all_cons, Bool.and_eq_true] at h
    unfold Memory.write
    split
    · exact below_insert _ a n b h' ha
    · split
      · exact below_insert m a n b h.2 ha
      · simp only [Memory.below, List.all_cons, Bool.and_eq_true]
        exact ⟨h.1, ih h.2⟩

/-! ### Cells -/

theorem memWords_pos (pl : Platform) : 0 < memWords pl := Nat.two_pow_pos _

theorem memWords_le (pl : Platform) : memWords pl ≤ 2 ^ 32 := Nat.pow_le_pow_right (by decide) (by omega)

/-- Masking a pointer is reduction modulo `MEM_WORDS` (R10 (b), R61). -/
theorem cellOf_eq_mod (pl : Platform) (p : Ptr) : cellOf pl p = p.toNat % memWords pl := by
  have h := memWords_le pl
  have hp := memWords_pos pl
  unfold cellOf addrMask
  rw [BitVec.toNat_and, BitVec.toNat_ofNat, Nat.mod_eq_of_lt (by omega)]
  exact Nat.and_two_pow_sub_one_eq_mod p.toNat pl.memBits.val

/-- Every cell an access selects is below `MEM_WORDS` (R47). -/
theorem cellOf_lt (pl : Platform) (p : Ptr) : cellOf pl p < memWords pl := by
  rw [cellOf_eq_mod]
  exact Nat.mod_lt _ (memWords_pos pl)

theorem hiAddr_div (pl : Platform) (c : Nat) : hiAddr pl c / 2 = c := by
  unfold hiAddr
  split <;> omega

theorem loAddr_div (pl : Platform) (c : Nat) : loAddr pl c / 2 = c := by
  unfold loAddr
  split <;> omega

theorem hiAddr_ne_loAddr (pl : Platform) (c : Nat) : hiAddr pl c ≠ loAddr pl c := by
  unfold hiAddr loAddr
  split <;> omega

/-- A word store leaves every byte outside its cell alone. -/
theorem read_writeCell_other (pl : Platform) (m : Memory) (c : Nat) (v : Word) (a : Nat) (h : a / 2 ≠ c) :
    (writeCell pl m c v).read a = m.read a := by
  have hh : a ≠ hiAddr pl c := fun e => h (by rw [e, hiAddr_div])
  have hl : a ≠ loAddr pl c := fun e => h (by rw [e, loAddr_div])
  unfold writeCell
  rw [read_write_other _ _ _ _ hl, read_write_other _ _ _ _ hh]

/-- A word store keeps the canonical form. -/
theorem wf_writeCell (pl : Platform) (m : Memory) (c : Nat) (v : Word) (h : m.wf = true) :
    (writeCell pl m c v).wf = true :=
  wf_write _ _ _ (wf_write _ _ _ h)

/-- A word store into a cell below `MEM_WORDS` keeps the listed bytes in range. -/
theorem below_writeCell (pl : Platform) (m : Memory) (c n : Nat) (v : Word) (h : m.below (2 * n) = true)
    (hc : c < n) : (writeCell pl m c v).below (2 * n) = true := by
  have hh := hiAddr_div pl c
  have hl := loAddr_div pl c
  exact below_write _ _ _ _ (below_write _ _ _ _ h (by omega)) (by omega)

theorem halves_append (v : Word) : v.extractLsb' 8 8 ++ v.extractLsb' 0 8 = v := by
  ext i hi
  simp only [BitVec.getElem_append, BitVec.getElem_extractLsb']
  split
  · simp [BitVec.getLsbD_eq_getElem hi]
  · rw [show 8 + (i - 8) = i by omega, BitVec.getLsbD_eq_getElem hi]

/-- A word just stored reads back, in either byte order (R64). -/
theorem readCell_writeCell_same (pl : Platform) (m : Memory) (c : Nat) (v : Word) (h : m.wf = true) :
    readCell pl (writeCell pl m c v) c = v := by
  unfold readCell writeCell
  rw [read_write_other _ _ _ _ (hiAddr_ne_loAddr pl c), read_write_same _ _ _ h,
    read_write_same _ _ _ (wf_write _ _ _ h)]
  exact halves_append v

/-- A word store leaves every other cell alone. -/
theorem readCell_writeCell_other (pl : Platform) (m : Memory) (c c' : Nat) (v : Word) (h : c' ≠ c) :
    readCell pl (writeCell pl m c v) c' = readCell pl m c' := by
  unfold readCell
  rw [read_writeCell_other pl m c v _ (by rw [hiAddr_div]; exact h),
    read_writeCell_other pl m c v _ (by rw [loAddr_div]; exact h)]

/-- Read after write of a word (R62, R64). -/
theorem readCell_writeCell (pl : Platform) (m : Memory) (c c' : Nat) (v : Word) (h : m.wf = true) :
    readCell pl (writeCell pl m c v) c' = if c' = c then v else readCell pl m c' := by
  split
  · next e => rw [e]; exact readCell_writeCell_same pl m c v h
  · next e => exact readCell_writeCell_other pl m c c' v e

end Sys2Proof.Machine
end

