-- ==== Sys2Proof/Laws/Line.lean ====
section
/-! SUPPORT. What a line transfer can do, said once: what a plot and a move change, the induction over steps, and its
consequences for the position, memory, the record of accesses, the flag and the error term (45_line_draw.md). -/

namespace Sys2Proof.Machine

/-- What no line transfer writes (R20, R143, R195). -/
structure LineKeeps (s t : State) : Prop where
  control : t.control = s.control
  modulo : t.modulo = s.modulo
  shiftB : t.shiftB = s.shiftB
  height : t.height = s.height
  aData : t.aData = s.aData
  bData : t.bData = s.bData
  aAcc : t.aAcc = s.aAcc
  bAcc : t.bAcc = s.bAcc
  pointerA : t.pointer.a = s.pointer.a
  pointerB : t.pointer.b = s.pointer.b
  pointerC : t.pointer.c = s.pointer.c
  fault : t.fault = s.fault
  interrupts : t.interrupts = s.interrupts
  responses : t.responses = s.responses
  inputs : t.inputs = s.inputs
  platform : t.platform = s.platform

theorem LineKeeps.refl (s : State) : LineKeeps s s := by constructor <;> rfl

theorem LineKeeps.trans {s t u : State} (h : LineKeeps s t) (h' : LineKeeps t u) : LineKeeps s u := by
  constructor
  · rw [h'.control, h.control]
  · rw [h'.modulo, h.modulo]
  · rw [h'.shiftB, h.shiftB]
  · rw [h'.height, h.height]
  · rw [h'.aData, h.aData]
  · rw [h'.bData, h.bData]
  · rw [h'.aAcc, h.aAcc]
  · rw [h'.bAcc, h.bAcc]
  · rw [h'.pointerA, h.pointerA]
  · rw [h'.pointerB, h.pointerB]
  · rw [h'.pointerC, h.pointerC]
  · rw [h'.fault, h.fault]
  · rw [h'.interrupts, h.interrupts]
  · rw [h'.responses, h.responses]
  · rw [h'.inputs, h.inputs]
  · rw [h'.platform, h.platform]

/-! ### The induction over steps -/

/-- A relation that every step respects holds across any number of them. -/
theorem lineSteps_rel (R : LineRun → LineRun → Prop) (refl : ∀ r, R r r)
    (trans : ∀ r r' r'', R r r' → R r' r'' → R r r'') (step : ∀ r, R r (lineStep r)) :
    ∀ n r, R r (lineSteps n r) := by
  intro n
  induction n with
  | zero => intro r; exact refl r
  | succ n ih => intro r; exact trans _ _ _ (step r) (ih (lineStep r))

/-- Two lines that a relation ties together stay tied. -/
theorem lineSteps_sim (S : LineRun → LineRun → Prop) (step : ∀ r₁ r₂, S r₁ r₂ → S (lineStep r₁) (lineStep r₂)) :
    ∀ n r₁ r₂, S r₁ r₂ → S (lineSteps n r₁) (lineSteps n r₂) := by
  intro n
  induction n with
  | zero => intro r₁ r₂ h; exact h
  | succ n ih => intro r₁ r₂ h; exact ih _ _ (step _ _ h)

theorem lineSteps_add (m n : Nat) (r : LineRun) : lineSteps (m + n) r = lineSteps n (lineSteps m r) := by
  induction m generalizing r with
  | zero => rw [Nat.zero_add]; rfl
  | succ m ih => rw [Nat.succ_add]; exact ih (lineStep r)

/-- The last step taken. -/
theorem lineSteps_succ (n : Nat) (r : LineRun) : lineSteps (n + 1) r = lineStep (lineSteps n r) :=
  lineSteps_add n 1 r

/-! ### The plot -/

theorem plot_keeps (s : State) : LineKeeps s (plot s) := by constructor <;> rfl

/-- What a plot changes (R188). -/
theorem plot_eq (s : State) :
    (plot s).pointer = s.pointer ∧ (plot s).shiftA = s.shiftA ∧ (plot s).cData = wordAt s s.pointer.d ∧
    (plot s).mem = writeCell s.platform s.mem (cellOf s.platform s.pointer.d) (plotWord s (wordAt s s.pointer.d)) ∧
    (plot s).accesses = .write (cellOf s.platform s.pointer.d) (plotWord s (wordAt s s.pointer.d)) ::
      .read (cellOf s.platform s.pointer.d) (wordAt s s.pointer.d) :: s.accesses ∧
    (plot s).notZeroFlag = (s.notZeroFlag || plotWord s (wordAt s s.pointer.d) != 0x0000#16) :=
  ⟨rfl, rfl, rfl, rfl, rfl, rfl⟩

theorem linePlot_keeps (r : LineRun) : LineKeeps r.st (linePlot r).st := by
  unfold linePlot
  split
  · exact plot_keeps r.st
  · exact LineKeeps.refl r.st

theorem linePlot_pointer (r : LineRun) : (linePlot r).st.pointer = r.st.pointer := by
  unfold linePlot
  split <;> rfl

theorem linePlot_shiftA (r : LineRun) : (linePlot r).st.shiftA = r.st.shiftA := by
  unfold linePlot
  split <;> rfl

theorem linePlot_error (r : LineRun) : (linePlot r).error = r.error := by
  unfold linePlot
  split <;> rfl

theorem linePlot_draw (r : LineRun) : (linePlot r).draw = (r.draw && !r.st.control.oneDot) := by
  unfold linePlot
  split
  · next h => simp [h]
  · next h => simp [h]

/-! ### The move -/

/-- What an axis step does not touch. -/
theorem stepX_eq (m : Move) (s : State) :
    stepX m s = { s with shiftA := (stepX m s).shiftA, pointer := { s.pointer with d := (stepX m s).pointer.d } } := by
  cases m <;> simp only [stepX]
  all_goals (try split) <;> simp [setPointer, PerChannel.set]

theorem stepY_eq (m : Move) (s : State) :
    stepY m s = { s with pointer := { s.pointer with d := (stepY m s).pointer.d } } := by
  cases m <;> simp [stepY, setPointer, PerChannel.set]

theorem stepX_keeps (m : Move) (s : State) : LineKeeps s (stepX m s) := by
  rw [stepX_eq]
  constructor <;> rfl

theorem stepY_keeps (m : Move) (s : State) : LineKeeps s (stepY m s) := by
  rw [stepY_eq]
  constructor <;> rfl

/-- Everything else a move leaves alone: memory, record, latch and flag. -/
theorem stepX_rest (m : Move) (s : State) :
    (stepX m s).mem = s.mem ∧ (stepX m s).accesses = s.accesses ∧ (stepX m s).cData = s.cData ∧
    (stepX m s).notZeroFlag = s.notZeroFlag := by
  rw [stepX_eq]
  exact ⟨rfl, rfl, rfl, rfl⟩

theorem stepY_rest (m : Move) (s : State) :
    (stepY m s).mem = s.mem ∧ (stepY m s).accesses = s.accesses ∧ (stepY m s).cData = s.cData ∧
    (stepY m s).notZeroFlag = s.notZeroFlag ∧ (stepY m s).shiftA = s.shiftA := by
  rw [stepY_eq]
  exact ⟨rfl, rfl, rfl, rfl, rfl⟩

theorem lineMove_keeps (r : LineRun) : LineKeeps r.st (lineMove r).st :=
  (stepX_keeps _ _).trans (stepY_keeps _ _)

theorem lineMove_rest (r : LineRun) :
    (lineMove r).st.mem = r.st.mem ∧ (lineMove r).st.accesses = r.st.accesses ∧
    (lineMove r).st.cData = r.st.cData ∧ (lineMove r).st.notZeroFlag = r.st.notZeroFlag := by
  have hy := stepY_rest (lineMoves r.st.control.lineDirection (decide (0 ≤ r.error))).2
    (stepX (lineMoves r.st.control.lineDirection (decide (0 ≤ r.error))).1 r.st)
  have hx := stepX_rest (lineMoves r.st.control.lineDirection (decide (0 ≤ r.error))).1 r.st
  exact ⟨hy.1.trans hx.1, hy.2.1.trans hx.2.1, hy.2.2.1.trans hx.2.2.1, hy.2.2.2.1.trans hx.2.2.2⟩

theorem lineStep_keeps (r : LineRun) : LineKeeps r.st (lineStep r).st :=
  (linePlot_keeps r).trans (lineMove_keeps _)

/-- What a whole line leaves alone (R195). -/
theorem lineSteps_keeps (n : Nat) (r : LineRun) : LineKeeps r.st (lineSteps n r).st :=
  lineSteps_rel (fun r r' => LineKeeps r.st r'.st) (fun r => LineKeeps.refl r.st)
    (fun _ _ _ => LineKeeps.trans) lineStep_keeps n r

/-- The error after a step (R191). -/
theorem lineStep_error (r : LineRun) : (lineStep r).error = lineError r.st r.error := by
  have hk := linePlot_keeps r
  show lineError (linePlot r).st (linePlot r).error = _
  unfold lineError
  rw [linePlot_error, hk.modulo]

/-- The step set of an iteration (R190). -/
abbrev movesOf (r : LineRun) : Move × Move := lineMoves r.st.control.lineDirection (decide (0 ≤ r.error))

/-- The draw state after a step (R189, R193). -/
theorem lineStep_draw (r : LineRun) :
    (lineStep r).draw = ((r.draw && !r.st.control.oneDot) || (movesOf r).2 != .stay) := by
  have hk := linePlot_keeps r
  show ((linePlot r).draw || (movesOf (linePlot r)).2 != .stay) = _
  rw [linePlot_draw, movesOf, linePlot_error, hk.control]

/-- Memory, record, latch and flag after a step: those after its plot (R188). -/
theorem lineStep_rest (r : LineRun) :
    (lineStep r).st.mem = (if r.draw then (plot r.st).mem else r.st.mem) ∧
    (lineStep r).st.accesses = (if r.draw then (plot r.st).accesses else r.st.accesses) ∧
    (lineStep r).st.cData = (if r.draw then (plot r.st).cData else r.st.cData) ∧
    (lineStep r).st.notZeroFlag = (if r.draw then (plot r.st).notZeroFlag else r.st.notZeroFlag) := by
  have h := lineMove_rest (linePlot r)
  rw [show lineMove (linePlot r) = lineStep r from rfl] at h
  obtain ⟨h1, h2, h3, h4⟩ := h
  rw [h1, h2, h3, h4]
  unfold linePlot
  split <;> exact ⟨rfl, rfl, rfl, rfl⟩

/-- A step treats the flag as a value it only adds to: nothing else depends on it (R188). -/
theorem lineStep_flag_irrelevant (r : LineRun) (b : Bool) :
    ∃ b', lineStep { r with st := { r.st with notZeroFlag := b } } =
      { lineStep r with st := { (lineStep r).st with notZeroFlag := b' } } := by
  obtain ⟨b', h⟩ : ∃ b', linePlot { r with st := { r.st with notZeroFlag := b } } =
      { linePlot r with st := { (linePlot r).st with notZeroFlag := b' } } := by
    unfold linePlot
    cases hd : r.draw with
    | false => exact ⟨b, by simp [hd]⟩
    | true => exact ⟨_, rfl⟩
  refine ⟨b', ?_⟩
  have hx : ∀ (m : Move) (s : State), stepX m { s with notZeroFlag := b' } = { stepX m s with notZeroFlag := b' } := by
    intro m s
    cases m with
    | stay => rfl
    | forth => by_cases h : s.shiftA = 15#4 <;> simp [stepX, h, setPointer, PerChannel.set]
    | back => by_cases h : s.shiftA = 0#4 <;> simp [stepX, h, setPointer, PerChannel.set]
  have hy : ∀ (m : Move) (s : State), stepY m { s with notZeroFlag := b' } = { stepY m s with notZeroFlag := b' } := by
    intro m s
    cases m <;> rfl
  unfold lineStep
  rw [h]
  unfold lineMove
  simp only [hx, hy]
  rfl

/-- Clearing the flag at entry changes nothing a line does but the flag (R37, R188). -/
theorem lineSteps_clearNotZero (n : Nat) (s : State) :
    ∃ b, lineSteps n (lineStart (clearNotZero s)) =
      { lineSteps n (lineStart s) with st := { (lineSteps n (lineStart s)).st with notZeroFlag := b } } :=
  lineSteps_sim (fun r r' => ∃ b, r = { r' with st := { r'.st with notZeroFlag := b } })
    (fun _ r' ⟨b, h⟩ => h ▸ lineStep_flag_irrelevant r' b) n _ _ ⟨false, rfl⟩

/-! ### The position -/

/-- The pixel position as a number. -/
theorem pixelPosition_toNat (s : State) : (pixelPosition s).toNat = 16 * s.pointer.d.toNat + s.shiftA.toNat := by
  have h : s.shiftA.toNat < 2 ^ 4 := s.shiftA.isLt
  rw [pixelPosition, BitVec.toNat_append, ← Nat.shiftLeft_add_eq_or_of_lt h, Nat.shiftLeft_eq]
  omega

theorem pixelPosition_congr {s t : State} (hp : t.pointer.d = s.pointer.d) (hs : t.shiftA = s.shiftA) :
    pixelPosition t = pixelPosition s := by
  unfold pixelPosition
  rw [hp, hs]

/-- An axis step as a number (R41). -/
def moveInt : Move → Int
  | .back => -1
  | .stay => 0
  | .forth => 1

/-- An x step is one pixel along the bitmap's words, the wrap of the shift included (R192). -/
theorem pixelPosition_stepX (m : Move) (s : State) :
    pixelPosition (stepX m s) = pixelPosition s + BitVec.ofInt 36 (moveInt m) := by
  have h4 : s.shiftA.toNat < 16 := s.shiftA.isLt
  have h32 : s.pointer.d.toNat < 4294967296 := s.pointer.d.isLt
  apply BitVec.eq_of_toNat_eq
  rw [BitVec.toNat_add, pixelPosition_toNat, pixelPosition_toNat]
  cases m with
  | stay => simp only [stepX, moveInt]; simp; omega
  | forth =>
    have e : (BitVec.ofInt 36 (moveInt .forth)).toNat = 1 := rfl
    rw [e]
    simp only [stepX]
    split
    · next h =>
      have hs : s.shiftA.toNat = 15 := by rw [h]; rfl
      simp only [setPointer, PerChannel.set, BitVec.toNat_add, BitVec.toNat_ofNat]
      omega
    · next h =>
      have hs : s.shiftA.toNat ≠ 15 := fun e => h (BitVec.eq_of_toNat_eq e)
      simp only [BitVec.toNat_add, BitVec.toNat_ofNat]
      omega
  | back =>
    have e : (BitVec.ofInt 36 (moveInt .back)).toNat = 2 ^ 36 - 1 := by decide
    rw [e]
    simp only [stepX]
    split
    · next h =>
      have hs : s.shiftA.toNat = 0 := by rw [h]; rfl
      simp only [setPointer, PerChannel.set, BitVec.toNat_sub, BitVec.toNat_ofNat]
      omega
    · next h =>
      have hs : s.shiftA.toNat ≠ 0 := fun e => h (BitVec.eq_of_toNat_eq e)
      simp only [BitVec.toNat_sub, BitVec.toNat_ofNat]
      omega

/-- A number of rows as a distance along the bitmap's words: `n` row strides (R193). -/
def rowDistance (n : Int) (stride : Ptr) : BitVec 36 := (BitVec.ofInt 32 n * stride) ++ 0#4

theorem append_zero_toNat (p : Ptr) : (p ++ 0#4).toNat = 16 * p.toNat := by
  rw [BitVec.toNat_append]
  simp [Nat.shiftLeft_eq, Nat.mul_comm]

/-- Widening by four zero bits respects addition. -/
theorem append_zero_add (p q : Ptr) : ((p + q) ++ 0#4 : BitVec 36) = (p ++ 0#4) + (q ++ 0#4) := by
  apply BitVec.eq_of_toNat_eq
  rw [BitVec.toNat_add, append_zero_toNat, append_zero_toNat, append_zero_toNat, BitVec.toNat_add]
  omega

theorem rowDistance_add (m n : Int) (stride : Ptr) :
    rowDistance (m + n) stride = rowDistance m stride + rowDistance n stride := by
  unfold rowDistance
  rw [BitVec.ofInt_add, BitVec.add_mul, append_zero_add]

@[simp] theorem rowDistance_zero (stride : Ptr) : rowDistance 0 stride = 0#36 := by
  apply BitVec.eq_of_toNat_eq
  rw [rowDistance, append_zero_toNat]
  simp

/-- A y step is one row stride (R193). -/
theorem pixelPosition_stepY (m : Move) (s : State) :
    pixelPosition (stepY m s) = pixelPosition s + rowDistance (moveInt m) s.modulo.c := by
  have h4 : s.shiftA.toNat < 16 := s.shiftA.isLt
  apply BitVec.eq_of_toNat_eq
  rw [BitVec.toNat_add, pixelPosition_toNat, pixelPosition_toNat, (stepY_rest m s).2.2.2.2, rowDistance,
    append_zero_toNat]
  have h32 : s.pointer.d.toNat < 4294967296 := s.pointer.d.isLt
  cases m with
  | stay => simp only [stepY, moveInt]; simp; omega
  | forth =>
    rw [show BitVec.ofInt 32 (moveInt .forth) = 1#32 from rfl, BitVec.one_mul]
    simp only [stepY, setPointer, PerChannel.set, BitVec.toNat_add]
    omega
  | back =>
    rw [show BitVec.ofInt 32 (moveInt .back) * s.modulo.c = -s.modulo.c by
      rw [show BitVec.ofInt 32 (moveInt .back) = -1#32 by decide, BitVec.neg_mul, BitVec.one_mul]]
    simp only [stepY, setPointer, PerChannel.set, BitVec.toNat_sub, BitVec.toNat_neg]
    omega

/-- The position after a step: one pixel for an x step, one stride for a y step (R192, R193). -/
theorem pixelPosition_lineStep (r : LineRun) :
    pixelPosition (lineStep r).st =
      pixelPosition r.st + BitVec.ofInt 36 (moveInt (movesOf r).1) + rowDistance (moveInt (movesOf r).2) r.st.modulo.c := by
  have hk := linePlot_keeps r
  have hm : movesOf (linePlot r) = movesOf r := by rw [movesOf, linePlot_error, hk.control]
  show pixelPosition (stepY (movesOf (linePlot r)).2 (stepX (movesOf (linePlot r)).1 (linePlot r).st)) = _
  rw [pixelPosition_stepY, pixelPosition_stepX, hm, (stepX_keeps _ _).modulo, hk.modulo,
    pixelPosition_congr (congrArg PerChannel.d (linePlot_pointer r)) (linePlot_shiftA r)]

/-! ### Memory, record and flag over a whole line -/

/-- A step leaves every byte alone outside the cell it plots into (R188). -/
theorem lineStep_read (r : LineRun) (a : Nat)
    (h : r.draw = true → a / 2 ≠ cellOf r.st.platform r.st.pointer.d) :
    (lineStep r).st.mem.read a = r.st.mem.read a := by
  rw [(lineStep_rest r).1]
  split
  · next hd => rw [(plot_eq r.st).2.2.2.1]; exact read_writeCell_other _ _ _ _ _ (h hd)
  · rfl

/-- A line leaves every byte alone outside the cells it plots into (R195). -/
theorem lineSteps_read (a : Nat) (n : Nat) : ∀ r : LineRun,
    (∀ k, k < n → (lineSteps k r).draw = true → a / 2 ≠ cellOf r.st.platform (lineSteps k r).st.pointer.d) →
    (lineSteps n r).st.mem.read a = r.st.mem.read a := by
  induction n with
  | zero => intros; rfl
  | succ n ih =>
    intro r h
    rw [lineSteps, ih, lineStep_read]
    · exact h 0 (by omega)
    · intro k hk hd
      rw [(lineStep_keeps r).platform]
      exact h (k + 1) (by omega) hd

/-- The places of one step. -/
def stepPlaces (r : LineRun) : List (Bool × Nat) :=
  if r.draw then [(false, cellOf r.st.platform r.st.pointer.d), (true, cellOf r.st.platform r.st.pointer.d)] else []

theorem lineStep_places (r : LineRun) :
    (lineStep r).st.accesses.reverse.map Access.place = r.st.accesses.reverse.map Access.place ++ stepPlaces r := by
  rw [(lineStep_rest r).2.1]
  unfold stepPlaces
  split
  · rw [(plot_eq r.st).2.2.2.2.1]
    simp [Access.place, Access.isWrite, Access.cell]
  · simp

/-- The places of a line, step by step (R68, R195). -/
theorem lineSteps_places (n : Nat) : ∀ r : LineRun,
    (lineSteps n r).st.accesses.reverse.map Access.place =
      r.st.accesses.reverse.map Access.place ++ (List.range n).flatMap (fun k => stepPlaces (lineSteps k r)) := by
  induction n with
  | zero => intro r; simp [lineSteps]
  | succ n ih =>
    intro r
    rw [lineSteps, ih, lineStep_places, List.append_assoc, List.range_succ_eq_map, List.flatMap_cons, List.flatMap_map]
    rfl

/-- A line keeps the canonical form, the memory's bounds and the bounds of the recorded accesses (R47, R60). -/
theorem lineSteps_memInv (n : Nat) (r : LineRun) (h : r.st.MemInv) (ha : r.st.AccessInv) :
    (lineSteps n r).st.MemInv ∧ (lineSteps n r).st.AccessInv := by
  refine lineSteps_rel (fun r r' => r.st.MemInv ∧ r.st.AccessInv → r'.st.MemInv ∧ r'.st.AccessInv) (fun _ h => h)
    (fun _ _ _ h1 h2 h => h2 (h1 h)) ?_ n r ⟨h, ha⟩
  intro r ⟨⟨hw, hb⟩, hx⟩
  obtain ⟨h1, h2, -⟩ := lineStep_rest r
  unfold State.MemInv State.AccessInv at *
  rw [h1, h2, (lineStep_keeps r).platform]
  split
  · obtain ⟨-, -, -, e1, e2, -⟩ := plot_eq r.st
    rw [e1, e2]
    refine ⟨⟨wf_writeCell _ _ _ _ hw, below_writeCell _ _ _ _ _ hb (cellOf_lt _ _)⟩, ?_⟩
    simp only [List.all_cons, hx, Bool.and_true, Bool.and_eq_true]
    exact ⟨decide_eq_true (cellOf_lt _ _), decide_eq_true (cellOf_lt _ _)⟩
  · exact ⟨⟨hw, hb⟩, hx⟩

/-- The flag only rises and tells whether a written word was nonzero (R188). -/
theorem lineSteps_flag (n : Nat) (r : LineRun) :
    ∃ new, (lineSteps n r).st.accesses = new ++ r.st.accesses ∧
      (lineSteps n r).st.notZeroFlag = (r.st.notZeroFlag || new.any Access.isNonzeroWrite) := by
  refine lineSteps_rel (fun r r' => ∃ new, r'.st.accesses = new ++ r.st.accesses ∧
      r'.st.notZeroFlag = (r.st.notZeroFlag || new.any Access.isNonzeroWrite)) (fun _ => ⟨[], by simp⟩) ?_ ?_ n r
  · rintro r r' r'' ⟨n1, a1, f1⟩ ⟨n2, a2, f2⟩
    exact ⟨n2 ++ n1, by rw [a2, a1, List.append_assoc],
      by rw [f2, f1, List.any_append, Bool.or_assoc, Bool.or_comm (n1.any _)]⟩
  · intro r
    obtain ⟨-, h2, -, h4⟩ := lineStep_rest r
    rw [h2, h4]
    split
    · obtain ⟨-, -, -, -, e1, e2⟩ := plot_eq r.st
      exact ⟨[.write _ _, .read _ _], e1, by rw [e2]; simp [Access.isNonzeroWrite]⟩
    · exact ⟨[], rfl, by simp⟩

end Sys2Proof.Machine
end

