-- ==== Sys2Proof/Laws/Rect.lean ====
section
/-! SUPPORT. What a rectangular transfer can do, said once: what each step of a column changes, the induction over
columns and rows, and its consequences for pointers, memory, the record of accesses and the flag
(44_rect_transfer.md). -/

namespace Sys2Proof.Machine

/-- What no rectangular transfer writes (R20, R143). -/
structure RectKeeps (s t : State) : Prop where
  control : t.control = s.control
  modulo : t.modulo = s.modulo
  shiftA : t.shiftA = s.shiftA
  shiftB : t.shiftB = s.shiftB
  height : t.height = s.height
  fault : t.fault = s.fault
  interrupts : t.interrupts = s.interrupts
  responses : t.responses = s.responses
  inputs : t.inputs = s.inputs
  platform : t.platform = s.platform

theorem RectKeeps.refl (s : State) : RectKeeps s s := by constructor <;> rfl

theorem RectKeeps.trans {s t u : State} (h : RectKeeps s t) (h' : RectKeeps t u) : RectKeeps s u := by
  constructor
  · rw [h'.control, h.control]
  · rw [h'.modulo, h.modulo]
  · rw [h'.shiftA, h.shiftA]
  · rw [h'.shiftB, h.shiftB]
  · rw [h'.height, h.height]
  · rw [h'.fault, h.fault]
  · rw [h'.interrupts, h.interrupts]
  · rw [h'.responses, h.responses]
  · rw [h'.inputs, h.inputs]
  · rw [h'.platform, h.platform]

/-! ### The induction over columns and rows -/

/-- A relation that every column and every row end respects holds across the whole transfer. -/
theorem rectRows_rel (R : State → State → Prop) (refl : ∀ s, R s s) (trans : ∀ s t u, R s t → R t u → R s u)
    (col : ∀ x r, R r.st (rectColumn x r).st) (row : ∀ s, R s (rowEnd s)) :
    ∀ H W s, R s (rectRows H W s) := by
  have cols : ∀ n x r, R r.st (rectColumns n x r).st := by
    intro n
    induction n with
    | zero => intro x r; exact refl _
    | succ n ih => intro x r; exact trans _ _ _ (col x r) (ih (x + 1) (rectColumn x r))
  intro H W
  induction H with
  | zero => intro s; exact refl s
  | succ H ih =>
    intro s
    exact trans _ _ _ (trans _ _ _ (cols W 0 ⟨s, s.control.fillCarry⟩) (row _)) (ih (rectRow W s))

/-- Two runs that a relation ties together stay tied: every column keeps the tie and hands on the same carry. -/
theorem rectRows_sim (S : State → State → Prop)
    (seed : ∀ s₁ s₂, S s₁ s₂ → s₁.control.fillCarry = s₂.control.fillCarry)
    (col : ∀ x c s₁ s₂, S s₁ s₂ →
      S (rectColumn x ⟨s₁, c⟩).st (rectColumn x ⟨s₂, c⟩).st ∧
        (rectColumn x ⟨s₁, c⟩).carry = (rectColumn x ⟨s₂, c⟩).carry)
    (row : ∀ s₁ s₂, S s₁ s₂ → S (rowEnd s₁) (rowEnd s₂)) :
    ∀ H W s₁ s₂, S s₁ s₂ → S (rectRows H W s₁) (rectRows H W s₂) := by
  have cols : ∀ n x (r₁ r₂ : RowRun), S r₁.st r₂.st → r₁.carry = r₂.carry →
      S (rectColumns n x r₁).st (rectColumns n x r₂).st := by
    intro n
    induction n with
    | zero => intro x r₁ r₂ h _; exact h
    | succ n ih =>
      intro x r₁ r₂ h hc
      obtain ⟨s₁, c₁⟩ := r₁
      obtain ⟨s₂, c₂⟩ := r₂
      cases hc
      exact ih (x + 1) _ _ (col x c₁ s₁ s₂ h).1 (col x c₁ s₁ s₂ h).2
  intro H W
  induction H with
  | zero => intro s₁ s₂ h; exact h
  | succ H ih =>
    intro s₁ s₂ h
    exact ih _ _ (row _ _ (cols W 0 ⟨s₁, s₁.control.fillCarry⟩ ⟨s₂, s₂.control.fillCarry⟩ h (seed _ _ h)))

/-- Rows run one after another: the running carry of a row reaches no other (R137). -/
theorem rectRows_add (m n W : Nat) (s : State) : rectRows (m + n) W s = rectRows n W (rectRows m W s) := by
  induction m generalizing s with
  | zero => rw [Nat.zero_add]; rfl
  | succ m ih =>
    rw [Nat.succ_add]
    exact ih (rectRow W s)

/-! ### One column -/

theorem fetchA_keeps (s : State) : RectKeeps s (fetchA s) := by
  unfold fetchA
  split <;> constructor <;> simp [readAdvance]

theorem fetchB_keeps (s : State) : RectKeeps s (fetchB s) := by
  unfold fetchB
  split <;> constructor <;> simp [readAdvance]

theorem fetchC_keeps (s : State) : RectKeeps s (fetchC s) := by
  unfold fetchC
  split <;> constructor <;> simp [readAdvance]

theorem loadColumn_keeps (x : Nat) (s : State) : RectKeeps s (loadColumn x s) :=
  ((fetchA_keeps s).trans (fetchB_keeps _)).trans ((fetchC_keeps _).trans (by constructor <;> rfl))

theorem writeBack_keeps (out : Word) (s : State) : RectKeeps s (writeBack out s) := by
  unfold writeBack
  split <;> constructor <;> simp

theorem noteOutput_keeps (out : Word) (s : State) : RectKeeps s (noteOutput out s) := by constructor <;> rfl

theorem rectColumn_keeps (x : Nat) (r : RowRun) : RectKeeps r.st (rectColumn x r).st :=
  (loadColumn_keeps x r.st).trans ((noteOutput_keeps _ _).trans (writeBack_keeps _ _))

theorem rowEnd_keeps (s : State) : RectKeeps s (rowEnd s) := by constructor <;> rfl

/-- What a whole rectangular transfer leaves alone (R20, R143, R173). -/
theorem rectRows_keeps (H W : Nat) (s : State) : RectKeeps s (rectRows H W s) :=
  rectRows_rel RectKeeps RectKeeps.refl (fun _ _ _ => RectKeeps.trans) rectColumn_keeps rowEnd_keeps H W s

theorem increment_congr {s t : State} (h : t.control = s.control) : increment t = increment s := by
  unfold increment
  rw [h]

theorem scaled_congr {s t : State} (h : t.control = s.control) (m : Ptr) : scaled t m = scaled s m := by
  unfold scaled
  rw [h]

/-- What the fetches and the accumulate step do to everything a column's later steps read: pointers, latches,
accumulators, memory, record and flag (R166, R151). -/
theorem loadColumn_eq (x : Nat) (s : State) :
    (loadColumn x s).pointer.d = s.pointer.d ∧ (loadColumn x s).mem = s.mem ∧
    (loadColumn x s).notZeroFlag = s.notZeroFlag ∧
    (loadColumn x s).pointer.a = (if s.control.enables.a then s.pointer.a + increment s else s.pointer.a) ∧
    (loadColumn x s).pointer.b = (if s.control.enables.b then s.pointer.b + increment s else s.pointer.b) ∧
    (loadColumn x s).pointer.c = (if s.control.enables.c then s.pointer.c + increment s else s.pointer.c) ∧
    (loadColumn x s).aData = (if s.control.enables.a then wordAt s s.pointer.a else s.aData) ∧
    (loadColumn x s).bData = (if s.control.enables.b then wordAt s s.pointer.b else s.bData) ∧
    (loadColumn x s).cData = (if s.control.enables.c then wordAt s s.pointer.c else s.cData) ∧
    (loadColumn x s).aAcc =
      shiftIn s.aAcc ((if s.control.enables.a then wordAt s s.pointer.a else s.aData) &&& colMask s.control x) ∧
    (loadColumn x s).bAcc = shiftIn s.bAcc (if s.control.enables.b then wordAt s s.pointer.b else s.bData) := by
  unfold loadColumn fetchA fetchB fetchC
  rcases ha : s.control.enables.a <;> rcases hb : s.control.enables.b <;> rcases hc : s.control.enables.c <;>
    simp [hb, hc, readAdvance, PerChannel.get, PerChannel.set, increment, wordAt]

/-- The record after the fetches (R68, R166). -/
theorem loadColumn_accesses (x : Nat) (s : State) :
    (loadColumn x s).accesses =
      (if s.control.enables.c then [.read (cellOf s.platform s.pointer.c) (wordAt s s.pointer.c)] else []) ++
      ((if s.control.enables.b then [.read (cellOf s.platform s.pointer.b) (wordAt s s.pointer.b)] else []) ++
      ((if s.control.enables.a then [.read (cellOf s.platform s.pointer.a) (wordAt s s.pointer.a)] else []) ++
        s.accesses)) := by
  unfold loadColumn fetchA fetchB fetchC
  rcases ha : s.control.enables.a <;> rcases hb : s.control.enables.b <;> rcases hc : s.control.enables.c <;>
    simp [hb, hc, readAdvance, PerChannel.get, PerChannel.set, wordAt]

/-- Memory after a column: one cell stored if D is enabled (R171). -/
theorem rectColumn_mem (x : Nat) (r : RowRun) :
    (rectColumn x r).st.mem =
      if r.st.control.enables.d then
        writeCell r.st.platform r.st.mem (cellOf r.st.platform r.st.pointer.d) (columnOut x r).1
      else r.st.mem := by
  have hk := loadColumn_keeps x r.st
  have he := loadColumn_eq x r.st
  simp only [rectColumn, writeBack]
  rw [show (noteOutput (columnOut x r).1 (loadColumn x r.st)).control = r.st.control from hk.control]
  split <;> simp [hk.platform, he.1, he.2.1]

/-- The flag after a column (R170). -/
theorem rectColumn_flag (x : Nat) (r : RowRun) :
    (rectColumn x r).st.notZeroFlag = (r.st.notZeroFlag || (columnOut x r).1 != 0x0000#16) := by
  have he := loadColumn_eq x r.st
  simp only [rectColumn, writeBack]
  split <;> simp [he.2.2.1]

/-- The record after a column (R68). -/
theorem rectColumn_accesses (x : Nat) (r : RowRun) :
    (rectColumn x r).st.accesses =
      (if r.st.control.enables.d then [.write (cellOf r.st.platform r.st.pointer.d) (columnOut x r).1] else []) ++
        (loadColumn x r.st).accesses := by
  have hk := loadColumn_keeps x r.st
  have he := loadColumn_eq x r.st
  simp only [rectColumn, writeBack]
  rw [show (noteOutput (columnOut x r).1 (loadColumn x r.st)).control = r.st.control from hk.control]
  split <;> simp [hk.platform, he.1]

/-- A column moves the pointer of every enabled channel by one word in the transfer's direction (R166, R171). -/
theorem rectColumn_pointer (x : Nat) (r : RowRun) (ch : Channel) :
    (rectColumn x r).st.pointer.get ch =
      if r.st.control.enables.get ch then r.st.pointer.get ch + increment r.st else r.st.pointer.get ch := by
  have hk := loadColumn_keeps x r.st
  have he := loadColumn_eq x r.st
  have hi : increment (noteOutput (columnOut x r).1 (loadColumn x r.st)) = increment r.st :=
    increment_congr hk.control
  simp only [rectColumn, writeBack]
  rw [show (noteOutput (columnOut x r).1 (loadColumn x r.st)).control = r.st.control from hk.control, hi]
  obtain ⟨hd, -, -, ha, hb, hc, -⟩ := he
  cases ch <;> cases hen : r.st.control.enables.d <;>
    simp [PerChannel.get, PerChannel.set, ha, hb, hc, hd, hen] <;> rfl

/-- A column leaves the latch of a disabled channel alone (R166). -/
theorem rectColumn_latches (x : Nat) (r : RowRun) :
    (rectColumn x r).st.aData = (loadColumn x r.st).aData ∧ (rectColumn x r).st.bData = (loadColumn x r.st).bData ∧
    (rectColumn x r).st.cData = (loadColumn x r.st).cData ∧ (rectColumn x r).st.aAcc = (loadColumn x r.st).aAcc ∧
    (rectColumn x r).st.bAcc = (loadColumn x r.st).bAcc := by
  simp only [rectColumn, writeBack]
  split <;> simp

/-! ### Pointers over a whole transfer -/

theorem scaled_add (s : State) (p q : Ptr) : scaled s (p + q) = scaled s p + scaled s q := by
  unfold scaled
  split
  · rw [BitVec.zero_sub, BitVec.zero_sub, BitVec.zero_sub, BitVec.neg_add, BitVec.sub_eq_add_neg]
  · rfl

theorem increment_eq_scaled_one (s : State) : increment s = scaled s 1#32 := by
  unfold increment scaled
  cases s.control.oneDot <;> rfl

@[simp] theorem scaled_zero (s : State) : scaled s 0#32 = 0#32 := by
  unfold scaled
  cases s.control.oneDot <;> rfl

/-- The pointer of column `x` of row `y`, from that of the first column: additive in both (R173). -/
theorem columnPointer_zero (s : State) (ch : Channel) : columnPointer s ch 0 0 = s.pointer.get ch := by
  simp [columnPointer]

theorem columnPlaces_zero (s : State) :
    columnPlaces s 0 0 =
      (if s.control.enables.a then [(false, cellOf s.platform s.pointer.a)] else []) ++
      (if s.control.enables.b then [(false, cellOf s.platform s.pointer.b)] else []) ++
      (if s.control.enables.c then [(false, cellOf s.platform s.pointer.c)] else []) ++
      (if s.control.enables.d then [(true, cellOf s.platform s.pointer.d)] else []) := by
  simp [columnPlaces, columnPointer_zero, PerChannel.get]

theorem ofNat_add32 (m n : Nat) : BitVec.ofNat 32 (m + n) = BitVec.ofNat 32 m + BitVec.ofNat 32 n :=
  BitVec.ofNat_add m n

/-- After a column the columns to come are those of the row, one further on. -/
theorem columnPointer_after_column (x : Nat) (r : RowRun) (ch : Channel) (y k : Nat)
    (h : r.st.control.enables.get ch = true) :
    columnPointer (rectColumn x r).st ch y k = columnPointer r.st ch y (k + 1) := by
  have hk := rectColumn_keeps x r
  unfold columnPointer
  rw [rectColumn_pointer, h, if_pos rfl, scaled_congr hk.control, hk.control, hk.modulo, increment_eq_scaled_one,
    show y * r.st.control.width + (k + 1) = 1 + (y * r.st.control.width + k) by ring, ofNat_add32 1,
    BitVec.add_assoc (BitVec.ofNat 32 1), scaled_add r.st (BitVec.ofNat 32 1), BitVec.add_assoc]

theorem columnPlaces_congr (s t : State) (y k y' k' : Nat) (hc : t.control = s.control)
    (hp : t.platform = s.platform)
    (h : ∀ ch, s.control.enables.get ch = true → columnPointer t ch y k = columnPointer s ch y' k') :
    columnPlaces t y k = columnPlaces s y' k' := by
  have ha := h .a
  have hb := h .b
  have hcc := h .c
  have hd := h .d
  simp only [PerChannel.get] at ha hb hcc hd
  unfold columnPlaces
  rw [hc, hp]
  rcases e1 : s.control.enables.a <;> rcases e2 : s.control.enables.b <;> rcases e3 : s.control.enables.c <;>
    rcases e4 : s.control.enables.d <;> simp_all

theorem columnPlaces_after_column (x : Nat) (r : RowRun) (y k : Nat) :
    columnPlaces (rectColumn x r).st y k = columnPlaces r.st y (k + 1) :=
  columnPlaces_congr _ _ _ _ _ _ (rectColumn_keeps x r).control (rectColumn_keeps x r).platform
    (fun ch h => columnPointer_after_column x r ch y k h)

/-- The places of one column, oldest access first. -/
theorem rectColumn_places (x : Nat) (r : RowRun) :
    (rectColumn x r).st.accesses.reverse.map Access.place =
      r.st.accesses.reverse.map Access.place ++ columnPlaces r.st 0 0 := by
  rw [rectColumn_accesses, loadColumn_accesses, columnPlaces_zero]
  rcases r.st.control.enables.a <;> rcases r.st.control.enables.b <;> rcases r.st.control.enables.c <;>
    rcases r.st.control.enables.d <;> simp [Access.place, Access.isWrite, Access.cell]

/-- After `n` columns the columns to come are those of the row, `n` further on. -/
theorem columnPointer_after_columns (n : Nat) : ∀ (x : Nat) (r : RowRun) (ch : Channel) (y k : Nat),
    r.st.control.enables.get ch = true →
    columnPointer (rectColumns n x r).st ch y k = columnPointer r.st ch y (k + n) := by
  induction n with
  | zero => intros; rfl
  | succ n ih =>
    intro x r ch y k h
    rw [rectColumns, ih _ _ _ _ _ (by rw [(rectColumn_keeps x r).control]; exact h),
      columnPointer_after_column x r ch y (k + n) h, Nat.add_assoc]

theorem rectColumns_keeps (n : Nat) : ∀ (x : Nat) (r : RowRun), RectKeeps r.st (rectColumns n x r).st := by
  induction n with
  | zero => intro x r; exact RectKeeps.refl _
  | succ n ih => intro x r; exact (rectColumn_keeps x r).trans (ih (x + 1) (rectColumn x r))

theorem rectColumns_disabled_pointer (n : Nat) : ∀ (x : Nat) (r : RowRun) (ch : Channel),
    r.st.control.enables.get ch = false → (rectColumns n x r).st.pointer.get ch = r.st.pointer.get ch := by
  induction n with
  | zero => intros; rfl
  | succ n ih =>
    intro x r ch h
    rw [rectColumns, ih _ _ _ (by rw [(rectColumn_keeps x r).control]; exact h), rectColumn_pointer, h,
      if_neg Bool.false_ne_true]

/-- The places of `n` columns. -/
theorem rectColumns_places (n : Nat) : ∀ (x : Nat) (r : RowRun),
    (rectColumns n x r).st.accesses.reverse.map Access.place =
      r.st.accesses.reverse.map Access.place ++ (List.range n).flatMap (fun k => columnPlaces r.st 0 k) := by
  induction n with
  | zero => intro x r; simp [rectColumns]
  | succ n ih =>
    intro x r
    rw [rectColumns, ih, rectColumn_places, List.append_assoc, List.range_succ_eq_map, List.flatMap_cons,
      List.flatMap_map]
    simp only [columnPlaces_after_column]

@[simp] theorem rowEnd_get (s : State) (ch : Channel) : (rowEnd s).pointer.get ch = rowPointer s ch := by
  cases ch <;> rfl

/-- After a row the rows to come are those of the rectangle, one further down (R172). -/
theorem columnPointer_after_row (s : State) (ch : Channel) (y k : Nat)
    (h : s.control.enables.get ch = true) :
    columnPointer (rectRow s.control.width s) ch y k = columnPointer s ch (y + 1) k := by
  have hk := rectColumns_keeps s.control.width 0 ⟨s, s.control.fillCarry⟩
  have hp := columnPointer_after_columns s.control.width 0 ⟨s, s.control.fillCarry⟩ ch 0 0 h
  rw [columnPointer_zero] at hp
  unfold rectRow
  generalize rectColumns s.control.width 0 ⟨s, s.control.fillCarry⟩ = r at hk hp ⊢
  simp only at hk hp
  unfold columnPointer at hp ⊢
  rw [rowEnd_get, rowPointer, show (rowEnd r.st).control = r.st.control from rfl,
    show (rowEnd r.st).modulo = r.st.modulo from rfl, scaled_congr (show (rowEnd r.st).control = s.control from hk.control),
    scaled_congr hk.control, hk.control, hk.modulo, h, if_pos rfl, hp]
  rw [show (y + 1) * s.control.width + k = s.control.width + (y * s.control.width + k) by ring]
  simp only [Nat.zero_mul, Nat.zero_add, ofNat_add32, scaled_add, BitVec.add_mul, BitVec.one_mul]
  simp only [BitVec.zero_mul, scaled_zero, BitVec.add_zero]
  ac_rfl

theorem rectRow_keeps (W : Nat) (s : State) : RectKeeps s (rectRow W s) :=
  (rectColumns_keeps W 0 ⟨s, s.control.fillCarry⟩).trans (rowEnd_keeps _)

/-- The pointers after `H` rows stand where the rectangle's row `H` would begin (R173). -/
theorem rectRows_pointer (H : Nat) : ∀ (s : State) (ch : Channel) (y k : Nat),
    s.control.enables.get ch = true →
    columnPointer (rectRows H s.control.width s) ch y k = columnPointer s ch (y + H) k := by
  induction H with
  | zero => intros; rfl
  | succ H ih =>
    intro s ch y k h
    have hk := rectRow_keeps s.control.width s
    have := ih (rectRow s.control.width s) ch y k (by rw [hk.control]; exact h)
    rw [hk.control] at this
    rw [rectRows, this, columnPointer_after_row s ch _ _ h, Nat.add_assoc]

theorem rectRows_disabled_pointer (H W : Nat) (s : State) (ch : Channel)
    (h : s.control.enables.get ch = false) : (rectRows H W s).pointer.get ch = s.pointer.get ch := by
  have := rectRows_rel
    (fun s t => t.control = s.control ∧ (s.control.enables.get ch = false → t.pointer.get ch = s.pointer.get ch))
    (fun _ => ⟨rfl, fun _ => rfl⟩)
    (fun s t u h1 h2 => ⟨h2.1.trans h1.1, fun h => (h2.2 (by rw [h1.1]; exact h)).trans (h1.2 h)⟩)
    (fun x r => ⟨(rectColumn_keeps x r).control, fun h => by
      rw [rectColumn_pointer, h, if_neg Bool.false_ne_true]⟩)
    (fun s => ⟨rfl, fun h => by rw [rowEnd_get, rowPointer, h, if_neg Bool.false_ne_true]⟩) H W s
  exact this.2 h

/-- The places of a whole transfer: rows ascending, columns ascending (R68, R165). -/
theorem rectRows_places (H : Nat) : ∀ (s : State),
    (rectRows H s.control.width s).accesses.reverse.map Access.place =
      s.accesses.reverse.map Access.place ++
        (List.range H).flatMap (fun y => (List.range s.control.width).flatMap (fun k => columnPlaces s y k)) := by
  induction H with
  | zero => intro s; simp [rectRows]
  | succ H ih =>
    intro s
    have hk := rectRow_keeps s.control.width s
    have h1 := ih (rectRow s.control.width s)
    rw [hk.control] at h1
    have h2 := rectColumns_places s.control.width 0 ⟨s, s.control.fillCarry⟩
    rw [rectRows, h1, show (rectRow s.control.width s).accesses =
      (rectColumns s.control.width 0 ⟨s, s.control.fillCarry⟩).st.accesses from rfl, h2, List.append_assoc,
      List.range_succ_eq_map (n := H), List.flatMap_cons, List.flatMap_map]
    congr 2
    refine congrArg (fun f => (List.range H).flatMap f) (funext fun y => ?_)
    refine congrArg (fun f => (List.range s.control.width).flatMap f) (funext fun k => ?_)
    exact columnPlaces_congr _ _ _ _ _ _ hk.control hk.platform (fun ch h => columnPointer_after_row s ch y k h)

/-! ### Memory, record and flag over a whole transfer -/

/-- A column leaves every byte outside D's cell alone (R171). -/
theorem rectColumn_read (x : Nat) (r : RowRun) (a : Nat)
    (h : r.st.control.enables.d = true → a / 2 ≠ cellOf r.st.platform r.st.pointer.d) :
    (rectColumn x r).st.mem.read a = r.st.mem.read a := by
  rw [rectColumn_mem]
  split
  · next hd => exact read_writeCell_other _ _ _ _ _ (h hd)
  · rfl

theorem rectColumns_read (a : Nat) (n : Nat) : ∀ (x : Nat) (r : RowRun),
    (r.st.control.enables.d = true → ∀ k, k < n → a / 2 ≠ cellOf r.st.platform (columnPointer r.st .d 0 k)) →
    (rectColumns n x r).st.mem.read a = r.st.mem.read a := by
  induction n with
  | zero => intros; rfl
  | succ n ih =>
    intro x r h
    have hk := rectColumn_keeps x r
    rw [rectColumns, ih, rectColumn_read]
    · intro hd
      have := h hd 0 (by omega)
      rwa [columnPointer_zero] at this
    · intro hd k hkn
      rw [hk.control] at hd
      rw [columnPointer_after_column x r .d 0 k hd, hk.platform]
      exact h hd (k + 1) (by omega)

/-- A transfer leaves every byte alone outside the cells D writes (R173). -/
theorem rectRows_read (a : Nat) (H : Nat) : ∀ (s : State),
    (s.control.enables.d = true → ∀ y, y < H → ∀ x, x < s.control.width →
      a / 2 ≠ cellOf s.platform (columnPointer s .d y x)) →
    (rectRows H s.control.width s).mem.read a = s.mem.read a := by
  induction H with
  | zero => intros; rfl
  | succ H ih =>
    intro s h
    have hk := rectRow_keeps s.control.width s
    have h1 := ih (rectRow s.control.width s)
    rw [hk.control, hk.platform] at h1
    rw [rectRows, h1]
    · exact rectColumns_read a s.control.width 0 ⟨s, s.control.fillCarry⟩ (fun hd k hkn => h hd 0 (by omega) k hkn)
    · intro hd y hy x hx
      rw [columnPointer_after_row s .d y x hd]
      exact h hd (y + 1) (by omega) x hx

/-- A transfer keeps the canonical form, the memory's bounds and the bounds of the recorded accesses (R47, R60). -/
theorem rectRows_memInv (H W : Nat) (s : State) (h : s.MemInv) (ha : s.AccessInv) :
    (rectRows H W s).MemInv ∧ (rectRows H W s).AccessInv := by
  refine rectRows_rel (fun s t => s.MemInv ∧ s.AccessInv → t.MemInv ∧ t.AccessInv) (fun _ h => h)
    (fun _ _ _ h1 h2 h => h2 (h1 h)) ?_ (fun s h => h) H W s ⟨h, ha⟩
  intro x r ⟨⟨hw, hb⟩, hx⟩
  have hk := rectColumn_keeps x r
  refine ⟨⟨?_, ?_⟩, ?_⟩
  · rw [rectColumn_mem]
    split
    · exact wf_writeCell _ _ _ _ hw
    · exact hw
  · rw [rectColumn_mem, hk.platform]
    split
    · exact below_writeCell _ _ _ _ _ hb (cellOf_lt _ _)
    · exact hb
  · have hc : ∀ p : Ptr, decide (cellOf r.st.platform p < memWords r.st.platform) = true :=
      fun p => decide_eq_true (cellOf_lt _ p)
    unfold State.AccessInv at hx ⊢
    rw [rectColumn_accesses, loadColumn_accesses, hk.platform]
    simp only [List.all_append, hx, Bool.and_true, Bool.and_eq_true]
    refine ⟨?_, ?_, ?_, ?_⟩ <;> split <;> simp only [List.all_cons, List.all_nil, Access.cell, Bool.and_true] <;>
      exact hc _

/-- The flag only rises, and with D enabled it tells whether a written word was nonzero (R170). -/
theorem rectRows_flag (H W : Nat) (s : State) (hd : s.control.enables.d = true) :
    ∃ new, (rectRows H W s).accesses = new ++ s.accesses ∧
      (rectRows H W s).notZeroFlag = (s.notZeroFlag || new.any Access.isNonzeroWrite) := by
  have := rectRows_rel
    (fun s t => t.control = s.control ∧ (s.control.enables.d = true →
      ∃ new, t.accesses = new ++ s.accesses ∧ t.notZeroFlag = (s.notZeroFlag || new.any Access.isNonzeroWrite)))
    (fun s => ⟨rfl, fun _ => ⟨[], by simp⟩⟩) ?_ ?_ (fun s => ⟨rfl, fun _ => ⟨[], by simp⟩⟩) H W s
  · exact this.2 hd
  · rintro s t u ⟨c1, h1⟩ ⟨c2, h2⟩
    refine ⟨c2.trans c1, fun hd => ?_⟩
    obtain ⟨n1, a1, f1⟩ := h1 hd
    obtain ⟨n2, a2, f2⟩ := h2 (by rw [c1]; exact hd)
    exact ⟨n2 ++ n1, by rw [a2, a1, List.append_assoc], by rw [f2, f1, List.any_append, Bool.or_assoc, Bool.or_comm (n1.any _)]⟩
  · intro x r
    refine ⟨(rectColumn_keeps x r).control, fun hd => ?_⟩
    rw [rectColumn_accesses, loadColumn_accesses, rectColumn_flag, hd]
    simp only [← List.append_assoc]
    refine ⟨_, rfl, ?_⟩
    rcases r.st.control.enables.a <;> rcases r.st.control.enables.b <;> rcases r.st.control.enables.c <;>
      simp [Access.isNonzeroWrite]

/-- The latch of a disabled source channel is unchanged (R166, R173). -/
theorem rectRows_disabled_latches (H W : Nat) (s : State) :
    (s.control.enables.a = false → (rectRows H W s).aData = s.aData) ∧
    (s.control.enables.b = false → (rectRows H W s).bData = s.bData) ∧
    (s.control.enables.c = false → (rectRows H W s).cData = s.cData) ∧
    (s.control.enables.d = false → (rectRows H W s).mem = s.mem) := by
  have := rectRows_rel
    (fun s t => t.control = s.control ∧ (s.control.enables.a = false → t.aData = s.aData) ∧
      (s.control.enables.b = false → t.bData = s.bData) ∧ (s.control.enables.c = false → t.cData = s.cData) ∧
      (s.control.enables.d = false → t.mem = s.mem))
    (fun s => ⟨rfl, fun _ => rfl, fun _ => rfl, fun _ => rfl, fun _ => rfl⟩) ?_ ?_
    (fun s => ⟨rfl, fun _ => rfl, fun _ => rfl, fun _ => rfl, fun _ => rfl⟩) H W s
  · exact this.2
  · rintro s t u ⟨c1, a1, b1, d1, m1⟩ ⟨c2, a2, b2, d2, m2⟩
    rw [c1] at a2 b2 d2 m2
    exact ⟨c2.trans c1, fun h => (a2 h).trans (a1 h), fun h => (b2 h).trans (b1 h), fun h => (d2 h).trans (d1 h),
      fun h => (m2 h).trans (m1 h)⟩
  · intro x r
    obtain ⟨ha, hb, hc, -⟩ := rectColumn_latches x r
    obtain ⟨-, -, -, -, -, -, la, lb, lc, -⟩ := loadColumn_eq x r.st
    refine ⟨(rectColumn_keeps x r).control, fun h => ?_, fun h => ?_, fun h => ?_, fun h => ?_⟩
    · rw [ha, la, h, if_neg Bool.false_ne_true]
    · rw [hb, lb, h, if_neg Bool.false_ne_true]
    · rw [hc, lc, h, if_neg Bool.false_ne_true]
    · rw [rectColumn_mem, h, if_neg Bool.false_ne_true]

end Sys2Proof.Machine
end

