-- ==== Sys2Proof/Laws/Exec.lean ====
section
/-! SUPPORT. What a command and a step can do, said once: the two answers of a live and of a faulted state, the four
cases of `ADVANCE`, and the cases of a step (42_trigger.md, 60_exceptions.md). -/

namespace Sys2Proof.Machine

theorem whenLive_live {s : State} (h : s.Live) (k : State → Result) : whenLive s k = k s := by
  unfold whenLive
  rw [h]

theorem whenLive_faulted {s : State} {f : Fault} (h : s.fault = some f) (k : State → Result) :
    whenLive s k = .fault f := by
  unfold whenLive
  rw [h]

theorem runSetter_live {s : State} (h : s.Live) (f : State → State) : runSetter f s = .next (f s) :=
  whenLive_live h _

/-- A command that answers a next state was issued in a live state (R224). -/
theorem live_of_whenLive {s t : State} {k : State → Result} (h : whenLive s k = .next t) : s.Live := by
  unfold whenLive at h
  split at h
  · assumption
  · cases h

theorem next_inj {s t : State} (h : (Host.Outcome.next s : Result) = .next t) : s = t := by
  cases h
  rfl

/-- The update each setter makes (R100 to R120). -/
def setterUpdate : Instr → State → State
  | .setControl0 v => writeControl0 v
  | .setControl1 v => writeControl1 v
  | .setFirstWordMask v => fun s => { s with control := { s.control with firstMask := v } }
  | .setLastWordMask v => fun s => { s with control := { s.control with lastMask := v } }
  | .setSize v => writeSize v
  | .setMinterms v => fun s => { s with control := { s.control with minterms := mintermsField v } }
  | .setAData v => fun s => { s with aData := v }
  | .setBData v => fun s => { s with bData := v }
  | .setCData v => fun s => { s with cData := v }
  | .setAPtrHi v => setPointerHi .a v
  | .setAPtrLo v => setPointerLo .a v
  | .setBPtrHi v => setPointerHi .b v
  | .setBPtrLo v => setPointerLo .b v
  | .setCPtrHi v => setPointerHi .c v
  | .setCPtrLo v => setPointerLo .c v
  | .setDPtrHi v => setPointerHi .d v
  | .setDPtrLo v => setPointerLo .d v
  | .setAMod v => setModulo .a (moduloWord v)
  | .setBMod v => setModulo .b (moduloWord v)
  | .setCMod v => setModulo .c (moduloWord v)
  | .setDMod v => setModulo .d (moduloWord v)
  | .advance => id
  | .getStatus => id

/-- Every setter is `runSetter` of its update: it has no other way to act (R121). -/
theorem exec_setter (i : Instr) (h : i.isSetter = true) (s : State) :
    exec i s = runSetter (setterUpdate i) s := by
  cases i
  case advance => cases h
  case getStatus => cases h
  all_goals rfl

/-- A setter completes in every live state. -/
theorem exec_setter_live {i : Instr} (h : i.isSetter = true) {s : State} (hl : s.Live) :
    exec i s = .next (setterUpdate i s) := by
  rw [exec_setter i h]
  exact runSetter_live hl _

@[simp] theorem setterUpdate_fault (i : Instr) (s : State) : (setterUpdate i s).fault = s.fault := by
  cases i <;> rfl

/-- The two halves of a pointer are written independently (R109, R110). -/
theorem withLowHalf_withHighHalf (v w : Word) (p : Ptr) : withLowHalf w (withHighHalf v p) = v ++ w := by
  unfold withLowHalf withHighHalf
  apply BitVec.eq_of_getLsbD_eq
  intro i hi
  simp only [BitVec.getLsbD_append, BitVec.getLsbD_extractLsb']
  by_cases h : i < 16
  · simp [h]
  · simp [h, show i - 16 < 16 by omega]

theorem withHighHalf_withLowHalf (v w : Word) (p : Ptr) : withHighHalf v (withLowHalf w p) = v ++ w := by
  unfold withLowHalf withHighHalf
  apply BitVec.eq_of_getLsbD_eq
  intro i hi
  simp only [BitVec.getLsbD_append, BitVec.getLsbD_extractLsb']
  by_cases h : i < 16 <;> simp [h]

/-- In a faulted state every command ends in the fault (R224). -/
theorem exec_faulted {s : State} {f : Fault} (h : s.fault = some f) (i : Instr) : exec i s = .fault f := by
  cases hi : i.isSetter with
  | true => rw [exec_setter i hi]; exact whenLive_faulted h _
  | false =>
    cases i
    case advance => exact whenLive_faulted h (fun s => _)
    case getStatus => exact whenLive_faulted h (fun s => _)
    all_goals cases hi

/-- The transfer `ADVANCE` performs, from the state with the flag cleared (R140). -/
def performed (s : State) : State := respond (.performed true) (complete (transfer (clearNotZero s)))

/-- The three cases of `ADVANCE` in a live state (R140, R141, R221). -/
theorem execAdvance_live {s : State} (h : s.Live) :
    exec .advance s =
      if s.height = 0 then .next (respond (.performed false) s)
      else if patternedLine s then .next { s with fault := some .unsupportedPatternedLine }
      else .next (performed s) := by
  show execAdvance s = _
  unfold execAdvance
  rw [whenLive_live h]
  rfl

theorem execAdvance_rect {s : State} (h : s.RectReady) : exec .advance s = .next (performed s) := by
  obtain ⟨hl, hh, hm⟩ := h
  rw [execAdvance_live hl, if_neg hh, if_neg (by simp [patternedLine, hm])]

theorem execAdvance_line {s : State} (h : s.LineReady) : exec .advance s = .next (performed s) := by
  obtain ⟨hl, hh, -, hb⟩ := h
  rw [execAdvance_live hl, if_neg hh, if_neg (by simp [patternedLine, hb])]

/-- `ADVANCE` answers a next state in exactly these ways. -/
theorem execAdvance_next {s t : State} (h : exec .advance s = .next t) :
    s.Live ∧ ((s.height = 0 ∧ t = respond (.performed false) s) ∨
      (s.height ≠ 0 ∧ patternedLine s = true ∧ t = { s with fault := some .unsupportedPatternedLine }) ∨
      (s.height ≠ 0 ∧ patternedLine s = false ∧ t = performed s)) := by
  have hl : s.Live := live_of_whenLive (show execAdvance s = .next t from h)
  rw [execAdvance_live hl] at h
  refine ⟨hl, ?_⟩
  split at h
  · next h0 => exact .inl ⟨h0, (next_inj h).symm⟩
  · next h0 =>
    split at h
    · next hp => exact .inr (.inl ⟨h0, hp, (next_inj h).symm⟩)
    · next hp => exact .inr (.inr ⟨h0, by simpa using hp, (next_inj h).symm⟩)

theorem execGetStatus_live {s : State} (h : s.Live) :
    exec .getStatus s = .next (respond (.status (statusWord s)) s) := by
  show execGetStatus s = _
  unfold execGetStatus
  rw [whenLive_live h]

/-- Everything a command that answers a next state can do. -/
theorem exec_next {i : Instr} {s t : State} (h : exec i s = .next t) :
    s.Live ∧ ((i.isSetter = true ∧ t = setterUpdate i s) ∨
      (i = .getStatus ∧ t = respond (.status (statusWord s)) s) ∨
      (i = .advance ∧ s.height = 0 ∧ t = respond (.performed false) s) ∨
      (i = .advance ∧ s.height ≠ 0 ∧ patternedLine s = true ∧
        t = { s with fault := some .unsupportedPatternedLine }) ∨
      (i = .advance ∧ s.height ≠ 0 ∧ patternedLine s = false ∧ t = performed s)) := by
  cases hi : i.isSetter with
  | true =>
    have h' := h
    rw [exec_setter i hi] at h'
    have hl := live_of_whenLive h'
    rw [exec_setter_live hi hl] at h
    exact ⟨hl, .inl ⟨rfl, (next_inj h).symm⟩⟩
  | false =>
    cases i
    case advance =>
      obtain ⟨hl, ⟨h0, ht⟩ | ⟨h0, hp, ht⟩ | ⟨h0, hp, ht⟩⟩ := execAdvance_next h
      · exact ⟨hl, .inr (.inr (.inl ⟨rfl, h0, ht⟩))⟩
      · exact ⟨hl, .inr (.inr (.inr (.inl ⟨rfl, h0, hp, ht⟩)))⟩
      · exact ⟨hl, .inr (.inr (.inr (.inr ⟨rfl, h0, hp, ht⟩)))⟩
    case getStatus =>
      have hl : s.Live := live_of_whenLive (show execGetStatus s = .next t from h)
      rw [execGetStatus_live hl] at h
      exact ⟨hl, .inr (.inl ⟨rfl, (next_inj h).symm⟩)⟩
    all_goals cases hi

/-- A performed rectangular transfer, its parts named: the rows, then completion. -/
theorem performed_rect {s : State} (h : s.control.lineMode = false) :
    performed s = respond (.performed true) (complete (rectRows s.height s.control.width (clearNotZero s))) := by
  unfold performed transfer
  rw [show (clearNotZero s).control.lineMode = false from h, if_neg Bool.false_ne_true]
  rfl

/-- A performed line transfer, its parts named: the steps, then completion. -/
theorem performed_line {s : State} (h : s.control.lineMode = true) :
    performed s = respond (.performed true) (complete (lineSteps s.height (lineStart (clearNotZero s))).st) := by
  unfold performed transfer
  rw [show (clearNotZero s).control.lineMode = true from h, if_pos rfl]
  rfl

/-- What no performed transfer writes, in either mode (R20, R143). -/
theorem transfer_keeps (s : State) :
    (transfer s).control = s.control ∧ (transfer s).modulo = s.modulo ∧ (transfer s).shiftB = s.shiftB ∧
    (transfer s).fault = s.fault ∧ (transfer s).interrupts = s.interrupts ∧ (transfer s).responses = s.responses ∧
    (transfer s).inputs = s.inputs ∧ (transfer s).platform = s.platform := by
  unfold transfer
  split
  · have h := lineSteps_keeps s.height (lineStart s)
    exact ⟨h.control, h.modulo, h.shiftB, h.fault, h.interrupts, h.responses, h.inputs, h.platform⟩
  · have h := rectRows_keeps s.height s.control.width s
    exact ⟨h.control, h.modulo, h.shiftB, h.fault, h.interrupts, h.responses, h.inputs, h.platform⟩

/-- A transfer keeps the memory's form and bounds (R47). -/
theorem transfer_memInv (s : State) (h : s.MemInv) (ha : s.AccessInv) :
    (transfer s).MemInv ∧ (transfer s).AccessInv := by
  unfold transfer
  split
  · exact lineSteps_memInv s.height (lineStart s) h ha
  · exact rectRows_memInv s.height s.control.width s h ha

/-- What a performed `ADVANCE` does to everything but the datapath (R211). -/
theorem performed_eq (s : State) :
    (performed s).height = 0 ∧ (performed s).interrupts = s.platform.irqBlitter :: s.interrupts ∧
    (performed s).responses = .performed true :: s.responses ∧ (performed s).fault = s.fault ∧
    (performed s).control = s.control ∧ (performed s).modulo = s.modulo ∧ (performed s).shiftB = s.shiftB ∧
    (performed s).inputs = s.inputs ∧ (performed s).platform = s.platform := by
  obtain ⟨h1, h2, h3, h4, h5, h6, h7, h8⟩ := transfer_keeps (clearNotZero s)
  refine ⟨rfl, ?_, ?_, h4, h1, h2, h3, h7, h8⟩
  · show (transfer (clearNotZero s)).platform.irqBlitter :: (transfer (clearNotZero s)).interrupts = _
    rw [h8, h5]
    rfl
  · show .performed true :: (transfer (clearNotZero s)).responses = _
    rw [h6]
    rfl

/-- A step that answers a next state: silence, a host store, or a command word that decodes (R5). -/
theorem step_next {s t : State} (h : step s = .next t) :
    s.Live ∧ ((s.inputs = [] ∧ t = s) ∨
      (∃ p v rest, s.inputs = .store p v :: rest ∧ t = hostStore p v { s with inputs := rest }) ∨
      (∃ w rest i, s.inputs = .command w :: rest ∧ decode w = .ok i ∧
        exec i { s with inputs := rest } = .next t)) := by
  have hl : s.Live := live_of_whenLive (show step s = .next t from h)
  unfold step at h
  rw [whenLive_live hl, fetchEvent] at h
  refine ⟨hl, ?_⟩
  cases hi : s.inputs with
  | nil =>
    rw [hi] at h
    exact .inl ⟨rfl, (next_inj h).symm⟩
  | cons e rest =>
    rw [hi] at h
    cases e with
    | store p v => exact .inr (.inl ⟨p, v, rest, rfl, (next_inj h).symm⟩)
    | command w =>
      cases hd : decode w with
      | error e => simp only [hd] at h; cases h
      | ok i => simp only [hd] at h; exact .inr (.inr ⟨w, rest, i, rfl, hd, h⟩)

/-- A run of `n + 1` steps that answers is one step and then a run of `n`. -/
theorem run_next {n : Nat} {s t : Sys2Proof.core.State} (h : Host.Core.run Sys2Proof.core (n + 1) s = .next t) :
    ∃ u, step s = .next u ∧ Host.Core.run Sys2Proof.core n u = .next t := by
  unfold Host.Core.run at h
  cases hs : Sys2Proof.core.step s with
  | next u => rw [hs] at h; exact ⟨u, hs, h⟩
  | fault => rw [hs] at h; cases h
  | refused => rw [hs] at h; cases h

end Sys2Proof.Machine
end

