-- ==== Sys2Proof/Laws/Course.lean ====
section
/-! SUPPORT. The machine's transfers against the recurrences of Safety.lean: a column, a row end and a line step each
keep the match, and so does a whole transfer (44_rect_transfer.md R165, 45_line_draw.md R185). -/

namespace Sys2Proof.Machine

/-! ### Rectangular transfers -/

/-- A row in progress stands where the course of `s` stands before column `x` of row `y`. -/
structure RectMatches (s : State) (y x : Nat) (r : RowRun) : Prop where
  keeps : RectKeeps s r.st
  wf : s.control.enables.d = true → r.st.mem.wf = true
  aData : r.st.aData = (rectCourse s (y * s.control.width + x)).aData
  bData : r.st.bData = (rectCourse s (y * s.control.width + x)).bData
  cData : r.st.cData = (rectCourse s (y * s.control.width + x)).cData
  aAcc : r.st.aAcc = (rectCourse s (y * s.control.width + x)).aAcc
  bAcc : r.st.bAcc = (rectCourse s (y * s.control.width + x)).bAcc
  cells : ∀ c, readCell s.platform r.st.mem c = cellAfter s (rectCourse s (y * s.control.width + x)).stores c
  pointer : ∀ ch, s.control.enables.get ch = true → r.st.pointer.get ch = columnPointer s ch y x
  carry : r.carry = if x = 0 then s.control.fillCarry else (rectCourse s (y * s.control.width + x)).carry
  flag : r.st.notZeroFlag =
    (List.range (y * s.control.width + x)).any fun n => (rectCourse s (n + 1)).out != 0x0000#16
  accesses : r.st.accesses.reverse =
    s.accesses.reverse ++ (List.range (y * s.control.width + x)).flatMap (columnAccesses s)

/-- The match at entry, the flag cleared (R140). -/
theorem rectMatches_start (s : State) (h : s.control.enables.d = true → s.mem.wf = true) :
    RectMatches s 0 0 ⟨clearNotZero s, s.control.fillCarry⟩ where
  keeps := by constructor <;> rfl
  wf := h
  aData := by simp [rectCourse]
  bData := by simp [rectCourse]
  cData := by simp [rectCourse]
  aAcc := by simp [rectCourse]
  bAcc := by simp [rectCourse]
  cells := fun c => by simp [rectCourse, cellAfter]
  pointer := fun ch _ => (columnPointer_zero s ch).symm
  carry := by simp
  flag := by simp
  accesses := by simp

theorem colMask_eq (ct : Control) (x : Nat) :
    colMask ct x =
      (if x = 0 then ct.firstMask else 0xFFFF#16) &&& (if x + 1 = ct.width then ct.lastMask else 0xFFFF#16) := rfl

theorem fillStage_eq_filled (s : State) (c : Bool) (w : Word) : fillStage s.control c w = filled s c w := by
  unfold fillStage fillOn fillMode filled
  cases s.control.exclusiveFill <;> cases s.control.inclusiveFill <;> rfl

theorem columnPointer_next (s : State) (ch : Channel) (y x : Nat) :
    columnPointer s ch y (x + 1) = columnPointer s ch y x + increment s := by
  unfold columnPointer
  rw [increment_eq_scaled_one, BitVec.add_assoc, ← scaled_add, ← Nat.add_assoc, ofNat_add32]
  congr 2
  rw [BitVec.add_assoc, BitVec.add_assoc, BitVec.add_comm (BitVec.ofNat 32 1)]

theorem columnPointer_next_row (s : State) (ch : Channel) (y : Nat) :
    columnPointer s ch (y + 1) 0 = columnPointer s ch y s.control.width + scaled s (s.modulo.get ch) := by
  unfold columnPointer
  rw [BitVec.add_assoc, ← scaled_add, Nat.add_zero, Nat.succ_mul, ofNat_add32 y 1, BitVec.add_mul, BitVec.one_mul,
    BitVec.add_assoc]

section Column

variable {s : State} {y x : Nat} {r : RowRun}

theorem row_of_index (hx : x < s.control.width) : (y * s.control.width + x) / s.control.width = y := by
  rw [Nat.mul_comm, Nat.mul_add_div (by omega), Nat.div_eq_of_lt hx, Nat.add_zero]

theorem column_of_index (hx : x < s.control.width) : (y * s.control.width + x) % s.control.width = x := by
  rw [Nat.mul_comm, Nat.mul_add_mod, Nat.mod_eq_of_lt hx]

/-- The word a source channel holds after the fetches of a column (R166). -/
theorem RectMatches.fetched (m : RectMatches s y x r) (hx : x < s.control.width) (ch : Channel) (l : Word) :
    (if r.st.control.enables.get ch then wordAt r.st (r.st.pointer.get ch) else l) =
      columnWord s (rectCourse s (y * s.control.width + x)) ch l (y * s.control.width + x) := by
  unfold columnWord columnCell
  rw [m.keeps.control, row_of_index hx, column_of_index hx]
  cases he : s.control.enables.get ch with
  | false => rfl
  | true =>
    rw [if_pos rfl, if_pos rfl, wordAt, m.keeps.platform, m.cells, m.pointer ch he]

/-- The latches and accumulators after the fetches and the accumulate step of a column (R166, R151). -/
theorem RectMatches.loaded (m : RectMatches s y x r) (hx : x < s.control.width) :
    (loadColumn x r.st).aData = (rectCourse s (y * s.control.width + x + 1)).aData ∧
    (loadColumn x r.st).bData = (rectCourse s (y * s.control.width + x + 1)).bData ∧
    (loadColumn x r.st).cData = (rectCourse s (y * s.control.width + x + 1)).cData ∧
    (loadColumn x r.st).aAcc = (rectCourse s (y * s.control.width + x + 1)).aAcc ∧
    (loadColumn x r.st).bAcc = (rectCourse s (y * s.control.width + x + 1)).bAcc := by
  obtain ⟨-, -, -, -, -, -, ha, hb, hc, haa, hba⟩ := loadColumn_eq x r.st
  have fa : (if r.st.control.enables.a then wordAt r.st r.st.pointer.a else r.st.aData) = _ := m.fetched hx .a _
  have fb : (if r.st.control.enables.b then wordAt r.st r.st.pointer.b else r.st.bData) = _ := m.fetched hx .b _
  have fc : (if r.st.control.enables.c then wordAt r.st r.st.pointer.c else r.st.cData) = _ := m.fetched hx .c _
  have hmask : colMask r.st.control x = columnMask s (y * s.control.width + x) := by
    rw [m.keeps.control, colMask_eq, columnMask, column_of_index hx]
  rw [ha, hb, hc, haa, hba, fa, fb, fc, hmask, shiftIn_eq_append, shiftIn_eq_append, m.aAcc, m.bAcc, m.aData, m.bData,
    m.cData]
  exact ⟨rfl, rfl, rfl, rfl, rfl⟩

/-- The output word and the carry of a column (R167 to R169). -/
theorem RectMatches.output (m : RectMatches s y x r) (hx : x < s.control.width) :
    columnOut x r = ((rectCourse s (y * s.control.width + x + 1)).out,
      (rectCourse s (y * s.control.width + x + 1)).carry) := by
  obtain ⟨-, -, hc, ha, hb⟩ := m.loaded hx
  have hk := m.keeps.trans (loadColumn_keeps x r.st)
  have hl : logicOut (loadColumn x r.st) = combine s (rectCourse s (y * s.control.width + x + 1)).aAcc
      (rectCourse s (y * s.control.width + x + 1)).bAcc (rectCourse s (y * s.control.width + x + 1)).cData := by
    rw [logicOut, combine, hc, ha, hb, hk.control, hk.shiftA, hk.shiftB]
  rw [columnOut, hl, m.keeps.control, fillStage_eq_filled, m.carry]
  show _ = (filled s (if (y * s.control.width + x) % s.control.width = 0 then _ else _) _)
  rw [column_of_index hx]
  rfl

/-- A column keeps the match (R165). -/
theorem RectMatches.column (m : RectMatches s y x r) (hx : x < s.control.width) :
    RectMatches s y (x + 1) (rectColumn x r) := by
  have hi : y * s.control.width + (x + 1) = y * s.control.width + x + 1 := rfl
  have ho := m.output hx
  have hn : ∀ ch, columnCell s ch (y * s.control.width + x) = cellOf s.platform (columnPointer s ch y x) := by
    intro ch
    rw [columnCell, row_of_index hx, column_of_index hx]
  obtain ⟨ha, hb, hc, haa, hba⟩ := rectColumn_latches x r
  obtain ⟨la, lb, lc, laa, lba⟩ := m.loaded hx
  refine ⟨m.keeps.trans (rectColumn_keeps x r), ?_, by rw [ha, la, hi], by rw [hb, lb, hi], by rw [hc, lc, hi],
    by rw [haa, laa, hi], by rw [hba, lba, hi], ?_, ?_, ?_, ?_, ?_⟩
  · intro hd
    rw [rectColumn_mem, m.keeps.control, hd, if_pos rfl]
    exact wf_writeCell _ _ _ _ (m.wf hd)
  · intro c
    rw [rectColumn_mem, ho, m.keeps.control, m.keeps.platform, hi]
    show _ = cellAfter s (if s.control.enables.d then (columnCell s .d (y * s.control.width + x),
      (rectCourse s (y * s.control.width + x + 1)).out) :: (rectCourse s (y * s.control.width + x)).stores
      else (rectCourse s (y * s.control.width + x)).stores) c
    cases hd : s.control.enables.d with
    | false => exact m.cells c
    | true =>
      have hp := m.pointer .d hd
      rw [show r.st.pointer.get .d = r.st.pointer.d from rfl] at hp
      rw [if_pos rfl, if_pos rfl, readCell_writeCell _ _ _ _ _ (m.wf hd), m.cells, hp, cellAfter, hn]
  · intro ch he
    rw [rectColumn_pointer, m.keeps.control, he, if_pos rfl, m.pointer ch he, increment_congr m.keeps.control,
      columnPointer_next]
  · rw [show (rectColumn x r).carry = (columnOut x r).2 from rfl, ho, if_neg (Nat.succ_ne_zero x), hi]
  · rw [rectColumn_flag, m.flag, ho, hi, List.range_succ, List.any_append]
    simp
  · obtain ⟨-, -, -, -, -, -, fa, fb, fc, -⟩ := loadColumn_eq x r.st
    rw [la, m.keeps.control] at fa
    rw [lb, m.keeps.control] at fb
    rw [lc, m.keeps.control] at fc
    have pa : s.control.enables.a = true → r.st.pointer.a = _ := m.pointer .a
    have pb : s.control.enables.b = true → r.st.pointer.b = _ := m.pointer .b
    have pc : s.control.enables.c = true → r.st.pointer.c = _ := m.pointer .c
    have pd : s.control.enables.d = true → r.st.pointer.d = _ := m.pointer .d
    rw [hi, List.range_succ, List.flatMap_append, ← List.append_assoc s.accesses.reverse, ← m.accesses,
      rectColumn_accesses, loadColumn_accesses, ho, List.flatMap_cons, List.flatMap_nil, List.append_nil,
      columnAccesses, hn, hn, hn, hn, m.keeps.control, m.keeps.platform]
    rcases e1 : s.control.enables.a <;> rcases e2 : s.control.enables.b <;> rcases e3 : s.control.enables.c <;>
      rcases e4 : s.control.enables.d <;> simp_all

/-- All the columns of a row. -/
theorem RectMatches.columns (n : Nat) : ∀ {x : Nat} {r : RowRun}, RectMatches s y x r →
    x + n = s.control.width → RectMatches s y s.control.width (rectColumns n x r) := by
  induction n with
  | zero =>
    intro x r m h
    rw [← h]
    exact m
  | succ n ih =>
    intro x r m h
    exact ih (m.column (by omega)) (by omega)

/-- The row end moves the match to the start of the next row (R172, R137). -/
theorem RectMatches.nextRow (m : RectMatches s y s.control.width r) :
    RectMatches s (y + 1) 0 ⟨rowEnd r.st, s.control.fillCarry⟩ := by
  have hi : (y + 1) * s.control.width + 0 = y * s.control.width + s.control.width := by rw [Nat.succ_mul, Nat.add_zero]
  refine ⟨m.keeps.trans (rowEnd_keeps r.st), m.wf, ?_, ?_, ?_, ?_, ?_, ?_, ?_, by rw [if_pos rfl], ?_, ?_⟩ <;>
    try rw [hi]
  · exact m.aData
  · exact m.bData
  · exact m.cData
  · exact m.aAcc
  · exact m.bAcc
  · exact m.cells
  · intro ch he
    rw [rowEnd_get, rowPointer, m.keeps.control, he, if_pos rfl, m.pointer ch he, scaled_congr m.keeps.control,
      m.keeps.modulo, columnPointer_next_row]
  · exact m.flag
  · exact m.accesses

end Column

/-- A whole transfer keeps the match (R165). -/
theorem rectRows_matches {s : State} (H : Nat) : ∀ {y : Nat} {t : State},
    RectMatches s y 0 ⟨t, s.control.fillCarry⟩ →
    RectMatches s (y + H) 0 ⟨rectRows H s.control.width t, s.control.fillCarry⟩ := by
  induction H with
  | zero => intro y t m; exact m
  | succ H ih =>
    intro y t m
    have hf : t.control.fillCarry = s.control.fillCarry := by rw [m.keeps.control]
    have := ih (m.columns s.control.width (by omega)).nextRow
    rw [show y + (H + 1) = y + 1 + H by omega]
    rw [rectRows, rectRow, hf]
    exact this

/-- A rectangular `ADVANCE` ends where its course ends (R140, R165, R173). -/
theorem performed_rect_matches {s : State} (h : s.RectReady)
    (hw : s.control.enables.d = true → s.mem.wf = true) :
    ∃ r : State, RectMatches s s.height 0 ⟨r, s.control.fillCarry⟩ ∧
      exec .advance s = .next (respond (.performed true) (complete r)) := by
  have m := rectRows_matches s.height (rectMatches_start s hw)
  rw [Nat.zero_add] at m
  exact ⟨_, m, by rw [execAdvance_rect h, performed_rect h.2.2]⟩

/-! ### Line transfers -/

/-- A line in progress stands where the course of `s` stands before step `k`. -/
structure LineMatches (s : State) (k : Nat) (r : LineRun) : Prop where
  keeps : LineKeeps s r.st
  wf : r.st.mem.wf = true
  position : pixelPosition r.st = (lineCourse s k).position
  error : r.error = (lineCourse s k).error
  draw : r.draw = (lineCourse s k).draw
  cData : r.st.cData = (lineCourse s k).cData
  cells : ∀ c, readCell s.platform r.st.mem c = cellAfter s (lineCourse s k).stores c
  flag : r.st.notZeroFlag = (List.range k).any fun j =>
    (lineCourse s j).draw && (lineCourse s j).written s != 0x0000#16
  accesses : r.st.accesses.reverse = s.accesses.reverse ++ (List.range k).flatMap (stepAccesses s)

/-- The match at entry, the flag cleared (R140, R186, R187). -/
theorem lineMatches_start (s : State) (h : s.mem.wf = true) : LineMatches s 0 (lineStart (clearNotZero s)) where
  keeps := by constructor <;> rfl
  wf := h
  position := rfl
  error := rfl
  draw := rfl
  cData := rfl
  cells := fun _ => rfl
  flag := rfl
  accesses := by simp [lineStart]

/-- The word address and the bit place in a pixel position. -/
theorem pixelPosition_pointer (s : State) : (pixelPosition s).extractLsb' 4 32 = s.pointer.d := by
  have h := s.shiftA.isLt
  apply BitVec.eq_of_toNat_eq
  rw [BitVec.extractLsb'_toNat, pixelPosition_toNat, Nat.shiftRight_eq_div_pow]
  omega

theorem pixelPosition_shift (s : State) : (pixelPosition s).extractLsb' 0 4 = s.shiftA := by
  have h := s.shiftA.isLt
  apply BitVec.eq_of_toNat_eq
  rw [BitVec.extractLsb'_toNat, pixelPosition_toNat, Nat.shiftRight_zero]
  omega

/-- The step set as numbers (R190). -/
theorem stepVector_eq (s : State) (r : LineRun) (hc : r.st.control = s.control) :
    stepVector s r.error = (moveInt (movesOf r).1, moveInt (movesOf r).2) := by
  unfold stepVector movesOf lineMoves signMove
  rw [hc]
  cases s.control.lineDirection.getLsbD 2 <;> cases s.control.lineDirection.getLsbD 1 <;>
    cases s.control.lineDirection.getLsbD 0 <;> by_cases he : 0 ≤ r.error <;> simp [he, moveInt]

section Step

variable {s : State} {k : Nat} {r : LineRun}

/-- The cell and the two words of a plot (R188). -/
theorem LineMatches.plotted (m : LineMatches s k r) (hb : s.bData = 0xFFFF#16) :
    cellOf r.st.platform r.st.pointer.d = (lineCourse s k).cell s ∧
    wordAt r.st r.st.pointer.d = (lineCourse s k).readWord s ∧
    plotWord r.st (wordAt r.st r.st.pointer.d) = (lineCourse s k).written s := by
  have hcell : cellOf r.st.platform r.st.pointer.d = (lineCourse s k).cell s := by
    rw [LineCourse.cell, ← m.position, pixelPosition_pointer, m.keeps.platform]
  have hread : wordAt r.st r.st.pointer.d = (lineCourse s k).readWord s := by
    rw [wordAt, hcell, m.keeps.platform, m.cells, LineCourse.readWord]
  refine ⟨hcell, hread, ?_⟩
  rw [hread, plotWord, lineInputA, LineCourse.written, ← m.position, pixelPosition_shift, m.keeps.aData,
    m.keeps.bData, hb, m.keeps.control]

/-- A step keeps the match (R185). -/
theorem LineMatches.step (m : LineMatches s k r) (hb : s.bData = 0xFFFF#16) :
    LineMatches s (k + 1) (lineStep r) := by
  obtain ⟨hcell, hread, hwrite⟩ := m.plotted hb
  obtain ⟨hmem, hacc, hcd, hfl⟩ := lineStep_rest r
  obtain ⟨-, -, pc, pm, pa, pf⟩ := plot_eq r.st
  have hv := stepVector_eq s r m.keeps.control
  refine ⟨m.keeps.trans (lineStep_keeps r), ?_, ?_, ?_, ?_, ?_, ?_, ?_, ?_⟩
  · rw [hmem]
    split
    · rw [pm]; exact wf_writeCell _ _ _ _ m.wf
    · exact m.wf
  · rw [pixelPosition_lineStep, m.position, m.keeps.modulo]
    show _ = (lineCourse s k).position + _ + _
    rw [← m.error, hv]
    rfl
  · rw [lineStep_error, lineError, m.keeps.modulo, m.error]
    show _ = (lineCourse s k).error + _
    split <;> rfl
  · rw [lineStep_draw, m.draw, m.keeps.control]
    show _ = ((lineCourse s k).draw && !s.control.oneDot || decide ((stepVector s (lineCourse s k).error).2 ≠ 0))
    rw [← m.error, hv]
    cases (movesOf r).2 <;> rfl
  · rw [hcd, pc, hread, m.cData, m.draw]
    rfl
  · intro c
    show _ = cellAfter s (if (lineCourse s k).draw then _ else _) c
    rw [hmem, pm, hwrite, hcell, m.draw, m.keeps.platform]
    split
    · rw [readCell_writeCell _ _ _ _ _ m.wf, m.cells, cellAfter]
    · exact m.cells c
  · rw [hfl, pf, hwrite, m.draw, m.flag, List.range_succ, List.any_append]
    cases hd : (lineCourse s k).draw <;> simp [hd]
  · rw [hacc, pa, hwrite, hread, hcell, m.draw, List.range_succ, List.flatMap_append, ← List.append_assoc,
      ← m.accesses, List.flatMap_cons, List.flatMap_nil, List.append_nil, stepAccesses]
    split <;> simp

end Step

/-- A whole line keeps the match (R185). -/
theorem lineSteps_matches {s : State} (hb : s.bData = 0xFFFF#16) (n : Nat) : ∀ {k : Nat} {r : LineRun},
    LineMatches s k r → LineMatches s (k + n) (lineSteps n r) := by
  induction n with
  | zero => intro k r m; exact m
  | succ n ih =>
    intro k r m
    rw [show k + (n + 1) = k + 1 + n by omega]
    exact ih (m.step hb)

/-- A line `ADVANCE` ends where its course ends (R140, R185, R195). -/
theorem performed_line_matches {s : State} (h : s.LineReady) (hw : s.mem.wf = true) :
    ∃ r : LineRun, LineMatches s s.height r ∧
      exec .advance s = .next (respond (.performed true) (complete r.st)) := by
  have m := lineSteps_matches h.2.2.2 s.height (lineMatches_start s hw)
  rw [Nat.zero_add] at m
  exact ⟨_, m, by rw [execAdvance_line h, performed_line h.2.2.1]⟩

end Sys2Proof.Machine
end

