-- ==== Sys2Proof/Laws/Decode.lean ====
section
/-! SUPPORT. The laws of the decoder and the encoder: fields and word determine each other, and each writable
offset selects its own setter (30_encoding.md R81 to R83). -/

namespace Sys2Proof

theorem commandFields_ext (f g : CommandFields) (h1 : f.kind = g.kind) (h2 : f.zero = g.zero) (h3 : f.off = g.off)
    (h4 : f.data = g.data) : f = g := by
  cases f
  cases g
  simp_all

/-- Reading the fields of a word built from fields gives them back (R81). -/
@[simp] theorem fieldsOf_wordOf (f : CommandFields) : fieldsOf (wordOf f) = f := by
  apply commandFields_ext <;> simp only [fieldsOf, wordOf]
  all_goals
    ext i hi
    simp only [BitVec.getElem_extractLsb', BitVec.getLsbD_append]
  · rw [if_neg (by omega), if_neg (by omega), if_neg (by omega), BitVec.getLsbD_eq_getElem (by omega)]
    congr 1
    omega
  · rw [if_neg (by omega), if_neg (by omega), if_pos (by omega), BitVec.getLsbD_eq_getElem (by omega)]
    congr 1
    omega
  · rw [if_neg (by omega), if_pos (by omega), BitVec.getLsbD_eq_getElem (by omega)]
    congr 1
    omega
  · rw [if_pos (by omega), BitVec.getLsbD_eq_getElem (by omega)]
    congr 1
    omega

/-- A word is built from its own fields: no bit of it is dropped (R81). -/
@[simp] theorem wordOf_fieldsOf (w : Command) : wordOf (fieldsOf w) = w := by
  apply BitVec.eq_of_getLsbD_eq
  intro i hi
  simp only [wordOf, fieldsOf, BitVec.getLsbD_append, BitVec.getLsbD_extractLsb']
  split
  · next h => simp [h]
  · split
    · next h => simp only [h, decide_true, Bool.true_and]; congr 1; omega
    · split
      · next h => simp only [h, decide_true, Bool.true_and]; congr 1; omega
      · next h =>
        rw [decide_eq_true (show i - 16 - 9 - 5 < 2 by omega), Bool.true_and]
        congr 1
        omega

/-- Two words with the same fields are the same word. -/
theorem fieldsOf_injective (w w' : Command) (h : fieldsOf w = fieldsOf w') : w = w' := by
  rw [← wordOf_fieldsOf w, ← wordOf_fieldsOf w', h]

/-- The fields of a word given as its upper half and its operand (R81). -/
theorem fieldsOf_append (hi v : Word) :
    fieldsOf (hi ++ v) = ⟨hi.extractLsb' 14 2, hi.extractLsb' 9 5, hi.extractLsb' 0 9, v⟩ := by
  apply commandFields_ext <;> simp only [fieldsOf]
  all_goals
    apply BitVec.eq_of_getLsbD_eq
    intro i hi
    simp only [BitVec.getLsbD_extractLsb', BitVec.getLsbD_append, hi, decide_true, Bool.true_and, Nat.zero_add]
  · rw [if_neg (by omega)]; congr 1; omega
  · rw [if_neg (by omega)]; congr 1; omega
  · rw [if_neg (by omega)]; congr 1; omega
  · rw [if_pos trivial]

/-- Decoding a word of a literal upper half: what is left is a computation, whatever the operand. -/
theorem decode_append (hi v : Word) :
    decode (hi ++ v) =
      decodeFields regLayout ⟨hi.extractLsb' 14 2, hi.extractLsb' 9 5, hi.extractLsb' 0 9, v⟩ := by
  rw [decode, fieldsOf_append]

/-- The decoder reads an encoded command through its fields. -/
theorem decode_encode_fields (i : Instr) : decode (encode i) = decodeFields regLayout (fieldsFor regLayout i) := by
  rw [decode, encode, fieldsOf_wordOf]

/-- One link of the offset chain: this setter, or the rest of the chain. -/
theorem chain_link {c : Prop} [Decidable c] {a i : Instr} {x : Option Instr}
    (h : (if c then some a else x) = some i) : (c ∧ a = i) ∨ x = some i := by
  by_cases hc : c
  · rw [if_pos hc] at h
    exact .inl ⟨hc, Option.some.inj h⟩
  · rw [if_neg hc] at h
    exact .inr h

/-- A setter found at an offset carries that offset and its operand: no neighbour is taken for it. -/
theorem setterAt_fields (off : BitVec 9) (v : Word) (i : Instr) (h : setterAt regLayout off v = some i) :
    fieldsFor regLayout i = writeFields off v := by
  unfold setterAt at h
  iterate 21 rcases chain_link h with ⟨rfl, rfl⟩ | h; · rfl
  exact absurd h (by simp)

end Sys2Proof
end

