-- ==== Sys2Proof/Laws/PerInstr.lean ====
section
/-! SUPPORT. Statements about each command as syntax, one lemma per constructor of Instr (LAWS.json). -/

namespace Sys2Proof.Laws.RoundTrip

/-- The command is well formed, its word has well-formed fields, and the word decodes to it. -/
def Statement (i : Instr) : Prop :=
  i.wellFormed = true ∧ (fieldsOf (encode i)).wellFormed regLayout = true ∧ decode (encode i) = .ok i

theorem of_fields (i : Instr) (h1 : i.wellFormed = true) (h2 : (fieldsFor regLayout i).wellFormed regLayout = true)
    (h3 : decodeFields regLayout (fieldsFor regLayout i) = .ok i) : Statement i :=
  ⟨h1, by rw [encode, fieldsOf_wordOf]; exact h2, by rw [decode_encode_fields]; exact h3⟩

theorem setControl0 (v : Word) : Statement (.setControl0 v) := of_fields _ rfl rfl rfl

theorem setControl1 (v : Word) : Statement (.setControl1 v) := of_fields _ rfl rfl rfl

theorem setFirstWordMask (v : Word) : Statement (.setFirstWordMask v) := of_fields _ rfl rfl rfl

theorem setLastWordMask (v : Word) : Statement (.setLastWordMask v) := of_fields _ rfl rfl rfl

theorem setSize (v : Word) : Statement (.setSize v) := of_fields _ rfl rfl rfl

theorem setMinterms (v : Word) : Statement (.setMinterms v) := of_fields _ rfl rfl rfl

theorem setAData (v : Word) : Statement (.setAData v) := of_fields _ rfl rfl rfl

theorem setBData (v : Word) : Statement (.setBData v) := of_fields _ rfl rfl rfl

theorem setCData (v : Word) : Statement (.setCData v) := of_fields _ rfl rfl rfl

theorem setAPtrHi (v : Word) : Statement (.setAPtrHi v) := of_fields _ rfl rfl rfl

theorem setAPtrLo (v : Word) : Statement (.setAPtrLo v) := of_fields _ rfl rfl rfl

theorem setBPtrHi (v : Word) : Statement (.setBPtrHi v) := of_fields _ rfl rfl rfl

theorem setBPtrLo (v : Word) : Statement (.setBPtrLo v) := of_fields _ rfl rfl rfl

theorem setCPtrHi (v : Word) : Statement (.setCPtrHi v) := of_fields _ rfl rfl rfl

theorem setCPtrLo (v : Word) : Statement (.setCPtrLo v) := of_fields _ rfl rfl rfl

theorem setDPtrHi (v : Word) : Statement (.setDPtrHi v) := of_fields _ rfl rfl rfl

theorem setDPtrLo (v : Word) : Statement (.setDPtrLo v) := of_fields _ rfl rfl rfl

theorem setAMod (v : Word) : Statement (.setAMod v) := of_fields _ rfl rfl rfl

theorem setBMod (v : Word) : Statement (.setBMod v) := of_fields _ rfl rfl rfl

theorem setCMod (v : Word) : Statement (.setCMod v) := of_fields _ rfl rfl rfl

theorem setDMod (v : Word) : Statement (.setDMod v) := of_fields _ rfl rfl rfl

theorem advance : Statement .advance := of_fields _ rfl rfl rfl

theorem getStatus : Statement .getStatus := of_fields _ rfl rfl rfl

end Sys2Proof.Laws.RoundTrip
end

