-- ==== Sys2Proof/Tests/Slice0.lean ====
section
/-! SUPPORT. The model's own tests: words and results written out from the spec (95_test_vectors.md unless a rule is
named), and for every obligation with hypotheses a witness that meets them. -/

open Sys2Proof Sys2Proof.Machine

namespace Sys2Proof.Tests

/-! ### Helpers -/

def isNext : Result → Bool
  | .next _ => true
  | .fault _ => false
  | .refused _ => false

/-- The state a result answers, reset where it answers none. -/
def after : Result → State
  | .next t => t
  | .fault _ => State.reset
  | .refused _ => State.reset

theorem next_after {r : Result} (h : isNext r = true) : r = .next (after r) := by
  cases r
  · rfl
  · cases h
  · cases h

/-- Reset with memory filled, words in big-endian order (R64). -/
def withWords (ws : List (Nat × Word)) : State :=
  { State.reset with mem := ws.foldl (fun m w => writeCell resetPlatform m w.1 w.2) [] }

/-- A rectangular transfer armed: enables, table, mode word, masks, A and D pointers, size. -/
def rectState (ws : List (Nat × Word)) (c0 c1 first last : Word) (a d : Ptr) (size : Word) : State :=
  let s := writeSize size (writeControl1 c1 (writeControl0 c0 (withWords ws)))
  { s with
    control := { s.control with firstMask := first, lastMask := last }
    pointer := { s.pointer with a := a, d := d } }

/-- A line armed: the common set-up of V-LINE-1 to V-LINE-3 with its two control words, B latch and D pointer. -/
def lineState (ws : List (Nat × Word)) (c0 c1 b : Word) (d : Ptr) (size : Word) : State :=
  let s := writeSize size (writeControl1 c1 (writeControl0 c0 (withWords ws)))
  { s with
    aData := 0x8000#16
    bData := b
    pointer := { s.pointer with a := 0x0000FFFF#32, d := d }
    modulo := { s.modulo with a := 0xFFFFFFFA#32, b := 0x00000004#32, c := 0x00000010#32 } }

/-- P1 before command 10. -/
def p1 : State :=
  rectState [(0x100, 0xBEEF#16), (0x200, 0x1234#16)] 0x09F0#16 0x0000#16 0xFFFF#16 0xFFFF#16 0x100#32 0x200#32 0x0041#16

/-- V-FILL-1 before `ADVANCE`. -/
def vFill1 : State :=
  rectState [(0x100, 0x0100#16), (0x101, 0x0810#16)] 0x09F0#16 0x000A#16 0xFFFF#16 0xFFFF#16 0x101#32 0x201#32 0x0042#16

/-- S1 before `ADVANCE`. -/
def s1 : State := rectState [] 0x0101#16 0x0000#16 0x0000#16 0x0000#16 0x0#32 0x200#32 0x0082#16

/-- P3 before command 12. -/
def p3 : State := lineState [(0x400, 0x0F00#16)] 0xEBCA#16 0x0011#16 0xFFFF#16 0x400#32 0x0182#16

/-- V-LINE-3 before `ADVANCE`. -/
def vLine3 : State := lineState [] 0x1B4A#16 0x000F#16 0xFFFF#16 0x440#32 0x0182#16

/-- V-LINE-6: P3 with `SET_B_DATA 0xFFFE`. -/
def vLine6 : State := lineState [(0x400, 0x0F00#16)] 0xEBCA#16 0x0011#16 0xFFFE#16 0x400#32 0x0182#16

/-- A marked state. -/
def faulted : State := { State.reset with fault := some .unsupportedPatternedLine }

/-! ### Well-formedness: an ill-formed word for each check (R81, R92 (c)) -/

theorem test_wf_command : (fieldsOf 0x004009F0#32).wellFormed regLayout = true := by decide

theorem test_wf_refuses_kind : (CommandFields.mk 3#2 0#5 0#9 0#16).wellFormed regLayout = false ∧
    (CommandFields.mk 3#2 0#5 0#9 0#16).kindOk = false := by decide

theorem test_wf_refuses_zero_field : (CommandFields.mk 0#2 1#5 0x040#9 0#16).wellFormed regLayout = false ∧
    (CommandFields.mk 0#2 1#5 0x040#9 0#16).zeroOk = false := by decide

theorem test_wf_refuses_write_offset : (CommandFields.mk 0#2 0#5 0x05C#9 0#16).wellFormed regLayout = false ∧
    (CommandFields.mk 0#2 0#5 0x05C#9 0#16).offOk regLayout = false ∧
    (CommandFields.mk 0#2 0#5 0x041#9 0#16).offOk regLayout = false ∧
    (CommandFields.mk 0#2 0#5 0x002#9 0#16).offOk regLayout = false := by decide

theorem test_wf_refuses_read_offset : (CommandFields.mk 1#2 0#5 0x040#9 0#16).wellFormed regLayout = false ∧
    (CommandFields.mk 1#2 0#5 0x040#9 0#16).offOk regLayout = false := by decide

theorem test_wf_refuses_trigger_offset : (CommandFields.mk 2#2 0#5 0x001#9 0#16).offOk regLayout = false := by decide

theorem test_wf_refuses_read_data : (CommandFields.mk 1#2 0#5 0x002#9 1#16).wellFormed regLayout = false ∧
    (CommandFields.mk 1#2 0#5 0x002#9 1#16).dataOk = false := by decide

theorem test_wf_refuses_trigger_data : (CommandFields.mk 2#2 0#5 0x000#9 1#16).wellFormed regLayout = false ∧
    (CommandFields.mk 2#2 0#5 0x000#9 1#16).dataOk = false := by decide

/-! ### Decoding: a word of every command, from R81 (kind, zero, offset, data) and R83 (the offsets) -/

theorem test_decode_setControl0 :
    decode 0b00_00000_001000000_0000100111110000#32 = .ok (.setControl0 0x09F0#16) := by decide

theorem test_decode_setControl1 :
    decode 0b00_00000_001000010_0000000000001010#32 = .ok (.setControl1 0x000A#16) := by decide

theorem test_decode_setFirstWordMask :
    decode 0b00_00000_001000100_0000111111111111#32 = .ok (.setFirstWordMask 0x0FFF#16) := by decide

theorem test_decode_setLastWordMask :
    decode 0b00_00000_001000110_1111111100000000#32 = .ok (.setLastWordMask 0xFF00#16) := by decide

theorem test_decode_setCPtrHi : decode 0b00_00000_001001000_0000000000000001#32 = .ok (.setCPtrHi 1#16) := by decide

theorem test_decode_setCPtrLo :
    decode 0b00_00000_001001010_0000001100000000#32 = .ok (.setCPtrLo 0x0300#16) := by decide

theorem test_decode_setBPtrHi : decode 0b00_00000_001001100_0000000000000010#32 = .ok (.setBPtrHi 2#16) := by decide

theorem test_decode_setBPtrLo : decode 0b00_00000_001001110_1000000000000000#32 = .ok (.setBPtrLo 0x8000#16) := by decide

theorem test_decode_setAPtrHi : decode 0b00_00000_001010000_0000000000000100#32 = .ok (.setAPtrHi 4#16) := by decide

theorem test_decode_setAPtrLo :
    decode 0b00_00000_001010010_0000000100000000#32 = .ok (.setAPtrLo 0x0100#16) := by decide

theorem test_decode_setDPtrHi : decode 0b00_00000_001010100_0000000000001000#32 = .ok (.setDPtrHi 8#16) := by decide

theorem test_decode_setDPtrLo :
    decode 0b00_00000_001010110_0000001000000000#32 = .ok (.setDPtrLo 0x0200#16) := by decide

theorem test_decode_setSize : decode 0b00_00000_001011000_0000000001000001#32 = .ok (.setSize 0x0041#16) := by decide

theorem test_decode_setMinterms :
    decode 0b00_00000_001011010_0001001011001010#32 = .ok (.setMinterms 0x12CA#16) := by decide

theorem test_decode_setCMod : decode 0b00_00000_001100000_0000000000010000#32 = .ok (.setCMod 0x0010#16) := by decide

theorem test_decode_setBMod : decode 0b00_00000_001100010_0000000000000100#32 = .ok (.setBMod 0x0004#16) := by decide

theorem test_decode_setAMod : decode 0b00_00000_001100100_1111111111111010#32 = .ok (.setAMod 0xFFFA#16) := by decide

theorem test_decode_setDMod : decode 0b00_00000_001100110_0000000000000010#32 = .ok (.setDMod 0x0002#16) := by decide

theorem test_decode_setCData : decode 0b00_00000_001110000_0001001000110100#32 = .ok (.setCData 0x1234#16) := by decide

theorem test_decode_setBData : decode 0b00_00000_001110010_1111111111111110#32 = .ok (.setBData 0xFFFE#16) := by decide

theorem test_decode_setAData : decode 0b00_00000_001110100_1000000000000000#32 = .ok (.setAData 0x8000#16) := by decide

theorem test_decode_getStatus : decode 0b01_00000_000000010_0000000000000000#32 = .ok .getStatus := by decide

theorem test_decode_advance : decode 0b10_00000_000000000_0000000000000000#32 = .ok .advance := by decide

/-- The refused words of 95_test_vectors.md 2.1. -/
theorem test_decode_refuses : decode 0x80000001#32 = .error .triggerBits ∧ decode 0x40020001#32 = .error .readData ∧
    decode 0x40400000#32 = .error .readOffset ∧ decode 0x00020000#32 = .error .writeOffset ∧
    decode 0x005C0000#32 = .error .writeOffset ∧ decode 0x005E0000#32 = .error .writeOffset ∧
    decode 0x00680000#32 = .error .writeOffset ∧ decode 0x00760000#32 = .error .writeOffset ∧
    decode 0x00410000#32 = .error .writeOffset ∧ decode 0x02400000#32 = .error .zeroField ∧
    decode 0xC0000000#32 = .error .reservedKind := by decide

/-- The encoder, against the words of P1 and P3. -/
theorem test_encode : encode (.setDPtrLo 0x0200#16) = 0x00560200#32 ∧ encode (.setBMod 0x0004#16) = 0x00620004#32 ∧
    encode .getStatus = 0x40020000#32 ∧ encode .advance = 0x80000000#32 := by decide

/-- Command-stream text (R94). -/
theorem test_command_text : commandText (.setControl0 0x09F0#16) = "SET_CONTROL0 0x09F0" ∧
    commandText .advance = "ADVANCE" ∧ responseText (.status 0x6000#16) = "0x6000" ∧
    responseText (.performed true) = "1" := by decide

/-! ### Setters (95_test_vectors.md 2.2) -/

theorem test_setControl0 :
    (after (exec (.setControl0 0x49F0#16) State.reset)).shiftA = 4#4 ∧
    (after (exec (.setControl0 0x49F0#16) State.reset)).control.enables = ⟨true, false, false, true⟩ ∧
    (after (exec (.setControl0 0x49F0#16) State.reset)).control.minterms = 0xF0#8 := by decide

theorem test_setControl1 :
    (after (exec (.setControl1 0x0016#16) State.reset)).control =
      { State.reset.control with
        lineDirection := 0b101#3, exclusiveFill := true, fillCarry := true, oneDot := true } ∧
    (after (exec (.setControl1 0x8048#16) State.reset)).control =
      { State.reset.control with lineSign := .minus, inclusiveFill := true, lineDirection := 0b010#3 } ∧
    (after (exec (.setControl1 0x8048#16) State.reset)).shiftB = 8#4 := by decide

theorem test_setControl1_exclusive_wins_and_ignored_bits :
    (after (exec (.setControl1 0x001A#16) State.reset)).control.inclusiveFill = false ∧
    (after (exec (.setControl1 0x001A#16) State.reset)).control.exclusiveFill = true ∧
    after (exec (.setControl1 0x0FA0#16) State.reset) = State.reset := by decide

theorem test_setFirstWordMask :
    (after (exec (.setFirstWordMask 0x0FFF#16) State.reset)).control =
      { State.reset.control with firstMask := 0x0FFF#16 } := by decide

theorem test_setLastWordMask :
    (after (exec (.setLastWordMask 0xFF00#16) State.reset)).control =
      { State.reset.control with lastMask := 0xFF00#16 } := by decide

theorem test_setSize :
    (after (exec (.setSize 0x003F#16) State.reset)).height = 1024 ∧
    (after (exec (.setSize 0x003F#16) State.reset)).control.width = 63 ∧
    (after (exec (.setSize 0x0040#16) State.reset)).height = 1 ∧
    (after (exec (.setSize 0x0040#16) State.reset)).control.width = 64 := by decide

theorem test_setMinterms : (after (exec (.setMinterms 0x12CA#16) p1)).control =
    { p1.control with minterms := 0xCA#8 } := by decide

theorem test_setAPtrHi : (after (exec (.setAPtrHi 0xFFFF#16) { State.reset with
    pointer := ⟨0x00018000#32, 0#32, 0#32, 0#32⟩ })).pointer = ⟨0xFFFF8000#32, 0#32, 0#32, 0#32⟩ := by decide

theorem test_setAPtrLo : (after (exec (.setAPtrLo 0x8000#16) { State.reset with
    pointer := ⟨0x00010001#32, 0#32, 0#32, 0#32⟩ })).pointer = ⟨0x00018000#32, 0#32, 0#32, 0#32⟩ := by decide

theorem test_setBPtrHi : (after (exec (.setBPtrHi 0xFFFF#16) { State.reset with
    pointer := ⟨0#32, 0x00018000#32, 0#32, 0#32⟩ })).pointer = ⟨0#32, 0xFFFF8000#32, 0#32, 0#32⟩ := by decide

theorem test_setBPtrLo : (after (exec (.setBPtrLo 0x8000#16) { State.reset with
    pointer := ⟨0#32, 0x00010001#32, 0#32, 0#32⟩ })).pointer = ⟨0#32, 0x00018000#32, 0#32, 0#32⟩ := by decide

theorem test_setCPtrHi : (after (exec (.setCPtrHi 0xFFFF#16) { State.reset with
    pointer := ⟨0#32, 0#32, 0x00018000#32, 0#32⟩ })).pointer = ⟨0#32, 0#32, 0xFFFF8000#32, 0#32⟩ := by decide

theorem test_setCPtrLo : (after (exec (.setCPtrLo 0x8000#16) { State.reset with
    pointer := ⟨0#32, 0#32, 0x00010001#32, 0#32⟩ })).pointer = ⟨0#32, 0#32, 0x00018000#32, 0#32⟩ := by decide

theorem test_setDPtrHi : (after (exec (.setDPtrHi 0xFFFF#16) { State.reset with
    pointer := ⟨0#32, 0#32, 0#32, 0x00018000#32⟩ })).pointer = ⟨0#32, 0#32, 0#32, 0xFFFF8000#32⟩ := by decide

theorem test_setDPtrLo : (after (exec (.setDPtrLo 0x8000#16) { State.reset with
    pointer := ⟨0#32, 0#32, 0#32, 0x00010001#32⟩ })).pointer = ⟨0#32, 0#32, 0#32, 0x00018000#32⟩ := by decide

theorem test_setAMod : (after (exec (.setAMod 0xFFFE#16) State.reset)).modulo =
    ⟨0xFFFFFFFE#32, 0#32, 0#32, 0#32⟩ := by decide

theorem test_setBMod : (after (exec (.setBMod 0x8000#16) State.reset)).modulo =
    ⟨0#32, 0xFFFF8000#32, 0#32, 0#32⟩ := by decide

theorem test_setCMod : (after (exec (.setCMod 0x7FFF#16) State.reset)).modulo =
    ⟨0#32, 0#32, 0x00007FFF#32, 0#32⟩ := by decide

theorem test_setDMod : (after (exec (.setDMod 0x0028#16) State.reset)).modulo =
    ⟨0#32, 0#32, 0#32, 0x00000028#32⟩ := by decide

theorem test_setAData : after (exec (.setAData 0x8000#16) State.reset) =
    { State.reset with aData := 0x8000#16 } := by decide

theorem test_setBData : after (exec (.setBData 0xFFFF#16) State.reset) =
    { State.reset with bData := 0xFFFF#16 } := by decide

theorem test_setCData : after (exec (.setCData 0x1234#16) State.reset) =
    { State.reset with cData := 0x1234#16 } := by decide

/-! ### The datapath (95_test_vectors.md 2.3 to 2.5) -/

theorem test_fill_word : fillWord .inclusive false 0x0810#16 = (0x0FF0#16, false) ∧
    fillWord .exclusive false 0x0810#16 = (0x07F0#16, false) ∧
    fillWord .inclusive true 0x0810#16 = (0xF81F#16, true) ∧
    fillWord .exclusive true 0x0810#16 = (0xF80F#16, true) ∧
    fillWord .inclusive true 0x0100#16 = (0x01FF#16, false) ∧
    fillWord .exclusive true 0x0100#16 = (0x00FF#16, false) ∧
    fillWord .exclusive true 0xFFFF#16 = (0xAAAA#16, true) := by decide +kernel

theorem test_fill_nibble : fillNibble .exclusive false 0x5#4 = (0x3#4, false) ∧
    fillNibble .exclusive true 0x5#4 = (0xC#4, true) ∧ fillNibble .inclusive true 0x2#4 = (0x3#4, false) ∧
    fillNibble .inclusive true 0xF#4 = (0xF#4, true) := by decide

theorem test_barrel : barrel false 0x12345678#32 15#4 = 0x2468#16 ∧ barrel true 0x12345678#32 15#4 = 0x091A#16 ∧
    barrel false 0x56781234#32 4#4 = 0x8123#16 ∧ barrel true 0x56781234#32 4#4 = 0x2345#16 ∧
    barrel false 0xFFFF0000#32 1#4 = 0x8000#16 ∧ barrel true 0xFFFF0000#32 1#4 = 0x0001#16 ∧
    barrel false 0x12345678#32 0#4 = 0x5678#16 ∧ barrel true 0x12345678#32 0#4 = 0x5678#16 := by decide

theorem test_minterm : minterm 0xFF00#16 0xF0F0#16 0xCCCC#16 0x1E#8 = 0x03FC#16 ∧
    minterm 0xFF00#16 0xF0F0#16 0xCCCC#16 0x4A#8 = 0x30CC#16 ∧
    minterm 0xFF00#16 0xF0F0#16 0xCCCC#16 0xCA#8 = 0xF0CC#16 ∧
    minterm 0x0001#16 0x0000#16 0x0001#16 0x20#8 = 0x0001#16 := by decide

/-! ### ADVANCE and GET_STATUS -/

/-- V-FILL-1. -/
theorem test_advance_rect :
    (after (exec .advance vFill1)).accesses.reverse =
      [.read 0x101 0x0810#16, .write 0x201 0x0FF0#16, .read 0x100 0x0100#16, .write 0x200 0xFF00#16] ∧
    (after (exec .advance vFill1)).pointer = ⟨0xFF#32, 0#32, 0#32, 0x1FF#32⟩ ∧
    (after (exec .advance vFill1)).aAcc = 0x08100100#32 ∧
    (after (exec .advance vFill1)).interrupts = [0x0040] := by decide +kernel

/-- V-LINE-3: all six steps plot, the x position wraps to bit 15 of the word before. -/
theorem test_advance_line :
    (after (exec .advance vLine3)).accesses.reverse =
      [.read 0x440 0x0000#16, .write 0x440 0x4000#16, .read 0x430 0x0000#16, .write 0x430 0x4000#16,
       .read 0x420 0x0000#16, .write 0x420 0x8000#16, .read 0x410 0x0000#16, .write 0x410 0x8000#16,
       .read 0x3FF 0x0000#16, .write 0x3FF 0x0001#16, .read 0x3EF 0x0000#16, .write 0x3EF 0x0001#16] ∧
    (after (exec .advance vLine3)).pointer.d = 0x3DF#32 ∧ (after (exec .advance vLine3)).shiftA = 15#4 := by
  decide +kernel

/-- P1 commands 10 and 12. -/
theorem test_getStatus : (after (exec .getStatus p1)).responses = [.status 0x6000#16] ∧
    (after (exec .getStatus (after (exec .advance p1)))).responses = [.status 0x0000#16, .performed true] := by decide

/-! ### Witnesses: for every statement with hypotheses, states and operands that meet them all -/

theorem witness_DecodeAndEncodeAgree : (Instr.setDMod 0xFFFF#16).wellFormed = true ∧
    decode 0x0066FFFF#32 = .ok (.setDMod 0xFFFF#16) := by decide

theorem witness_DecoderMatchesOpcodeTable : decode 0x0040FFFF#32 = .ok (.setControl0 0xFFFF#16) ∧
    (∃ r ∈ opcodeRows, 0x0040FFFF#32 &&& r.mask = r.pattern) ∧
    ∃ r ∈ opcodeRows, 0x80000000#32 &&& r.mask = r.pattern := by decide +kernel

/-- Each clause of the list at its edge, and two accepted words beside them. -/
theorem witness_RefusedWordsAreThoseListed : decode 0xC0000000#32 = .error .reservedKind ∧
    decode 0x02400000#32 = .error .zeroField ∧ decode 0x003E0000#32 = .error .writeOffset ∧
    decode 0x00760000#32 = .error .writeOffset ∧ decode 0x00740000#32 = .ok (.setAData 0#16) ∧
    decode 0x40000000#32 = .error .readOffset ∧ decode 0x40020001#32 = .error .readData ∧
    decode 0x81000000#32 = .error .triggerBits ∧ decode 0x80000000#32 = .ok .advance := by decide

theorem witness_StepRunsTheCommandWord :
    { State.reset with inputs := [.command 0x40020000#32] }.Live ∧ decode 0x40020000#32 = .ok .getStatus ∧
    decode 0xC0000000#32 = .error .reservedKind ∧ decodeTableWord 32 0x40020000 = some .getStatus ∧
    step ({ State.reset with inputs := [.command 0xC0000000#32] }) = .refused (.notACommand .reservedKind) :=
  ⟨by decide, by decide, by decide, by decide, rfl⟩

theorem witness_HostStoreChangesOneCell :
    { p1 with inputs := [.store 0xFFFFFFFF#32 0x1234#16] }.Live ∧ p1.mem.wf = true ∧
    cellOf p1.platform 0xFFFFFFFF#32 = 0xFFF ∧
    wordAt (after (step { p1 with inputs := [.store 0xFFFFFFFF#32 0x1234#16] })) 0xFFF#32 = 0x1234#16 ∧
    p1.Live ∧ p1.inputs = [] := by decide

theorem witness_FaultedStateHasNoStep : faulted.fault = some .unsupportedPatternedLine ∧
    isNext (step { faulted with inputs := [.command 0x80000000#32] }) = false := by decide

/-- SetControl0WritesItsFields, SetControl1WritesItsFields, MaskAndMintermSettersWriteTheirField, SetSizeArmsTheEngine,
DataSettersWriteTheirLatch, PointerSettersWriteOneHalf and ModuloSettersSignExtend ask for a live state and nothing
else of it or of the operand. -/
theorem witness_setters_live : State.reset.Live ∧ p1.Live ∧ p3.Live := by decide

theorem witness_SetSizeArmsTheEngine :
    (after (exec (.setSize 0x0000#16) State.reset)).height = 1024 ∧
    (after (exec (.setSize 0x0000#16) State.reset)).control.width = 64 ∧
    (after (exec (.setSize 0xFFFF#16) State.reset)).height = 1023 ∧
    (after (exec (.setSize 0xFFFF#16) State.reset)).control.width = 63 ∧
    (after (exec (.setSize 0x0041#16) State.reset)).height = 1 ∧
    (after (exec (.setSize 0x0041#16) State.reset)).control.width = 1 := by decide

theorem witness_SettersHaveNoSideEffect : (Instr.setControl0 0#16).isSetter = true ∧ p1.Live ∧
    (Instr.setControl0 0#16).mnemonic ≠ "SET_SIZE" := by decide

/-- The two halves of a pointer; the two writers of the truth table; a size. -/
theorem witness_SettersOfDifferentElementsCommute :
    (Instr.setAPtrHi 1#16).isSetter = true ∧ (Instr.setAPtrLo 0x8000#16).isSetter = true ∧
    (Instr.setAPtrHi 1#16).mnemonic ≠ (Instr.setAPtrLo 0x8000#16).mnemonic ∧
    isNext (exec (.setAPtrHi 1#16) p1) = true ∧
    isNext (exec (.setAPtrLo 0x8000#16) (after (exec (.setAPtrHi 1#16) p1))) = true ∧
    (after (exec (.setAPtrLo 0x8000#16) (after (exec (.setAPtrHi 1#16) p1)))).pointer.a = 0x00018000#32 ∧
    (Instr.setControl0 0x01F0#16).mnemonic ∈ ["SET_CONTROL0", "SET_MINTERMS"] ∧
    (Instr.setMinterms 0x00CA#16).mnemonic ∈ ["SET_CONTROL0", "SET_MINTERMS"] ∧
    (after (exec (.setMinterms 0x00CA#16) (after (exec (.setControl0 0x01F0#16) p1)))).control.minterms = 0xCA#8 ∧
    (after (exec (.setControl0 0x01F0#16) (after (exec (.setMinterms 0x00CA#16) p1)))).control.minterms = 0xF0#8 ∧
    isNext (exec (.setSize 0#16) p1) = true := by decide

/-- R95's `SET_SIZE_WH` at both ends of both ranges; `WAIT_IDLE` in an idle state, in a busy one, and after an
`ADVANCE`, where one read ends it (R213). -/
theorem witness_PseudoCommandsExpand : State.reset.Live ∧ sizeOperand 1 1 = 0x0041#16 ∧
    sizeOperand 64 1024 = 0x0000#16 ∧ sizeOperand 1 1024 = 0x0001#16 ∧ sizeOperand 64 1 = 0x0040#16 ∧
    State.reset.height = 0 ∧ p1.Live ∧ p1.height ≠ 0 ∧ isNext (exec .advance p1) = true ∧
    (after (exec .advance p1)).Live ∧ Pseudo.run 3 .waitIdle p1 = none ∧
    (Pseudo.run 1 .waitIdle (after (exec .advance p1))).map (fun r => (after r).responses) =
      some [.status 0x0000#16, .performed true] ∧
    Pseudo.blit 1 1 ≠ .waitIdle := by decide

theorem witness_AdvanceWhenIdleDoesNothing : State.reset.Live ∧ State.reset.height = 0 ∧
    { vLine6 with height := 0 }.height = 0 ∧ vLine6.Live := by decide

theorem witness_PatternedLineFaults : vLine6.Live ∧ vLine6.height ≠ 0 ∧ vLine6.control.lineMode = true ∧
    vLine6.bData ≠ 0xFFFF#16 ∧ (after (exec .advance vLine6)).height = 6 := by decide

/-- Both directions of the equivalence. -/
theorem witness_OnlyPatternedLinesFault : vLine6.Live ∧ (after (exec .advance vLine6)).fault ≠ none ∧ p3.Live ∧
    (after (exec .advance p3)).fault = none := by decide

/-- Idle to Running, Running to Idle, Running kept by the fault, by a status read. -/
theorem witness_StateMachineTransitions :
    isNext (exec (.setSize 0#16) State.reset) = true ∧ (after (exec (.setSize 0#16) State.reset)).height ≠ 0 ∧
    isNext (exec .advance p1) = true ∧ p1.height ≠ 0 ∧ (after (exec .advance p1)).height = 0 ∧
    (after (exec .advance p1)).fault = none ∧ isNext (exec .advance vLine6) = true ∧
    isNext (exec .getStatus p1) = true := by decide

theorem witness_OneInterruptPerTransfer : isNext (exec .advance p3) = true ∧
    (after (exec .advance p3)).interrupts = [0x0040] ∧ isNext (exec .advance vLine6) = true ∧
    (after (exec .advance vLine6)).interrupts = [] ∧ isNext (exec .advance State.reset) = true ∧
    (after (exec .advance State.reset)).interrupts = [] := by decide

theorem witness_EngineNeverWritesControlState :
    exec .advance vFill1 = .next (after (exec .advance vFill1)) ∧
    exec .advance p3 = .next (after (exec .advance p3)) := ⟨next_after (by decide), next_after (by decide)⟩

/-- P1, then commands that are no `SET_SIZE`, then a new size. -/
theorem witness_OneTriggerOneTransfer : exec .advance p1 = .next (after (exec .advance p1)) ∧
    (after (exec .advance p1)).Live ∧ (∀ i ∈ [Instr.getStatus, .setAData 1#16], i.mnemonic ≠ "SET_SIZE") ∧
    isNext (runCommands [.getStatus, .setAData 1#16] (after (exec .advance p1))) = true ∧
    (after (exec .advance p1)).control.lineMode = false := ⟨next_after (by decide), by decide⟩

theorem witness_FlagTellsNonzeroOutput : p3.LineReady ∧ isNext (exec .advance p3) = true ∧ p1.RectReady ∧
    p1.control.enables.d = true ∧ isNext (exec .advance p1) = true := by decide

/-- The four values of the status word (95_test_vectors.md 2.8). -/
theorem witness_GetStatusAnswersBusyAndZero : statusWord State.reset = 0x2000#16 ∧ statusWord p1 = 0x6000#16 ∧
    statusWord { p1 with notZeroFlag := true } = 0x4000#16 ∧
    statusWord (after (exec .advance p1)) = 0x0000#16 := by decide

theorem witness_BusyFromSizeToAdvance : State.reset.Live ∧ isNext (exec .advance p1) = true ∧
    (after (exec .advance p1)).Live ∧ isNext (exec (.setSize 0#16) State.reset) = true ∧
    (statusWord State.reset).getLsbD 14 = false ∧ (statusWord p1).getLsbD 14 = true ∧
    (statusWord (after (exec .advance p1))).getLsbD 14 = false ∧
    (statusWord (after (exec (.setSize 0#16) State.reset))).getLsbD 14 = true := by decide

/-- A command, a host store, silence. -/
theorem witness_StepKeepsInvariant :
    { p1 with inputs := [.command 0x80000000#32] }.Inv ∧
    isNext (step { p1 with inputs := [.command 0x80000000#32] }) = true ∧
    isNext (step { p1 with inputs := [.store 0x100#32 0#16] }) = true ∧ isNext (step p1) = true := by decide

theorem witness_ReachableStatesMeetInvariant : p1.mem.wf = true ∧ p1.mem.below (2 * memWords ⟨32, 7, .little⟩) = true ∧
    ∃ t, Host.Core.run Sys2Proof.core 1
      { State.reset with platform := ⟨32, 7, .little⟩, mem := p1.mem, inputs := [.command 0x40020000#32] } = .next t :=
  ⟨by decide, by decide, _, rfl⟩

/-- The smallest and the largest memory, and the wrap of 0xFFFFFFFF (V-RECT-3). -/
theorem witness_AddressesWrapAtMemWords : memWords ⟨0, 0, .big⟩ = 1 ∧ cellOf ⟨0, 0, .big⟩ 0xFFFFFFFF#32 = 0 ∧
    memWords ⟨32, 0, .big⟩ = 2 ^ 32 ∧ cellOf ⟨32, 0, .big⟩ 0xFFFFFFFF#32 = 0xFFFFFFFF ∧
    cellOf resetPlatform 0xFFFFFFFF#32 = 0xFFF ∧ cellOf resetPlatform 0x1000#32 = 0 := by decide

theorem witness_MemoryReadsBackWhatWasWritten : p1.mem.wf = true ∧
    (memRead 0x1100#32 (memWrite 0x100#32 0xABCD#16 p1)).1 = 0xABCD#16 ∧
    (memRead 0x200#32 (memWrite 0x100#32 0xABCD#16 p1)).1 = 0x1234#16 ∧
    (memWrite 0x100#32 0x00CD#16 p1).mem.wf = true := by decide

/-- The word 0xBEEF in cell 0x100, in both byte orders. -/
theorem witness_ByteOrderIsUnobservable :
    SameWords { State.reset with mem := writeCell ⟨12, 0x0040, .big⟩ [] 0x100 0xBEEF#16 }
      { State.reset with
        mem := writeCell ⟨12, 0x0040, .little⟩ [] 0x100 0xBEEF#16, platform := ⟨12, 0x0040, .little⟩ } ∧
    writeCell ⟨12, 0x0040, .big⟩ [] 0x100 0xBEEF#16 = [(0x200, 0xBE#8), (0x201, 0xEF#8)] ∧
    writeCell ⟨12, 0x0040, .little⟩ [] 0x100 0xBEEF#16 = [(0x200, 0xEF#8), (0x201, 0xBE#8)] := by
  refine ⟨⟨rfl, rfl, by decide, by decide, fun c => ?_⟩, by decide, by decide⟩
  show readCell ⟨12, 0x0040, .big⟩ _ c = readCell ⟨12, 0x0040, .little⟩ _ c
  rw [readCell_writeCell _ _ _ _ _ rfl, readCell_writeCell _ _ _ _ _ rfl]
  rfl

/-- First, last, only and inner column. -/
theorem witness_AccumulatorsHoldMaskedWords :
    (0 < 3 ∧ 1 < { State.reset.control with width := 3 }.width) ∧ (2 + 1 = { State.reset.control with width := 3 }.width) ∧
    (0 + 1 = { State.reset.control with width := 1 }.width) ∧ 1 + 1 < { State.reset.control with width := 3 }.width ∧
    colMask { State.reset.control with firstMask := 0x0FF0#16, lastMask := 0x00FF#16, width := 1 } 0 = 0x00F0#16 := by
  decide

/-- The first and the last bit position. -/
theorem witness_MintermSelectsTableEntry : 0 < 16 ∧ 15 < 16 ∧
    (minterm 0x8000#16 0x0000#16 0x8000#16 0x20#8).getLsbD 15 = true ∧
    (minterm 0x8000#16 0x0000#16 0x8000#16 0x20#8).getLsbD 0 = false := by decide

theorem witness_FillTablesAreTheNibbleStep : FillMode.exclusive ∈ [FillMode.inclusive, FillMode.exclusive] ∧
    fillLookup .exclusive true 0xF#4 = (0xA#4, true) ∧ fillLookup .inclusive false 0x0#4 = (0x0#4, false) := by
  decide

theorem witness_FillWordIsACarryChain : 0 < 16 ∧ 15 < 16 ∧ (fillWord .inclusive false 0x8001#16).1 = 0xFFFF#16 ∧
    (fillWord .exclusive false 0x8001#16).1 = 0x7FFF#16 := by decide +kernel

theorem witness_RectAdvanceCompletes : p1.RectReady ∧ vFill1.RectReady ∧ s1.RectReady := by decide

theorem witness_RectPointersAdvance : vFill1.RectReady ∧ isNext (exec .advance vFill1) = true ∧
    vFill1.control.enables.get .a = true ∧ vFill1.control.enables.get .b = false := by decide

/-- V-FILL-1: a row of two columns, the fill carry of the first chained into the second; the course's own accesses
and accumulator are those of the vector. -/
theorem witness_RectAccessesInOrder : vFill1.RectReady ∧ isNext (exec .advance vFill1) = true ∧
    columnPlaces vFill1 0 1 = [(false, 0x100), (true, 0x200)] ∧ vFill1.mem.wf = true ∧
    (List.range 2).flatMap (columnAccesses vFill1) =
      [.read 0x101 0x0810#16, .write 0x201 0x0FF0#16, .read 0x100 0x0100#16, .write 0x200 0xFF00#16] ∧
    (rectCourse vFill1 2).aAcc = 0x08100100#32 := by decide +kernel

/-- A byte of the source, outside the stored cells; and a transfer that stores nothing. -/
theorem witness_RectMemoryFrame : p1.RectReady ∧ isNext (exec .advance p1) = true ∧ p1.control.enables.d = true ∧
    (∀ y, y < p1.height → ∀ x, x < p1.control.width → 0x201 / 2 ≠ cellOf p1.platform (columnPointer p1 .d y x)) ∧
    { p1 with control := { p1.control with enables := ⟨true, false, false, false⟩ } }.RectReady := by decide

theorem witness_OneWordTransfer : p1.RectReady ∧ p1.height = 1 ∧ p1.control.width = 1 ∧ p1.mem.wf = true ∧
    (after (exec .advance p1)).aAcc = 0x0000BEEF#32 := by decide

theorem witness_DisabledSourcesRepeatEntryZero : s1.RectReady ∧ isNext (exec .advance s1) = true ∧
    s1.control.enables = ⟨false, false, false, true⟩ ∧ s1.aData = 0#16 ∧ s1.bData = 0#16 ∧ s1.cData = 0#16 ∧
    s1.aAcc = 0#32 ∧ s1.bAcc = 0#32 ∧ s1.control.exclusiveFill = false ∧ s1.control.inclusiveFill = false ∧
    (after (exec .advance s1)).accesses.reverse =
      [.write 0x200 0xFFFF#16, .write 0x201 0xFFFF#16, .write 0x202 0xFFFF#16, .write 0x203 0xFFFF#16] := by decide

/-- S1 with D disabled. -/
def s1NoD : State := { s1 with control := { s1.control with enables := ⟨false, false, false, false⟩ } }

/-- P1 with D disabled: source and destination do not overlap. -/
def p1NoD : State := { p1 with control := { p1.control with enables := { p1.control.enables with d := false } } }

/-- No source enabled; then A enabled and D's one cell, apart from A's. -/
theorem witness_FlagIgnoresDEnable : s1NoD.RectReady ∧ s1NoD.control.enables = ⟨false, false, false, false⟩ ∧
    isNext (exec .advance s1NoD) = true ∧ isNext (exec .advance s1) = true ∧
    s1 = { s1NoD with control := { s1NoD.control with enables := ⟨false, false, false, true⟩ } } ∧
    (after (exec .advance s1NoD)).notZeroFlag = true ∧
    p1NoD.RectReady ∧ p1NoD.mem.wf = true ∧ p1NoD.control.enables.d = false ∧
    p1NoD.control.enables.get .a = true ∧ p1NoD.height * p1NoD.control.width = 1 ∧
    isNext (exec .advance p1NoD) = true ∧ isNext (exec .advance p1) = true ∧
    (after (exec .advance p1NoD)).notZeroFlag = true := by decide

/-- A pure test over a row of two columns whose source cells are 0x0000 and 0x0810. -/
theorem witness_pure_test :
    (let s := { vFill1 with
      control := { vFill1.control with enables := { vFill1.control.enables with d := false } },
      mem := writeCell resetPlatform vFill1.mem 0x101 0x0000#16 }
     s.RectReady ∧ s.control.enables.d = false ∧ (rectCourse s 1).out = 0x0000#16 ∧
      (rectCourse s 2).out ≠ 0x0000#16 ∧ (after (exec .advance s)).notZeroFlag = true) := by decide +kernel

theorem witness_FlagCollectsEveryColumn : vFill1.RectReady ∧ vFill1.mem.wf = true ∧
    (rectCourse vFill1 1).out = 0x0FF0#16 := by decide +kernel

theorem witness_RowsSplitIntoTwoTransfers : vFill1.Live ∧ vFill1.control.lineMode = false ∧
    isNext (exec .advance { vFill1 with height := 1 + 1 }) = true ∧
    isNext (exec .advance { vFill1 with height := 1 }) = true ∧
    isNext (exec .advance { after (exec .advance { vFill1 with height := 1 }) with height := 1 }) = true := by decide

theorem witness_RectIgnoresLineFields : vFill1.RectReady ∧ isNext (exec .advance vFill1) = true ∧
    vFill1.control.lineDirection ≠ 0b101#3 := by decide

theorem witness_LineAdvanceCompletes : p3.LineReady ∧ vLine3.LineReady := by decide

/-- P3: several plots into one word, the second reading what the first wrote. -/
theorem witness_LineAccessesInOrder : p3.LineReady ∧ isNext (exec .advance p3) = true ∧
    linePlaces p3 2 = [(false, 0x411), (true, 0x411)] ∧ p3.mem.wf = true ∧
    (List.range 2).flatMap (stepAccesses p3) =
      [.read 0x400 0x0F00#16, .write 0x400 0x0F02#16, .read 0x400 0x0F02#16, .write 0x400 0x0F03#16] := by decide

theorem witness_LineMemoryFrame : p3.LineReady ∧ isNext (exec .advance p3) = true ∧
    ∀ k, k < p3.height → (lineSteps k (lineStart p3)).draw = true →
      0x200 / 2 ≠ cellOf p3.platform (lineSteps k (lineStart p3)).st.pointer.d := by decide

/-- An x-major line in one-dot mode (V-LINE-2), an x-major line without it, a y-major line with it. -/
theorem witness_WhichStepsPlot :
    (lineState [] 0xEBCA#16 0x0013#16 0xFFFF#16 0x400#32 0x0182#16).control.oneDot = true ∧
    (lineState [] 0xEBCA#16 0x0013#16 0xFFFF#16 0x400#32 0x0182#16).control.lineDirection.getLsbD 2 = true ∧
    p3.control.oneDot = false ∧ vLine3.control.lineDirection.getLsbD 2 = false ∧ vLine3.control.oneDot = true := by
  decide

/-- The wrap of the shift in both directions. -/
theorem witness_StepsMoveOnePixel : pixelPosition { p3 with shiftA := 15#4 } = 0x400F#36 ∧
    pixelPosition (stepX .forth { p3 with shiftA := 15#4 }) = 0x4010#36 ∧
    pixelPosition (stepX .back { p3 with shiftA := 0#4 }) = 0x3FFF#36 := by decide

theorem witness_ErrorTermNeverOverflows : p3.ModuloInv ∧ (0 ≤ 1024 ∧ 1024 ≤ 1024) ∧ errorSeed p3 = -1 := by decide

theorem witness_OneStepLine : { p3 with height := 1 }.LineReady ∧ { p3 with height := 1 }.height = 1 ∧
    { p3 with height := 1 }.mem.wf = true := by decide

/-- P3's line: major extent 5, minor extent 2. -/
theorem witness_LineFollowsIdealLine : p3.LineReady ∧ isNext (exec .advance p3) = true ∧ (0 : Int) < 1 ∧ (0 : Int) ≤ 2 ∧
    (2 : Int) ≤ 5 ∧ errorSeed p3 = 1 * (2 * 2 - 5) ∧ p3.modulo.b.toInt = 1 * (2 * 2) ∧
    p3.modulo.a.toInt = 1 * (2 * 2 - 2 * 5) ∧ pixelPosition (after (exec .advance p3)) = 0x4214#36 := by decide

/-- P3 and P3 with other enables, masks, width, fill bits, accumulators, sign, pointers and D modulo. -/
def p3Other : State :=
  { p3 with
    control :=
      { p3.control with
        enables := ⟨false, false, false, false⟩, firstMask := 0x1234#16, lastMask := 0x00FF#16, width := 9,
        exclusiveFill := false, fillCarry := true, lineSign := .minus }
    shiftB := 7#4
    aAcc := 0xDEADBEEF#32
    bAcc := 0x12345678#32
    pointer := { p3.pointer with b := 5#32, c := 6#32, a := 0x7777FFFF#32 }
    modulo := { p3.modulo with d := 9#32 } }

theorem witness_LineIgnoresOtherRegisters : p3.LineReady ∧ p3Other.LineReady ∧ p3.height = p3Other.height ∧
    p3.aData = p3Other.aData ∧ p3.shiftA = p3Other.shiftA ∧ p3.pointer.d = p3Other.pointer.d ∧
    p3.pointer.a.extractLsb' 0 16 = p3Other.pointer.a.extractLsb' 0 16 ∧ p3.modulo.a = p3Other.modulo.a ∧
    p3.modulo.b = p3Other.modulo.b ∧ p3.modulo.c = p3Other.modulo.c ∧
    p3.control.minterms = p3Other.control.minterms ∧ p3.control.lineDirection = p3Other.control.lineDirection ∧
    p3.control.oneDot = p3Other.control.oneDot ∧ p3.mem = p3Other.mem ∧ p3.platform = p3Other.platform ∧
    p3.accesses = p3Other.accesses ∧ isNext (exec .advance p3) = true ∧ isNext (exec .advance p3Other) = true := by
  decide

end Sys2Proof.Tests
end

section
/-! Proofs of the statements of `00_scope.md`: the range of the line's error term (R10), and the step as fetch, decode
and run (R5). -/

namespace Sys2Proof.Machine

/-! ### The error term of a line (R10, R186, R191) -/

/-- A signed 16-bit value has magnitude at most 2^15. -/
theorem natAbs_toInt_le_of_word (w : Word) : w.toInt.natAbs ≤ 2 ^ 15 := by
  have hlo := w.le_toInt
  have hhi := w.toInt_lt
  omega

/-- So has a modulo of the register surface (R47). -/
theorem natAbs_toInt_le_of_isModuloWord {p : Ptr} (h : IsModuloWord p) : p.toInt.natAbs ≤ 2 ^ 15 := by
  rw [h, BitVec.toInt_signExtend_of_le (by decide)]
  exact natAbs_toInt_le_of_word _

/-- One update moves the error by at most 2^15, whichever modulo it takes (R191). -/
theorem natAbs_lineError_le {s : State} (h : s.ModuloInv) (e : Int) :
    (lineError s e).natAbs ≤ e.natAbs + 2 ^ 15 := by
  obtain ⟨hA, hB, -, -⟩ := h
  unfold lineError
  split
  · exact (Int.natAbs_add_le _ _).trans (Nat.add_le_add_left (natAbs_toInt_le_of_isModuloWord hB) _)
  · exact (Int.natAbs_add_le _ _).trans (Nat.add_le_add_left (natAbs_toInt_le_of_isModuloWord hA) _)

/-- A line never writes a modulo, so the invariant of its entry state holds at every step (R195). -/
theorem lineSteps_moduloInv (n : Nat) {r : LineRun} (h : r.st.ModuloInv) : (lineSteps n r).st.ModuloInv := by
  rw [State.ModuloInv, (lineSteps_keeps n r).modulo]
  exact h

/-- After `n` steps the error has moved from its seed by at most `n` times 2^15. -/
theorem natAbs_lineSteps_error_le (n : Nat) {r : LineRun} (h : r.st.ModuloInv) :
    (lineSteps n r).error.natAbs ≤ r.error.natAbs + 2 ^ 15 * n := by
  induction n with
  | zero => exact Nat.le_refl _
  | succ n ih =>
    rw [lineSteps_succ, lineStep_error]
    calc (lineError (lineSteps n r).st (lineSteps n r).error).natAbs
        ≤ (lineSteps n r).error.natAbs + 2 ^ 15 := natAbs_lineError_le (lineSteps_moduloInv n h) _
      _ ≤ r.error.natAbs + 2 ^ 15 * n + 2 ^ 15 := Nat.add_le_add_right ih _
      _ = r.error.natAbs + 2 ^ 15 * (n + 1) := by rw [Nat.mul_succ, Nat.add_assoc]

/-! ### A step on a command word (R5, R82, R92) -/

/-- The event at the head of the host's stream is taken off it (R5). -/
theorem fetchEvent_of_inputs_cons {s : State} {e : HostEvent} {rest : List HostEvent} (h : s.inputs = e :: rest) :
    fetchEvent s = some (e, { s with inputs := rest }) := by
  rw [fetchEvent, h]

/-- A word that decodes is run. -/
theorem step_command_of_decode_ok {s : State} {w : Command} {rest : List HostEvent} {i : Instr} (hl : s.Live)
    (hi : s.inputs = .command w :: rest) (hd : decode w = .ok i) :
    step s = exec i { s with inputs := rest } := by
  rw [step, whenLive_live hl, fetchEvent_of_inputs_cons hi]
  simp only [hd]

/-- A word that is no command refuses the run, by name. -/
theorem step_command_of_decode_error {s : State} {w : Command} {rest : List HostEvent} {e : Reject} (hl : s.Live)
    (hi : s.inputs = .command w :: rest) (hd : decode w = .error e) :
    step s = .refused (.notACommand e) := by
  rw [step, whenLive_live hl, fetchEvent_of_inputs_cons hi]
  simp only [hd]

/-- A table word names a command exactly when the decoder reads that command from it (R7, R82). -/
theorem decodeTableWord_eq_some_iff {nbits w : Nat} {i : Instr} :
    decodeTableWord nbits w = some i ↔ decode (tableWord nbits w) = .ok i := by
  unfold decodeTableWord
  cases decode (tableWord nbits w) <;> simp

/-- Settles O56: the seed is at most 2^15 and each of at most 1024 steps adds at most 2^15. -/
theorem errorTermNeverOverflows : Obligations.ErrorTermNeverOverflows := by
  unfold Obligations.ErrorTermNeverOverflows
  intro s k hmod hk
  have hseed : (lineStart s).error.natAbs ≤ 2 ^ 15 := natAbs_toInt_le_of_word _
  have hrun := natAbs_lineSteps_error_le k (r := lineStart s) hmod
  omega

/-- Settles O5: a word that decodes is run, any other is refused, and a word put at the head of the stream is the one
the step takes, leaving the stream as it was. -/
theorem stepRunsTheCommandWord : Obligations.StepRunsTheCommandWord := by
  unfold Obligations.StepRunsTheCommandWord
  refine ⟨fun s w rest hl hi => ⟨?_, ?_⟩, ?_⟩
  · exact fun i hd => step_command_of_decode_ok hl hi hd
  · exact fun e hd => step_command_of_decode_error hl hi hd
  · intro s n i hl hd
    have hlive : (s.withFetchWord 32 n).Live := hl
    exact step_command_of_decode_ok hlive rfl (decodeTableWord_eq_some_iff.mp hd)

end Sys2Proof.Machine
end

section
/-! Proofs of the statements of `10_state.md`: the invariants of R47, the fault mark (R44), what no transfer writes
(R20) or reads (R23, R24), the flag (R37) and reset (R49). -/

namespace Sys2Proof.Machine

/-! ### The setters and the invariants (R47) -/

/-- A size field lands between 1 and its maximum (R10 (f)). -/
theorem zeroMeansMax_mem_Icc {max n : Nat} (hmax : 1 ≤ max) (hn : n ≤ max) : zeroMeansMax max n ∈ Set.Icc 1 max := by
  unfold zeroMeansMax
  split
  · exact ⟨hmax, Nat.le_refl max⟩
  · next h0 => exact ⟨Nat.pos_of_ne_zero h0, hn⟩

theorem sizeHeight_mem_Icc (v : Word) : sizeHeight v ∈ Set.Icc 1 1024 :=
  zeroMeansMax_mem_Icc (by decide) (BitVec.isLt _).le

theorem sizeWidth_mem_Icc (v : Word) : sizeWidth v ∈ Set.Icc 1 64 :=
  zeroMeansMax_mem_Icc (by decide) (BitVec.isLt _).le

theorem writeSize_sizeInv (v : Word) (s : State) : (writeSize v s).SizeInv :=
  ⟨(sizeHeight_mem_Icc v).2, (sizeWidth_mem_Icc v).2, fun _ => (sizeWidth_mem_Icc v).1⟩

/-- The fields that control word 1 decodes from the same three bits agree (R26, R85). -/
theorem writeControl1_fillInv (v : Word) (s : State) : (writeControl1 v s).FillInv := by
  have hexclude : ¬ (control1Exclusive v = true ∧ control1Inclusive v = true) := by
    rintro ⟨hexclusive, hinclusive⟩
    rw [control1Exclusive] at hexclusive
    simp [control1Inclusive, hexclusive] at hinclusive
  refine ⟨hexclude, ?_, ?_, ?_⟩ <;>
    simp [writeControl1, control1Direction, control1Exclusive, control1Inclusive, control1FillCarry, regLayout]

theorem isModuloWord_moduloWord (v : Word) : IsModuloWord (moduloWord v) := by
  have hlow : (moduloWord v).extractLsb' 0 16 = v := by
    ext i hi
    simp [moduloWord, BitVec.getElem_signExtend, hi, show i < 32 by omega]
  rw [IsModuloWord, hlow, moduloWord]

theorem setModulo_moduloInv (ch : Channel) (v : Word) {s : State} (h : s.ModuloInv) :
    (setModulo ch (moduloWord v) s).ModuloInv := by
  have hv := isModuloWord_moduloWord v
  obtain ⟨ha, hb, hc, hd⟩ := h
  cases ch
  case a => exact ⟨hv, hb, hc, hd⟩
  case b => exact ⟨ha, hv, hc, hd⟩
  case c => exact ⟨ha, hb, hv, hd⟩
  case d => exact ⟨ha, hb, hc, hv⟩

/-- A modulo setter keeps the invariants: it touches the modulos alone. -/
theorem setModulo_inv (ch : Channel) (v : Word) {s : State} (h : s.Inv) : (setModulo ch (moduloWord v) s).Inv := by
  obtain ⟨hsize, hfill, hmod, hmem, hacc⟩ := h
  exact ⟨hsize, hfill, setModulo_moduloInv ch v hmod, hmem, hacc⟩

/-- Every setter keeps the invariants; only those of the size, control word 1 and the modulos write what they read. -/
theorem setterUpdate_inv (i : Instr) {s : State} (h : s.Inv) : (setterUpdate i s).Inv := by
  have ⟨hsize, hfill, hmod, hmem, hacc⟩ := h
  cases i
  case setControl1 v => exact ⟨hsize, writeControl1_fillInv v s, hmod, hmem, hacc⟩
  case setSize v => exact ⟨writeSize_sizeInv v s, hfill, hmod, hmem, hacc⟩
  case setAMod v => exact setModulo_inv .a v h
  case setBMod v => exact setModulo_inv .b v h
  case setCMod v => exact setModulo_inv .c v h
  case setDMod v => exact setModulo_inv .d v h
  all_goals exact h

/-! ### Transfers, commands and steps keep the invariants (R47) -/

/-- A performed transfer keeps the invariants: it writes no control state and no modulo, and leaves the block idle. -/
theorem performed_inv {s : State} (h : s.Inv) : (performed s).Inv := by
  obtain ⟨⟨-, hwidth, -⟩, hfill, hmod, hmem, hacc⟩ := h
  obtain ⟨hheight, -, -, -, hcontrol, hmodulo, -⟩ := performed_eq s
  obtain ⟨hmem', hacc'⟩ := transfer_memInv (clearNotZero s) hmem hacc
  refine ⟨?_, ?_, ?_, hmem', hacc'⟩
  · rw [State.SizeInv, hheight, hcontrol]
    exact ⟨Nat.zero_le _, hwidth, fun h0 => absurd rfl h0⟩
  · rw [State.FillInv, hcontrol]
    exact hfill
  · rw [State.ModuloInv, hmodulo]
    exact hmod

theorem exec_inv {i : Instr} {s t : State} (h : s.Inv) (ht : exec i s = .next t) : t.Inv := by
  obtain ⟨-, ⟨-, rfl⟩ | ⟨-, rfl⟩ | ⟨-, -, rfl⟩ | ⟨-, -, -, rfl⟩ | ⟨-, -, -, rfl⟩⟩ := exec_next ht
  · exact setterUpdate_inv i h
  · exact h
  · exact h
  · exact h
  · exact performed_inv h

theorem hostStore_inv (p : Ptr) (v : Word) {s : State} (h : s.Inv) : (hostStore p v s).Inv := by
  obtain ⟨hsize, hfill, hmod, ⟨hwf, hbelow⟩, hacc⟩ := h
  exact ⟨hsize, hfill, hmod, ⟨wf_writeCell _ _ _ _ hwf, below_writeCell _ _ _ _ _ hbelow (cellOf_lt _ _)⟩, hacc⟩

/-- Settles O30: a step is silence, a host store or a command, and each keeps the invariants. -/
theorem stepKeepsInvariant : Obligations.StepKeepsInvariant := by
  unfold Obligations.StepKeepsInvariant
  intro s t h ht
  obtain ⟨-, ⟨-, rfl⟩ | ⟨p, v, rest, -, rfl⟩ | ⟨w, rest, i, -, -, hexec⟩⟩ := step_next ht
  · exact h
  · exact hostStore_inv p v h
  · exact exec_inv (s := { s with inputs := rest }) h hexec

/-- What every step keeps, every run that answers a state keeps. -/
theorem run_keeps {P : State → Prop} (hstep : ∀ s t, P s → step s = .next t → P t) (n : Nat) :
    ∀ {s t : State}, P s → Host.Core.run Sys2Proof.core n s = .next t → P t := by
  induction n with
  | zero =>
    intro s t h hrun
    exact next_inj hrun ▸ h
  | succ n ih =>
    intro s t h hrun
    obtain ⟨u, hu, hrest⟩ := run_next hrun
    exact ih (hstep s u h hu) hrest

/-- Reset meets the invariants on any platform, over any canonical memory of its size, whatever the host will send. -/
theorem reset_inv {pl : Platform} {m : Memory} (es : List HostEvent) (hwf : m.wf = true)
    (hbelow : m.below (2 * memWords pl) = true) :
    State.Inv { State.reset with platform := pl, mem := m, inputs := es } :=
  have hsize : State.reset.SizeInv := by decide
  have hfill : State.reset.FillInv := by decide
  have hmod : State.reset.ModuloInv := by decide
  ⟨hsize, hfill, hmod, ⟨hwf, hbelow⟩, rfl⟩

/-- Settles O31: reset meets the invariants and every step keeps them. -/
theorem reachableStatesMeetInvariant : Obligations.ReachableStatesMeetInvariant := by
  unfold Obligations.ReachableStatesMeetInvariant
  intro pl m es n t hwf hbelow hrun
  exact run_keeps stepKeepsInvariant n (reset_inv es hwf hbelow) hrun

/-- Settles O29: the reset state stands on one platform, over the empty memory. -/
theorem resetMeetsInvariant : Obligations.ResetMeetsInvariant := by
  unfold Obligations.ResetMeetsInvariant
  exact reset_inv (pl := resetPlatform) (m := []) [] rfl rfl

/-- Settles O28: each register and flag of the reset state, channel by channel. -/
theorem resetValues : Obligations.ResetValues := by
  unfold Obligations.ResetValues
  have hchannels : ∀ ch, State.reset.pointer.get ch = 0#32 ∧ State.reset.modulo.get ch = 0#32 := by
    intro ch
    cases ch <;> exact ⟨rfl, rfl⟩
  exact ⟨rfl, rfl, rfl, rfl, hchannels, rfl, rfl, rfl, rfl, rfl, rfl, rfl, rfl, rfl, rfl⟩

/-! ### The fault mark (R44, R224) -/

theorem step_faulted {s : State} {f : Fault} (h : s.fault = some f) : step s = .fault f :=
  whenLive_faulted h _

/-- Settles O7: the guard of R224 stands before every command and every step. -/
theorem faultedStateHasNoStep : Obligations.FaultedStateHasNoStep := by
  unfold Obligations.FaultedStateHasNoStep
  exact ⟨rfl, fun s f h => ⟨step_faulted h, exec_faulted h⟩⟩

/-! ### What no transfer writes, and what the flag tells (R20, R37) -/

/-- Settles O23: an idle or faulting `ADVANCE` writes none of it, and neither does a performed one. -/
theorem engineNeverWritesControlState : Obligations.EngineNeverWritesControlState := by
  unfold Obligations.EngineNeverWritesControlState
  intro s t ht
  obtain ⟨-, ⟨-, rfl⟩ | ⟨-, -, rfl⟩ | ⟨-, -, rfl⟩⟩ := execAdvance_next ht
  · exact ⟨rfl, rfl, rfl, rfl, rfl⟩
  · exact ⟨rfl, rfl, rfl, rfl, rfl⟩
  · obtain ⟨-, -, -, -, hcontrol, hmodulo, hshiftB, hinputs, hplatform⟩ := performed_eq s
    exact ⟨hcontrol, hmodulo, hshiftB, hinputs, hplatform⟩

/-- Settles O25: the flag starts clear, and each plot or column raises it by the word it writes. -/
theorem flagTellsNonzeroOutput : Obligations.FlagTellsNonzeroOutput := by
  unfold Obligations.FlagTellsNonzeroOutput
  rintro s t (hline | ⟨hrect, hd⟩) ht
  · rw [execAdvance_line hline] at ht
    obtain ⟨-, -, hmode, -⟩ := hline
    rw [← next_inj ht, performed_line hmode]
    exact lineSteps_flag s.height (lineStart (clearNotZero s))
  · rw [execAdvance_rect hrect] at ht
    obtain ⟨-, -, hmode⟩ := hrect
    rw [← next_inj ht, performed_rect hmode]
    exact rectRows_flag s.height s.control.width (clearNotZero s) hd

/-! ### What no rectangular transfer reads (R23, R24, R85) -/

/-- The state with another quadrant code and another sign bit. -/
def State.withLineFields (dir : BitVec 3) (sg : Sign) (s : State) : State :=
  { s with control := { s.control with lineDirection := dir, lineSign := sg } }

section LineFields
variable (dir : BitVec 3) (sg : Sign)

theorem fetchA_withLineFields (s : State) : fetchA (s.withLineFields dir sg) = (fetchA s).withLineFields dir sg := by
  rw [fetchA, fetchA, apply_ite (State.withLineFields dir sg)]
  rfl

theorem fetchB_withLineFields (s : State) : fetchB (s.withLineFields dir sg) = (fetchB s).withLineFields dir sg := by
  rw [fetchB, fetchB, apply_ite (State.withLineFields dir sg)]
  rfl

theorem fetchC_withLineFields (s : State) : fetchC (s.withLineFields dir sg) = (fetchC s).withLineFields dir sg := by
  rw [fetchC, fetchC, apply_ite (State.withLineFields dir sg)]
  rfl

theorem loadColumn_withLineFields (x : Nat) (s : State) :
    loadColumn x (s.withLineFields dir sg) = (loadColumn x s).withLineFields dir sg := by
  unfold loadColumn
  rw [fetchA_withLineFields, fetchB_withLineFields, fetchC_withLineFields]
  rfl

theorem writeBack_withLineFields (out : Word) (s : State) :
    writeBack out (s.withLineFields dir sg) = (writeBack out s).withLineFields dir sg := by
  rw [writeBack, writeBack, apply_ite (State.withLineFields dir sg)]
  rfl

theorem columnOut_withLineFields (x : Nat) (s : State) (carry : Bool) :
    columnOut x ⟨s.withLineFields dir sg, carry⟩ = columnOut x ⟨s, carry⟩ := by
  unfold columnOut
  rw [loadColumn_withLineFields]
  rfl

/-- A column makes the same word and hands on the same carry, whatever the two fields hold. -/
theorem rectColumn_withLineFields (x : Nat) (s : State) (carry : Bool) :
    rectColumn x ⟨s.withLineFields dir sg, carry⟩ =
      ⟨(rectColumn x ⟨s, carry⟩).st.withLineFields dir sg, (rectColumn x ⟨s, carry⟩).carry⟩ := by
  unfold rectColumn
  rw [columnOut_withLineFields, loadColumn_withLineFields]
  exact congrArg (RowRun.mk · _) (writeBack_withLineFields dir sg _ (noteOutput _ (loadColumn x s)))

/-- The two fields pass through a whole rectangle unread. -/
theorem rectRows_withLineFields (H W : Nat) (s : State) :
    rectRows H W (s.withLineFields dir sg) = (rectRows H W s).withLineFields dir sg := by
  refine rectRows_sim (fun s₁ s₂ => s₁ = s₂.withLineFields dir sg) ?_ ?_ ?_ H W _ s rfl
  · rintro _ s rfl
    rfl
  · rintro x carry _ s rfl
    rw [rectColumn_withLineFields]
    exact ⟨rfl, rfl⟩
  · rintro _ s rfl
    rfl

theorem performed_withLineFields {s : State} (h : s.control.lineMode = false) :
    performed (s.withLineFields dir sg) = (performed s).withLineFields dir sg := by
  have hrows := rectRows_withLineFields dir sg s.height s.control.width (clearNotZero s)
  rw [performed_rect h, performed_rect (s := s.withLineFields dir sg) h]
  exact congrArg (fun u => respond (.performed true) (complete u)) hrows

end LineFields

/-- Settles O49: the two fields pass through the rows unread, and the entry tests do not read them either. -/
theorem rectIgnoresLineFields : Obligations.RectIgnoresLineFields := by
  unfold Obligations.RectIgnoresLineFields
  intro s t dir sg hrect ht
  rw [execAdvance_rect hrect] at ht
  have hrect' : (s.withLineFields dir sg).RectReady := hrect
  obtain ⟨-, -, hmode⟩ := hrect
  rw [← next_inj ht]
  exact (execAdvance_rect hrect').trans (congrArg _ (performed_withLineFields dir sg hmode))

end Sys2Proof.Machine
end

section
/-! Proofs of the statements of `20_memory.md`: address formation (R61), the two access primitives (R62, R63), the byte
order (R64), the order of a transfer's accesses (R68) and the host's stores (R70). -/

namespace Sys2Proof.Machine

/-! ### No byte order is observable (R64) -/

/-- The state over another memory, kept in another byte order. -/
def State.onMemory (m : Memory) (o : ByteOrder) (s : State) : State :=
  { s with mem := m, platform := { s.platform with hostByteOrder := o } }

/-- How the bytes of a cell are found depends on the byte order alone. -/
theorem readCell_congr {pl pl' : Platform} (h : pl.hostByteOrder = pl'.hostByteOrder) (m : Memory) (c : Nat) :
    readCell pl m c = readCell pl' m c := by
  unfold readCell hiAddr loAddr
  rw [h]

/-- States with the same words are one state over two memories. -/
theorem sameWords_iff {s₁ s₂ : State} :
    SameWords s₁ s₂ ↔ ∃ m o, s₂ = s₁.onMemory m o ∧ s₁.mem.wf = true ∧ m.wf = true ∧
      ∀ c, readCell s₁.platform s₁.mem c = readCell (s₁.onMemory m o).platform m c := by
  constructor
  · rintro ⟨hs, hp, h₁, h₂, hcells⟩
    have heq : s₂ = s₁.onMemory s₂.mem s₂.platform.hostByteOrder := by rw [State.onMemory, ← hp, ← hs]
    refine ⟨s₂.mem, s₂.platform.hostByteOrder, heq, h₁, h₂, fun c => ?_⟩
    rw [hcells]
    exact readCell_congr rfl _ c
  · rintro ⟨m, o, rfl, h₁, h₂, hcells⟩
    exact ⟨rfl, rfl, h₁, h₂, hcells⟩

section SameWords
variable {s₁ s₂ : State}

/-- What is read neither from memory nor from the byte order is the same in both states. -/
theorem SameWords.observe (h : SameWords s₁ s₂) {α : Type} (f : State → α)
    (hf : ∀ m o s, f (State.onMemory m o s) = f s) : f s₂ = f s₁ := by
  obtain ⟨m, o, rfl, -⟩ := sameWords_iff.mp h
  exact hf m o s₁

theorem SameWords.control_eq (h : SameWords s₁ s₂) : s₂.control = s₁.control :=
  h.observe State.control fun _ _ _ => rfl

theorem SameWords.pointer_eq (h : SameWords s₁ s₂) : s₂.pointer = s₁.pointer :=
  h.observe State.pointer fun _ _ _ => rfl

/-- Which cell a pointer selects does not depend on the byte order (R61). -/
theorem SameWords.cellOf_eq (h : SameWords s₁ s₂) (p : Ptr) : cellOf s₂.platform p = cellOf s₁.platform p :=
  h.observe (fun s => cellOf s.platform p) fun _ _ _ => rfl

theorem SameWords.wordAt_eq (h : SameWords s₁ s₂) (p : Ptr) : wordAt s₂ p = wordAt s₁ p := by
  have hcell := h.cellOf_eq p
  obtain ⟨-, -, -, -, hcells⟩ := h
  rw [wordAt, wordAt, hcell, hcells]

/-- An update that acts alike over every memory leaves memory alone, so it keeps the words the same. -/
theorem SameWords.update (h : SameWords s₁ s₂) (f : State → State)
    (hf : ∀ m o s, f (State.onMemory m o s) = (f s).onMemory m o) : SameWords (f s₁) (f s₂) := by
  obtain ⟨m, o, rfl, h₁, h₂, hcells⟩ := sameWords_iff.mp h
  have hself : f s₁ = (f s₁).onMemory s₁.mem s₁.platform.hostByteOrder := hf s₁.mem s₁.platform.hostByteOrder s₁
  have hmem : (f s₁).mem = s₁.mem := (congrArg State.mem hself).trans rfl
  have horder : (f s₁).platform.hostByteOrder = s₁.platform.hostByteOrder :=
    (congrArg (fun s => s.platform.hostByteOrder) hself).trans rfl
  refine sameWords_iff.mpr ⟨m, o, hf m o s₁, hmem.symm ▸ h₁, h₂, fun c => ?_⟩
  rw [hmem, readCell_congr horder, hcells]
  exact readCell_congr rfl m c

/-! The access primitives (R62) -/

theorem SameWords.memRead (h : SameWords s₁ s₂) (p : Ptr) : SameWords (memRead p s₁).2 (memRead p s₂).2 := by
  rw [memRead_snd, memRead_snd, h.cellOf_eq, h.wordAt_eq]
  exact h.update (logAccess _) fun _ _ _ => rfl

theorem SameWords.memWrite (h : SameWords s₁ s₂) (p : Ptr) (v : Word) :
    SameWords (memWrite p v s₁) (memWrite p v s₂) := by
  obtain ⟨m, o, rfl, -⟩ := sameWords_iff.mp h
  obtain ⟨-, -, h₁, h₂, hcells⟩ := h
  refine ⟨rfl, rfl, wf_writeCell _ _ _ _ h₁, wf_writeCell _ _ _ _ h₂, fun c => ?_⟩
  rw [memWrite_mem, memWrite_mem, memWrite_platform, memWrite_platform, readCell_writeCell _ _ _ _ _ h₁,
    readCell_writeCell _ _ _ _ _ h₂, hcells]
  rfl

/-! A rectangular transfer (R165) -/

theorem SameWords.readAdvance_fst (h : SameWords s₁ s₂) (ch : Channel) :
    (readAdvance ch s₂).1 = (readAdvance ch s₁).1 := by
  simp only [readAdvance, memRead_fst, h.pointer_eq, h.wordAt_eq]

theorem SameWords.setPointer (h : SameWords s₁ s₂) (ch : Channel) (p : Ptr) :
    SameWords (setPointer ch p s₁) (setPointer ch p s₂) :=
  h.update (Machine.setPointer ch p) fun _ _ _ => rfl

theorem SameWords.increment_eq (h : SameWords s₁ s₂) : increment s₂ = increment s₁ := increment_congr h.control_eq

theorem SameWords.readAdvance_snd (h : SameWords s₁ s₂) (ch : Channel) :
    SameWords (readAdvance ch s₁).2 (readAdvance ch s₂).2 := by
  rw [readAdvance, readAdvance, h.pointer_eq, h.increment_eq]
  exact (h.memRead _).setPointer ch _

theorem SameWords.fetchA (h : SameWords s₁ s₂) : SameWords (fetchA s₁) (fetchA s₂) := by
  rw [Machine.fetchA, Machine.fetchA, h.control_eq, h.readAdvance_fst]
  split
  · exact (h.readAdvance_snd .a).update (fun s => { s with aData := _ }) fun _ _ _ => rfl
  · exact h

theorem SameWords.fetchB (h : SameWords s₁ s₂) : SameWords (fetchB s₁) (fetchB s₂) := by
  rw [Machine.fetchB, Machine.fetchB, h.control_eq, h.readAdvance_fst]
  split
  · exact (h.readAdvance_snd .b).update (fun s => { s with bData := _ }) fun _ _ _ => rfl
  · exact h

theorem SameWords.fetchC (h : SameWords s₁ s₂) : SameWords (fetchC s₁) (fetchC s₂) := by
  rw [Machine.fetchC, Machine.fetchC, h.control_eq, h.readAdvance_fst]
  split
  · exact (h.readAdvance_snd .c).update (fun s => { s with cData := _ }) fun _ _ _ => rfl
  · exact h

theorem SameWords.loadColumn (h : SameWords s₁ s₂) (x : Nat) : SameWords (loadColumn x s₁) (loadColumn x s₂) :=
  h.fetchA.fetchB.fetchC.update (accumulate x) fun _ _ _ => rfl

theorem SameWords.columnOut_eq (h : SameWords s₁ s₂) (x : Nat) (carry : Bool) :
    columnOut x ⟨s₂, carry⟩ = columnOut x ⟨s₁, carry⟩ := by
  rw [columnOut, columnOut, h.control_eq, (h.loadColumn x).observe logicOut fun _ _ _ => rfl]

theorem SameWords.writeBack (h : SameWords s₁ s₂) (out : Word) : SameWords (writeBack out s₁) (writeBack out s₂) := by
  rw [Machine.writeBack, Machine.writeBack, h.control_eq, h.pointer_eq, h.increment_eq]
  split
  · exact (h.memWrite _ out).setPointer .d _
  · exact h

/-- A column keeps the words the same and hands on the same carry. -/
theorem SameWords.rectColumn (h : SameWords s₁ s₂) (x : Nat) (carry : Bool) :
    SameWords (rectColumn x ⟨s₁, carry⟩).st (rectColumn x ⟨s₂, carry⟩).st ∧
      (rectColumn x ⟨s₁, carry⟩).carry = (rectColumn x ⟨s₂, carry⟩).carry := by
  rw [Machine.rectColumn, Machine.rectColumn, h.columnOut_eq]
  exact ⟨((h.loadColumn x).update (noteOutput _) fun _ _ _ => rfl).writeBack _, rfl⟩

theorem SameWords.rectRows (h : SameWords s₁ s₂) (H W : Nat) : SameWords (rectRows H W s₁) (rectRows H W s₂) :=
  rectRows_sim (fun s₁ s₂ => SameWords s₁ s₂) (fun _ _ h => congrArg Control.fillCarry h.control_eq.symm)
    (fun x c _ _ h => h.rectColumn x c) (fun _ _ h => h.update rowEnd fun _ _ _ => rfl) H W s₁ s₂ h

/-! A line (R185) -/

theorem SameWords.plot (h : SameWords s₁ s₂) : SameWords (plot s₁) (plot s₂) := by
  have hword : plotWord s₂ (wordAt s₁ s₁.pointer.d) = plotWord s₁ (wordAt s₁ s₁.pointer.d) :=
    h.observe (plotWord · _) fun _ _ _ => rfl
  have hread := (h.memRead s₁.pointer.d).update (fun s => { s with cData := wordAt s₁ s₁.pointer.d }) fun _ _ _ => rfl
  rw [Machine.plot, Machine.plot, h.pointer_eq, memRead_fst, memRead_fst, h.wordAt_eq, hword]
  exact (hread.memWrite _ _).update (noteOutput _) fun _ _ _ => rfl

theorem stepX_onMemory (mv : Move) (m : Memory) (o : ByteOrder) (s : State) :
    stepX mv (s.onMemory m o) = (stepX mv s).onMemory m o := by
  cases mv with
  | stay => rfl
  | forth => rw [stepX, stepX, apply_ite (State.onMemory m o)]; rfl
  | back => rw [stepX, stepX, apply_ite (State.onMemory m o)]; rfl

theorem stepY_onMemory (mv : Move) (m : Memory) (o : ByteOrder) (s : State) :
    stepY mv (s.onMemory m o) = (stepY mv s).onMemory m o := by
  cases mv <;> rfl

/-- Two lines in progress over the same words, with the same error and draw state. -/
structure LineSameWords (r₁ r₂ : LineRun) : Prop where
  st : SameWords r₁.st r₂.st
  error : r₂.error = r₁.error
  draw : r₂.draw = r₁.draw

theorem LineSameWords.linePlot {r₁ r₂ : LineRun} (h : LineSameWords r₁ r₂) :
    LineSameWords (linePlot r₁) (linePlot r₂) := by
  refine ⟨?_, by rw [linePlot_error, linePlot_error, h.error],
    by rw [linePlot_draw, linePlot_draw, h.draw, h.st.control_eq]⟩
  rw [Machine.linePlot, Machine.linePlot, h.draw]
  split
  · exact h.st.plot
  · exact h.st

theorem LineSameWords.lineMove {r₁ r₂ : LineRun} (h : LineSameWords r₁ r₂) :
    LineSameWords (lineMove r₁) (lineMove r₂) := by
  have herror : lineError r₂.st r₁.error = lineError r₁.st r₁.error :=
    h.st.observe (lineError · _) fun _ _ _ => rfl
  rw [Machine.lineMove, Machine.lineMove, h.error, h.draw, h.st.control_eq, herror]
  exact ⟨(h.st.update (stepX _) (stepX_onMemory _)).update (stepY _) (stepY_onMemory _), rfl, rfl⟩

theorem SameWords.lineSteps (h : SameWords s₁ s₂) (n : Nat) :
    SameWords (lineSteps n (lineStart s₁)).st (lineSteps n (lineStart s₂)).st := by
  have hstart : LineSameWords (lineStart s₁) (lineStart s₂) := ⟨h, h.observe errorSeed fun _ _ _ => rfl, rfl⟩
  exact (lineSteps_sim LineSameWords (fun _ _ h => h.linePlot.lineMove) n _ _ hstart).st

/-! Commands -/

theorem SameWords.transfer (h : SameWords s₁ s₂) : SameWords (transfer s₁) (transfer s₂) := by
  have hheight : s₂.height = s₁.height := h.observe State.height fun _ _ _ => rfl
  rw [Machine.transfer, Machine.transfer, lineTransfer, lineTransfer, rectTransfer, rectTransfer, h.control_eq, hheight]
  split
  · exact h.lineSteps _
  · exact h.rectRows _ _

theorem SameWords.performed (h : SameWords s₁ s₂) : SameWords (performed s₁) (performed s₂) :=
  (h.update clearNotZero fun _ _ _ => rfl).transfer.update (fun s => respond (.performed true) (complete s))
    fun _ _ _ => rfl

theorem setterUpdate_onMemory (i : Instr) (m : Memory) (o : ByteOrder) (s : State) :
    setterUpdate i (s.onMemory m o) = (setterUpdate i s).onMemory m o := by
  cases i <;> rfl

end SameWords

/-- Settles O34: both states take the same case of `exec_next`, and what each case does, down to one read and one write
of memory, keeps the words the same. -/
theorem byteOrderIsUnobservable : Obligations.ByteOrderIsUnobservable := by
  unfold Obligations.ByteOrderIsUnobservable
  intro i s₁ s₂ t₁ h ht
  obtain ⟨hlive, hcase⟩ := exec_next ht
  have hlive₂ : s₂.Live := (h.observe State.fault fun _ _ _ => rfl).trans hlive
  have hheight : s₂.height = s₁.height := h.observe State.height fun _ _ _ => rfl
  have hpatterned : patternedLine s₂ = patternedLine s₁ := h.observe patternedLine fun _ _ _ => rfl
  have hstatus : statusWord s₂ = statusWord s₁ := h.observe statusWord fun _ _ _ => rfl
  obtain ⟨hset, rfl⟩ | ⟨rfl, rfl⟩ | ⟨rfl, h0, rfl⟩ | ⟨rfl, h0, hp, rfl⟩ | ⟨rfl, h0, hp, rfl⟩ := hcase
  · exact ⟨_, exec_setter_live hset hlive₂, h.update (setterUpdate i) (setterUpdate_onMemory i)⟩
  · refine ⟨_, execGetStatus_live hlive₂, ?_⟩
    rw [hstatus]
    exact h.update (respond _) fun _ _ _ => rfl
  · refine ⟨_, by rw [execAdvance_live hlive₂, if_pos (hheight.trans h0)], ?_⟩
    exact h.update (respond _) fun _ _ _ => rfl
  · refine ⟨_, by rw [execAdvance_live hlive₂, if_neg (hheight ▸ h0), if_pos (hpatterned.trans hp)], ?_⟩
    exact h.update (fun s => { s with fault := _ }) fun _ _ _ => rfl
  · refine ⟨performed s₂, ?_, h.performed⟩
    rw [execAdvance_live hlive₂, if_neg (hheight ▸ h0), if_neg (by simp [hpatterned, hp])]

/-! ### Addresses and the two access primitives (R61, R62, R70) -/

/-- Settles O32: masking is reduction modulo `MEM_WORDS`, which divides the 2^32 that pointers wrap at. -/
theorem addressesWrapAtMemWords : Obligations.AddressesWrapAtMemWords := by
  unfold Obligations.AddressesWrapAtMemWords
  intro pl p k
  have hdvd : memWords pl ∣ 2 ^ 32 := Nat.pow_dvd_pow 2 (Nat.lt_succ_iff.mp pl.memBits.isLt)
  refine ⟨rfl, cellOf_eq_mod pl p, cellOf_lt pl p, ?_⟩
  rw [cellOf_eq_mod, cellOf_eq_mod, BitVec.toNat_add, BitVec.toNat_ofNat, Nat.add_mod_mod,
    Nat.mod_mod_of_dvd _ hdvd, Nat.add_mul_mod_self_right]

/-- The words after `MemWrite`, at every pointer (R62, R63). -/
theorem wordAt_memWrite {s : State} (h : s.mem.wf = true) (p q : Ptr) (v : Word) :
    wordAt (memWrite p v s) q = if cellOf s.platform q = cellOf s.platform p then v else wordAt s q :=
  readCell_writeCell _ _ _ _ _ h

/-- Settles O33: the frames are those of the two definitions, and the words are those of the cell stored into. -/
theorem memoryReadsBackWhatWasWritten : Obligations.MemoryReadsBackWhatWasWritten := by
  unfold Obligations.MemoryReadsBackWhatWasWritten
  intro s p q v h
  exact ⟨rfl, rfl, wf_writeCell _ _ _ _ h, rfl, wordAt_memWrite h p q v⟩

/-- A store of the host is taken off its stream and made (R70). -/
theorem step_store {s : State} {p : Ptr} {v : Word} {rest : List HostEvent} (hl : s.Live)
    (hi : s.inputs = .store p v :: rest) : step s = .next (hostStore p v { s with inputs := rest }) := by
  rw [step, whenLive_live hl, fetchEvent_of_inputs_cons hi]

/-- With nothing from the host the block waits. -/
theorem step_silent {s : State} (hl : s.Live) (hi : s.inputs = []) : step s = .next s := by
  rw [step, whenLive_live hl, fetchEvent, hi]

/-- Settles O6: the store changes the selected cell by the law of a word store. -/
theorem hostStoreChangesOneCell : Obligations.HostStoreChangesOneCell := by
  unfold Obligations.HostStoreChangesOneCell
  refine ⟨fun s p v rest hl hi hwf => ?_, fun s hl hi => step_silent hl hi⟩
  exact ⟨writeCell s.platform s.mem (cellOf s.platform p) v, step_store hl hi, wf_writeCell _ _ _ _ hwf,
    fun c => readCell_writeCell _ _ _ c v hwf⟩

/-! ### The accesses of a transfer, in order (R68) -/

/-- Settles O43: the places are those of the rows, and the words those of the course the transfer matches. -/
theorem rectAccessesInOrder : Obligations.RectAccessesInOrder := by
  unfold Obligations.RectAccessesInOrder
  intro s t hrect ht
  refine ⟨?_, fun hwf => ?_⟩
  · have ⟨_, _, hmode⟩ := hrect
    rw [execAdvance_rect hrect] at ht
    rw [← next_inj ht, performed_rect hmode]
    exact rectRows_places s.height (clearNotZero s)
  · obtain ⟨r, hmatch, hexec⟩ := performed_rect_matches hrect hwf
    rw [hexec] at ht
    obtain rfl := next_inj ht
    have hcells : ∀ c, readCell r.platform r.mem c = _ := hmatch.keeps.platform ▸ hmatch.cells
    exact ⟨hmatch.accesses, hmatch.aData, hmatch.bData, hmatch.cData, hmatch.aAcc, hmatch.bAcc, hcells, hmatch.flag⟩

/-- The flag a line starts with does not move its plots. -/
theorem stepPlaces_lineSteps_clearNotZero (s : State) (k : Nat) :
    stepPlaces (lineSteps k (lineStart (clearNotZero s))) = linePlaces s k := by
  obtain ⟨b, hrun⟩ := lineSteps_clearNotZero k s
  have hplatform : (lineSteps k (lineStart s)).st.platform = s.platform := (lineSteps_keeps k (lineStart s)).platform
  rw [hrun, linePlaces, ← hplatform]
  rfl

/-- Settles O51: the places are those of the steps, and the words those of the course the line matches. -/
theorem lineAccessesInOrder : Obligations.LineAccessesInOrder := by
  unfold Obligations.LineAccessesInOrder
  intro s t hline ht
  refine ⟨?_, fun hwf => ?_⟩
  · have ⟨_, _, hmode, _⟩ := hline
    have hplaces := lineSteps_places s.height (lineStart (clearNotZero s))
    simp only [stepPlaces_lineSteps_clearNotZero] at hplaces
    rw [execAdvance_line hline] at ht
    rw [← next_inj ht, performed_line hmode]
    exact hplaces
  · obtain ⟨r, hmatch, hexec⟩ := performed_line_matches hline hwf
    rw [hexec] at ht
    obtain rfl := next_inj ht
    have hcells : ∀ c, readCell r.st.platform r.st.mem c = _ := hmatch.keeps.platform ▸ hmatch.cells
    exact ⟨hmatch.accesses, hmatch.cData, hmatch.position, hcells, hmatch.flag⟩

end Sys2Proof.Machine
end

section
/-! Proofs of the statements of `30_encoding.md`: decoder and encoder (R81 to R83, R92, R93), the command table (R82)
and the pseudo-commands (R95). -/

namespace Sys2Proof

/-! ### What the decoder accepts (R82, R93) -/

theorem kind_cases (k : BitVec 2) : k = 0#2 ∨ k = 1#2 ∨ k = 2#2 ∨ k = 3#2 := by
  revert k
  decide

/-- Everything the decoder accepts: a WRITE to a setter's offset, the status READ, the bare TRIGGER (R82). -/
theorem decodeFields_eq_ok_iff {L : RegLayout} {f : CommandFields} {i : Instr} :
    decodeFields L f = .ok i ↔
      f.zero = 0#5 ∧ ((f.kind = 0#2 ∧ setterAt L f.off f.data = some i) ∨
        (f.kind = 1#2 ∧ f.off = L.offStatus ∧ f.data = 0#16 ∧ i = .getStatus) ∨
        (f.kind = 2#2 ∧ f.off = 0#9 ∧ f.data = 0#16 ∧ i = .advance)) := by
  unfold decodeFields
  by_cases hzero : f.zero = 0#5
  · obtain hk | hk | hk | hk := kind_cases f.kind
    · cases hs : setterAt L f.off f.data <;> simp [hk, hzero]
    · by_cases hoff : f.off = L.offStatus <;> by_cases hdata : f.data = 0#16 <;>
        simp [hk, hzero, hoff, hdata, @eq_comm _ i]
    · by_cases hbits : f.off = 0#9 ∧ f.data = 0#16
      · simp [hk, hzero, hbits, @eq_comm _ i]
      · simp [hk, hzero, hbits, ← and_assoc]
    · simp [hk, hzero]
  · simp [hzero]

theorem decode_encode (i : Instr) : decode (encode i) = .ok i := by
  rw [decode_encode_fields]
  cases i <;> rfl

/-- Fields that decode to a command are that command's fields: none is dropped. -/
theorem fieldsFor_of_decodeFields {f : CommandFields} {i : Instr} (h : decodeFields regLayout f = .ok i) :
    fieldsFor regLayout i = f := by
  obtain ⟨kind, zero, off, data⟩ := f
  obtain ⟨rfl, ⟨rfl, hset⟩ | ⟨rfl, rfl, rfl, rfl⟩ | ⟨rfl, rfl, rfl, rfl⟩⟩ := decodeFields_eq_ok_iff.mp h
  · exact setterAt_fields off data i hset
  · rfl
  · rfl

theorem decode_eq_ok_iff {w : Command} {i : Instr} : decode w = .ok i ↔ encode i = w := by
  refine ⟨fun h => ?_, fun h => h ▸ decode_encode i⟩
  rw [encode, fieldsFor_of_decodeFields h, wordOf_fieldsOf]

/-- Settles O1: command and word determine each other through the word's fields. -/
theorem decodeAndEncodeAgree : Obligations.DecodeAndEncodeAgree := by
  unfold Obligations.DecodeAndEncodeAgree
  exact ⟨fun i _ => decode_encode i, fun w i h => decode_eq_ok_iff.mp h⟩

/-! ### Words cut into parts -/

theorem bitVec_append_inj {m n : Nat} {a c : BitVec m} {b d : BitVec n} : a ++ b = c ++ d ↔ a = c ∧ b = d := by
  refine ⟨fun h => ?_, fun ⟨hac, hbd⟩ => by rw [hac, hbd]⟩
  have hhi := congrArg (BitVec.extractLsb' n m) h
  have hlo := congrArg (BitVec.extractLsb' 0 n) h
  rw [BitVec.extractLsb'_append_eq_left, BitVec.extractLsb'_append_eq_left] at hhi
  rw [BitVec.extractLsb'_append_eq_right, BitVec.extractLsb'_append_eq_right] at hlo
  exact ⟨hhi, hlo⟩

/-- Masking off the operand keeps the upper half of a word. -/
theorem and_upper_mask (hi lo : Word) : (hi ++ lo : Command) &&& 0xFFFF0000#32 = hi ++ 0#16 := by
  rw [show 0xFFFF0000#32 = BitVec.allOnes 16 ++ 0#16 from rfl, BitVec.and_append, BitVec.and_allOnes, BitVec.and_zero]

/-- Offset and data of a word together are its bits 24:0 (R81). -/
theorem low_bits_eq_zero_iff (w : Command) :
    w.extractLsb' 0 25 = 0#25 ↔ w.extractLsb' 16 9 = 0#9 ∧ w.extractLsb' 0 16 = 0#16 := by
  have hlow : w.extractLsb' 16 9 ++ w.extractLsb' 0 16 = w.extractLsb' 0 25 :=
    BitVec.extractLsb'_append_extractLsb'_eq_extractLsb' rfl
  rw [← hlow]
  exact bitVec_append_inj (b := w.extractLsb' 0 16) (c := 0#9) (d := 0#16)

/-! ### What the decoder refuses (R92) -/

theorem ite_some_eq_none_iff {α : Type} {c : Prop} [Decidable c] {a : α} {x : Option α} :
    (if c then some a else x) = none ↔ ¬ c ∧ x = none := by
  split <;> simp [*]

/-- No setter is found exactly at the offsets that are not listed as writable (R83). -/
theorem setterAt_eq_none_iff (L : RegLayout) (off : BitVec 9) (v : Word) :
    setterAt L off v = none ↔ off ∉ L.writeOffsets := by
  simp only [setterAt, RegLayout.writeOffsets, List.mem_cons, not_or, ite_some_eq_none_iff, List.not_mem_nil,
    not_false_eq_true]

theorem exists_setterAt_eq_some_iff (L : RegLayout) (off : BitVec 9) (v : Word) :
    (∃ i, setterAt L off v = some i) ↔ off ∈ L.writeOffsets := by
  rw [← not_iff_not, ← setterAt_eq_none_iff L off v, Option.eq_none_iff_forall_ne_some, not_exists]

theorem exists_decodeFields_eq_ok_iff {L : RegLayout} {f : CommandFields} :
    (∃ i, decodeFields L f = .ok i) ↔
      f.zero = 0#5 ∧ ((f.kind = 0#2 ∧ f.off ∈ L.writeOffsets) ∨
        (f.kind = 1#2 ∧ f.off = L.offStatus ∧ f.data = 0#16) ∨
        (f.kind = 2#2 ∧ f.off = 0#9 ∧ f.data = 0#16)) := by
  simp only [decodeFields_eq_ok_iff, exists_and_left, exists_or, exists_setterAt_eq_some_iff, exists_eq, and_true]

/-- Refused is not accepted. -/
theorem exists_decode_eq_error_iff {w : Command} : (∃ e, decode w = .error e) ↔ ¬ ∃ i, decode w = .ok i := by
  cases decode w <;> simp

/-- The writable offsets as the numbers of R83. -/
theorem mem_writeOffsets_iff (off : BitVec 9) :
    off ∈ regLayout.writeOffsets ↔ off.toNat ∈
      [0x040, 0x042, 0x044, 0x046, 0x048, 0x04A, 0x04C, 0x04E, 0x050, 0x052, 0x054, 0x056, 0x058, 0x05A, 0x060,
       0x062, 0x064, 0x066, 0x070, 0x072, 0x074] :=
  (List.mem_map_of_injective (l := regLayout.writeOffsets) fun _ _ => BitVec.eq_of_toNat_eq).symm

/-- Settles O3: a word is refused when no clause of acceptance holds, and the kind tells which clause that is. -/
theorem refusedWordsAreThoseListed : Obligations.RefusedWordsAreThoseListed := by
  unfold Obligations.RefusedWordsAreThoseListed
  intro w
  rw [exists_decode_eq_error_iff, decode, exists_decodeFields_eq_ok_iff]
  simp only [fieldsOf, ← mem_writeOffsets_iff, ne_eq, low_bits_eq_zero_iff]
  obtain hk | hk | hk | hk := kind_cases (w.extractLsb' 30 2)
  all_goals simp [hk, imp_iff_not_or, regLayout]

/-! ### The command table (R82) -/

/-- The command with another operand; the two that carry none stay as they are. -/
def Instr.withOperand (v : Word) : Instr → Instr
  | .setControl0 _ => .setControl0 v
  | .setControl1 _ => .setControl1 v
  | .setFirstWordMask _ => .setFirstWordMask v
  | .setLastWordMask _ => .setLastWordMask v
  | .setSize _ => .setSize v
  | .setMinterms _ => .setMinterms v
  | .setAData _ => .setAData v
  | .setBData _ => .setBData v
  | .setCData _ => .setCData v
  | .setAPtrHi _ => .setAPtrHi v
  | .setAPtrLo _ => .setAPtrLo v
  | .setBPtrHi _ => .setBPtrHi v
  | .setBPtrLo _ => .setBPtrLo v
  | .setCPtrHi _ => .setCPtrHi v
  | .setCPtrLo _ => .setCPtrLo v
  | .setDPtrHi _ => .setDPtrHi v
  | .setDPtrLo _ => .setDPtrLo v
  | .setAMod _ => .setAMod v
  | .setBMod _ => .setBMod v
  | .setCMod _ => .setCMod v
  | .setDMod _ => .setDMod v
  | .advance => .advance
  | .getStatus => .getStatus

@[simp] theorem mnemonic_withOperand (v : Word) (i : Instr) : (i.withOperand v).mnemonic = i.mnemonic := by
  cases i <;> rfl

theorem fieldsFor_withOperand (v : Word) {i : Instr} (h : i.isSetter = true) :
    fieldsFor regLayout (i.withOperand v) = { fieldsFor regLayout i with data := v } := by
  cases i
  case advance => cases h
  case getStatus => cases h
  all_goals rfl

theorem withOperand_of_not_setter (v : Word) {i : Instr} (h : i.isSetter = false) : i.withOperand v = i := by
  cases i
  case advance => rfl
  case getStatus => rfl
  all_goals cases h

theorem exists_withOperand_eq (i : Instr) : ∃ v, i.withOperand v = i := by
  cases i
  case advance => exact ⟨0#16, rfl⟩
  case getStatus => exact ⟨0#16, rfl⟩
  all_goals exact ⟨_, rfl⟩

/-- A setter's word is a half that names the register, then the operand (R81). -/
theorem exists_encode_withOperand_eq_append {i : Instr} (h : i.isSetter = true) :
    ∃ reg : Word, ∀ v, encode (i.withOperand v) = reg ++ v := by
  let f := fieldsFor regLayout i
  refine ⟨f.kind ++ f.zero ++ f.off, fun v => ?_⟩
  rw [encode, fieldsFor_withOperand v h]
  rfl

/-- The row of the command table for a command: the operand is masked off, every other bit must agree (R82). -/
def tableRow (i : Instr) : OpcodeRow :=
  ⟨i.mnemonic, if i.isSetter then 0xFFFF0000#32 else 0xFFFFFFFF#32, encode (i.withOperand 0#16)⟩

theorem tableRow_mem_opcodeRows (i : Instr) : tableRow i ∈ opcodeRows := by
  cases i <;> simp only [tableRow, Instr.withOperand, Instr.mnemonic, Instr.isSetter] <;> decide

theorem map_tableRow_decode_pattern : ∀ r ∈ opcodeRows, (decode r.pattern).map tableRow = .ok r := by decide

/-- Every row is the row of a command, the one its pattern decodes to. -/
theorem exists_tableRow_eq_of_mem {r : OpcodeRow} (h : r ∈ opcodeRows) : ∃ i, tableRow i = r := by
  have hr := map_tableRow_decode_pattern r h
  cases hd : decode r.pattern with
  | error e => rw [hd] at hr; cases hr
  | ok i => rw [hd] at hr; exact ⟨i, Except.ok.inj hr⟩

/-- A word matches a command's row exactly when it encodes that command with some operand. -/
theorem matches_tableRow_iff {w : Command} {i : Instr} :
    w &&& (tableRow i).mask = (tableRow i).pattern ↔ ∃ v, encode (i.withOperand v) = w := by
  cases hi : i.isSetter with
  | true =>
    obtain ⟨reg, hreg⟩ := exists_encode_withOperand_eq_append hi
    have hw : w.extractLsb' 16 16 ++ w.extractLsb' 0 16 = w := BitVec.extractLsb'_append_extractLsb'
    simp only [tableRow, hi, if_true, hreg]
    rw [← hw, and_upper_mask]
    simp only [bitVec_append_inj (m := 16) (n := 16), and_true, exists_and_left, exists_eq]
    exact eq_comm
  | false =>
    simp only [tableRow, hi, withOperand_of_not_setter _ hi, Bool.false_eq_true, if_false, exists_const]
    rw [show 0xFFFFFFFF#32 = BitVec.allOnes 32 from rfl, BitVec.and_allOnes, eq_comm]

theorem matches_tableRow_of_decode {w : Command} {i : Instr} (h : decode w = .ok i) :
    w &&& (tableRow i).mask = (tableRow i).pattern := by
  obtain ⟨v, hv⟩ := exists_withOperand_eq i
  exact matches_tableRow_iff.mpr ⟨v, hv.symm ▸ decode_eq_ok_iff.mp h⟩

theorem exists_decode_of_matches {w : Command} {r : OpcodeRow} (hr : r ∈ opcodeRows) (hw : w &&& r.mask = r.pattern) :
    ∃ i, decode w = .ok i ∧ i.mnemonic = r.mnemonic := by
  obtain ⟨i, rfl⟩ := exists_tableRow_eq_of_mem hr
  obtain ⟨v, hv⟩ := matches_tableRow_iff.mp hw
  exact ⟨i.withOperand v, decode_eq_ok_iff.mpr hv, mnemonic_withOperand v i⟩

theorem opcodeRows_mnemonic_nodup : (opcodeRows.map OpcodeRow.mnemonic).Nodup := by decide

/-- Settles O2: a row is matched by the encodings of one command; two matched rows carry the mnemonic of the one command
the word decodes to, and no two rows share one. -/
theorem decoderMatchesOpcodeTable : Obligations.DecoderMatchesOpcodeTable := by
  unfold Obligations.DecoderMatchesOpcodeTable
  intro w
  refine ⟨fun i hd => ?_, fun r hr hw => exists_decode_of_matches hr hw, fun r hr r' hr' hw hw' => ?_⟩
  · exact ⟨tableRow i, tableRow_mem_opcodeRows i, rfl, matches_tableRow_of_decode hd⟩
  · obtain ⟨i, hi, hmn⟩ := exists_decode_of_matches hr hw
    obtain ⟨i', hi', hmn'⟩ := exists_decode_of_matches hr' hw'
    obtain rfl : i = i' := Except.ok.inj (hi.symm.trans hi')
    exact List.inj_on_of_nodup_map opcodeRows_mnemonic_nodup hr hr' (hmn.symm.trans hmn')

/-- Settles O4: the decoder run on the twelve words. -/
theorem sampleWordsDecode : Obligations.SampleWordsDecode := by
  unfold Obligations.SampleWordsDecode
  decide

end Sys2Proof

namespace Sys2Proof.Machine

/-! ### Commands in sequence -/

theorem runCommands_cons_next {i : Instr} {is : List Instr} {s t : State} (h : exec i s = .next t) :
    runCommands (i :: is) s = runCommands is t := by
  rw [runCommands, h]

theorem runCommands_singleton (i : Instr) (s : State) : runCommands [i] s = exec i s := by
  rw [runCommands]
  cases exec i s <;> rfl

/-- Setters in sequence make their updates in sequence. -/
theorem runCommands_setters {is : List Instr} (hset : ∀ i ∈ is, i.isSetter = true) {s : State} (hl : s.Live) :
    runCommands is s = .next (is.foldl (fun u i => setterUpdate i u) s) := by
  induction is generalizing s with
  | nil => rfl
  | cons i is ih =>
    obtain ⟨hi, his⟩ := List.forall_mem_cons.mp hset
    rw [runCommands_cons_next (exec_setter_live hi hl)]
    exact ih his ((setterUpdate_fault i s).trans hl)

/-! ### The pointer and size pseudo-commands (R95) -/

theorem isSetter_ptrHiOf (ch : Channel) (v : Word) : (ptrHiOf ch v).isSetter = true := by cases ch <;> rfl

theorem isSetter_ptrLoOf (ch : Channel) (v : Word) : (ptrLoOf ch v).isSetter = true := by cases ch <;> rfl

theorem setterUpdate_ptrHiOf (ch : Channel) (v : Word) : setterUpdate (ptrHiOf ch v) = setPointerHi ch v := by
  cases ch <;> rfl

theorem setterUpdate_ptrLoOf (ch : Channel) (v : Word) : setterUpdate (ptrLoOf ch v) = setPointerLo ch v := by
  cases ch <;> rfl

theorem setPointer_setPointer (ch : Channel) (p q : Ptr) (s : State) :
    setPointer ch q (setPointer ch p s) = setPointer ch q s := by
  cases ch <;> rfl

theorem setPointerLo_setPointerHi (ch : Channel) (hi lo : Word) (s : State) :
    setPointerLo ch lo (setPointerHi ch hi s) = setPointer ch (hi ++ lo) s := by
  rw [setPointerLo, setPointerHi, setPointer_setPointer, setPointer_pointer, get_set_same, withLowHalf_withHighHalf]

theorem setPointerHi_setPointerLo (ch : Channel) (hi lo : Word) (s : State) :
    setPointerHi ch hi (setPointerLo ch lo s) = setPointer ch (hi ++ lo) s := by
  rw [setPointerLo, setPointerHi, setPointer_setPointer, setPointer_pointer, get_set_same, withHighHalf_withLowHalf]

/-- `SET_x_PTR a`, its two halves in either order, sets the whole pointer. -/
theorem runCommands_setPtr (ch : Channel) (a : Ptr) {s : State} (hl : s.Live) :
    runCommands (Pseudo.setPtr ch a).expand s = .next (setPointer ch a s) ∧
    runCommands (Pseudo.setPtr ch a).expand.reverse s = .next (setPointer ch a s) := by
  have hwhole : a.extractLsb' 16 16 ++ a.extractLsb' 0 16 = a := BitVec.extractLsb'_append_extractLsb'
  have hset : ∀ i ∈ (Pseudo.setPtr ch a).expand, i.isSetter = true := by
    simp [Pseudo.expand, isSetter_ptrHiOf, isSetter_ptrLoOf]
  rw [runCommands_setters hset hl, runCommands_setters (fun i hi => hset i (List.mem_reverse.mp hi)) hl]
  simp [Pseudo.expand, setterUpdate_ptrHiOf, setterUpdate_ptrLoOf, setPointerLo_setPointerHi,
    setPointerHi_setPointerLo, hwhole]

/-- The size operand is its two fields side by side (R86). -/
theorem sizeOperand_eq_append (w h : Nat) : sizeOperand w h = BitVec.ofNat 10 h ++ BitVec.ofNat 6 w := by
  rw [← BitVec.setWidth_eq (BitVec.ofNat 10 h ++ BitVec.ofNat 6 w), BitVec.setWidth_append_eq_shiftLeft_setWidth_or,
    ← BitVec.ofNat_toNat, ← BitVec.ofNat_toNat, BitVec.toNat_ofNat, BitVec.toNat_ofNat]
  rfl

theorem sizeHeight_sizeOperand (w : Nat) {h : Nat} (h1 : 1 ≤ h) (h2 : h ≤ 1024) :
    sizeHeight (sizeOperand w h) = h := by
  have hfield : (sizeOperand w h).extractLsb' regLayout.heightLsb 10 = BitVec.ofNat 10 h := by
    rw [sizeOperand_eq_append]
    exact BitVec.extractLsb'_append_eq_left
  rw [sizeHeight, hfield, BitVec.toNat_ofNat, zeroMeansMax]
  split <;> omega

theorem sizeWidth_sizeOperand {w : Nat} (h : Nat) (h1 : 1 ≤ w) (h2 : w ≤ 64) : sizeWidth (sizeOperand w h) = w := by
  have hfield : (sizeOperand w h).extractLsb' regLayout.widthLsb 6 = BitVec.ofNat 6 w := by
    rw [sizeOperand_eq_append]
    exact BitVec.extractLsb'_append_eq_right
  rw [sizeWidth, hfield, BitVec.toNat_ofNat, zeroMeansMax]
  split <;> omega

/-- `SET_SIZE` with the size operand arms the engine with that size. -/
theorem exec_setSize_sizeOperand {s : State} (hl : s.Live) {w h : Nat} (hw1 : 1 ≤ w) (hw2 : w ≤ 64) (hh1 : 1 ≤ h)
    (hh2 : h ≤ 1024) :
    exec (.setSize (sizeOperand w h)) s =
      .next { s with height := h, control := { s.control with width := w } } := by
  rw [exec_setter_live rfl hl, setterUpdate, writeSize, sizeHeight_sizeOperand w hh1 hh2,
    sizeWidth_sizeOperand h hw1 hw2]

/-! ### Rounds of a pseudo-command, and `WAIT_IDLE` (R95, R91, R213) -/

theorem getLsbD_statusWord_busyBit (s : State) : (statusWord s).getLsbD 14 = busy s := by
  unfold statusWord
  cases s.notZeroFlag <;> cases busy s <;> rfl

theorem busy_eq_false_of_idle {s : State} (h : s.height = 0) : busy s = false := by simp [busy, h]

theorem busy_eq_true_of_armed {s : State} (h : s.height ≠ 0) : busy s = true := by simp [busy, h]

/-- A pseudo-command that does not repeat after its round ends with that round. -/
theorem run_succ_of_not_again {p : Pseudo} {s : State} (n : Nat)
    (h : ∀ t, runCommands p.expand s = .next t → p.again t = false) :
    Pseudo.run (n + 1) p s = some (runCommands p.expand s) := by
  rw [Pseudo.run]
  cases hr : runCommands p.expand s with
  | next t => simp [h t hr]
  | fault f => rfl
  | refused r => rfl

theorem again_of_ne_waitIdle {p : Pseudo} (h : p ≠ .waitIdle) (t : State) : p.again t = false := by
  cases p
  case waitIdle => exact absurd rfl h
  all_goals rfl

theorem runCommands_waitIdle {s : State} (hl : s.Live) :
    runCommands Pseudo.waitIdle.expand s = .next (respond (.status (statusWord s)) s) := by
  rw [Pseudo.expand, runCommands_singleton, execGetStatus_live hl]

/-- After its read `WAIT_IDLE` repeats exactly when the block is busy. -/
theorem again_waitIdle_respond (s : State) : Pseudo.waitIdle.again (respond (.status (statusWord s)) s) = busy s :=
  getLsbD_statusWord_busyBit s

theorem run_waitIdle_idle {s : State} (n : Nat) (hl : s.Live) (h : s.height = 0) :
    Pseudo.run (n + 1) .waitIdle s = some (exec .getStatus s) := by
  rw [← runCommands_singleton]
  refine run_succ_of_not_again n fun t ht => ?_
  rw [runCommands_waitIdle hl] at ht
  rw [← next_inj ht, again_waitIdle_respond, busy_eq_false_of_idle h]

/-- The read changes neither height nor mark, so a busy block is read for ever. -/
theorem run_waitIdle_busy (n : Nat) {s : State} (hl : s.Live) (h : s.height ≠ 0) :
    Pseudo.run n .waitIdle s = none := by
  induction n generalizing s with
  | zero => rfl
  | succ n ih =>
    rw [Pseudo.run, runCommands_waitIdle hl]
    simp only [again_waitIdle_respond, busy_eq_true_of_armed h, if_true]
    exact ih hl h

/-- `WAIT_IDLE` ends only in an idle state, on the answer of one read. -/
theorem run_waitIdle_next {n : Nat} {s t : State} (hl : s.Live) (h : Pseudo.run n .waitIdle s = some (.next t)) :
    s.height = 0 ∧ t = respond (.status (statusWord s)) s := by
  by_cases h0 : s.height = 0
  · cases n with
    | zero => cases h
    | succ n =>
      rw [run_waitIdle_idle n hl h0, execGetStatus_live hl] at h
      exact ⟨h0, (next_inj (Option.some.inj h)).symm⟩
  · rw [run_waitIdle_busy n hl h0] at h
    cases h

/-- An `ADVANCE` that does not fault leaves the block idle (R211). -/
theorem height_eq_zero_of_advance {s t : State} (h : exec .advance s = .next t) (hl : t.Live) : t.height = 0 := by
  obtain ⟨-, ⟨h0, rfl⟩ | ⟨-, -, rfl⟩ | ⟨-, -, rfl⟩⟩ := execAdvance_next h
  · exact h0
  · cases hl
  · rfl

/-- Settles O17: the setters' updates in sequence, the size operand's two fields, and `WAIT_IDLE` in an idle and in a
busy state. -/
theorem pseudoCommandsExpand : Obligations.PseudoCommandsExpand := by
  unfold Obligations.PseudoCommandsExpand
  intro s hl
  refine ⟨fun ch a => runCommands_setPtr ch a hl, fun f l => ?_, fun w h hw1 hw2 hh1 hh2 => ?_,
    fun n h0 => run_waitIdle_idle n hl h0, fun n h0 => run_waitIdle_busy n hl h0, fun n t ht htl => ?_,
    fun n t ht => ?_, fun p n hp => ?_⟩
  · exact runCommands_setters (by simp [Pseudo.expand, Instr.isSetter]) hl
  · have hsize := exec_setSize_sizeOperand hl hw1 hw2 hh1 hh2
    rw [Pseudo.expand, Pseudo.expand, runCommands_singleton, runCommands_cons_next hsize, runCommands_singleton]
    exact ⟨hsize, rfl⟩
  · exact run_waitIdle_idle n htl (height_eq_zero_of_advance ht htl)
  · obtain ⟨h0, rfl⟩ := run_waitIdle_next hl ht
    exact ⟨statusWord s, s.responses, rfl, (getLsbD_statusWord_busyBit s).trans (busy_eq_false_of_idle h0)⟩
  · exact run_succ_of_not_again n fun t _ => again_of_ne_waitIdle hp t

end Sys2Proof.Machine
end

section
/-! Proofs of the statements of `40_register_setters.md`: what each setter writes (R100 to R120, by the encodings of R84
to R90) and what no setter touches (R121, R122). -/

namespace Sys2Proof.Machine

/-! ### A setter's word and its frame (R81, R121) -/

/-- A word given as its upper half and its operand is the command whose fields those are (R81). -/
theorem decode_append_of_fields {reg v : Word} {i : Instr}
    (h : fieldsFor regLayout i = ⟨reg.extractLsb' 14 2, reg.extractLsb' 9 5, reg.extractLsb' 0 9, v⟩) :
    decode (reg ++ v) = .ok i := by
  rw [decode_append, ← h, ← decode_encode_fields, decode_encode]

/-- No setter writes outside the registers of the host: memory, flag, accumulators, mark and histories stay (R121). -/
theorem setterUpdate_frame (i : Instr) (s : State) :
    setterUpdate i s =
      { s with
        control := (setterUpdate i s).control, shiftA := (setterUpdate i s).shiftA
        shiftB := (setterUpdate i s).shiftB, height := (setterUpdate i s).height
        pointer := (setterUpdate i s).pointer, modulo := (setterUpdate i s).modulo
        aData := (setterUpdate i s).aData, bData := (setterUpdate i s).bData, cData := (setterUpdate i s).cData } := by
  cases i <;> rfl

/-- No setter but `SET_SIZE` writes the size (R121). -/
theorem setterUpdate_size {i : Instr} (h : i.mnemonic ≠ "SET_SIZE") (s : State) :
    (setterUpdate i s).height = s.height ∧ (setterUpdate i s).control.width = s.control.width := by
  cases i
  case setSize v => exact absurd rfl h
  all_goals exact ⟨rfl, rfl⟩

/-! ### Ignored operand bits (R85, R87) -/

/-- A mask of ones over a field leaves the field as it is. -/
theorem extractLsb'_and_of_ones {m : Word} {start len : Nat} (h : m.extractLsb' start len = BitVec.allOnes len)
    (v : Word) : (v &&& m).extractLsb' start len = v.extractLsb' start len := by
  rw [BitVec.extractLsb'_and, h, BitVec.and_allOnes]

/-- Bits 11:7 and 5 of control word 1 are not read: the mask is 1 over both wide fields and at each single bit (R85). -/
theorem writeControl1_and_mask (v : Word) : writeControl1 (v &&& 0xF05F#16) = writeControl1 v := by
  have hshift : controlShift (v &&& 0xF05F#16) = controlShift v := extractLsb'_and_of_ones rfl v
  have hdirection : control1Direction (v &&& 0xF05F#16) = control1Direction v := extractLsb'_and_of_ones rfl v
  funext s
  simp [writeControl1, hshift, hdirection, control1Sign, control1Exclusive, control1Inclusive, control1FillCarry,
    control1OneDot, control1LineMode, regLayout]

/-- Bits 15:8 of the minterms word are not read (R87). -/
theorem mintermsField_and_mask (v : Word) : mintermsField (v &&& 0x00FF#16) = mintermsField v :=
  extractLsb'_and_of_ones rfl v

/-! ### The size word as numbers (R86) -/

theorem sizeHeight_eq (v : Word) : sizeHeight v = if v.toNat / 64 = 0 then 1024 else v.toNat / 64 := by
  have hfield : (v.extractLsb' regLayout.heightLsb 10).toNat = v.toNat / 64 := by
    have hv := v.isLt
    rw [BitVec.extractLsb'_toNat, Nat.shiftRight_eq_div_pow]
    exact Nat.mod_eq_of_lt (by simp only [regLayout]; omega)
  rw [sizeHeight, zeroMeansMax, hfield]

theorem sizeWidth_eq (v : Word) : sizeWidth v = if v.toNat % 64 = 0 then 64 else v.toNat % 64 := by
  have hfield : (v.extractLsb' regLayout.widthLsb 6).toNat = v.toNat % 64 := BitVec.extractLsb'_toNat 0 6 v
  rw [sizeWidth, zeroMeansMax, hfield]

/-! ### The statements -/

/-- Settles O11: the two size fields are `v / 64` and `v % 64`, and each lands between 1 and its maximum. -/
theorem setSizeArmsTheEngine : Obligations.SetSizeArmsTheEngine := by
  unfold Obligations.SetSizeArmsTheEngine
  intro v s hl
  obtain ⟨hheight1, hheight2⟩ := sizeHeight_mem_Icc v
  obtain ⟨hwidth1, hwidth2⟩ := sizeWidth_mem_Icc v
  have hbusy : busy (writeSize v s) = true := busy_eq_true_of_armed (Nat.ne_of_gt hheight1)
  exact ⟨decode_append_of_fields rfl, writeSize v s, exec_setter_live rfl hl, rfl, sizeHeight_eq v, sizeWidth_eq v,
    hheight1, hheight2, hwidth1, hwidth2, hbusy⟩

/-- Settles O15: a setter completes, within its frame. -/
theorem settersHaveNoSideEffect : Obligations.SettersHaveNoSideEffect := by
  unfold Obligations.SettersHaveNoSideEffect
  intro i s hi hl
  refine ⟨setterUpdate i s, exec_setter_live hi hl, ?_⟩
  rw [setterUpdate_frame i s]
  exact ⟨rfl, rfl, rfl, rfl, rfl, rfl, rfl, rfl, rfl, rfl, fun h => setterUpdate_size h s⟩

/-- Settles O8: the update of `SET_CONTROL0`, its fields at the positions of the layout. -/
theorem setControl0WritesItsFields : Obligations.SetControl0WritesItsFields := by
  unfold Obligations.SetControl0WritesItsFields
  intro v s hl
  exact ⟨decode_append_of_fields rfl, exec_setter_live rfl hl⟩

/-- Settles O9: the update of `SET_CONTROL1`, whose fields all lie under the mask of the bits it reads. -/
theorem setControl1WritesItsFields : Obligations.SetControl1WritesItsFields := by
  unfold Obligations.SetControl1WritesItsFields
  intro v s hl
  refine ⟨decode_append_of_fields rfl, exec_setter_live rfl hl, ?_⟩
  exact congrArg (runSetter · s) (writeControl1_and_mask v)

/-- Settles O10: each update replaces one field, and the table's field lies in the lower byte. -/
theorem maskAndMintermSettersWriteTheirField : Obligations.MaskAndMintermSettersWriteTheirField := by
  unfold Obligations.MaskAndMintermSettersWriteTheirField
  intro v s hl
  refine ⟨decode_append_of_fields rfl, exec_setter_live rfl hl, decode_append_of_fields rfl, exec_setter_live rfl hl,
    decode_append_of_fields rfl, exec_setter_live rfl hl, ?_⟩
  rw [exec_setter_live rfl hl, exec_setter_live rfl hl, setterUpdate, setterUpdate, mintermsField_and_mask]

/-- Settles O12: each update replaces one latch. -/
theorem dataSettersWriteTheirLatch : Obligations.DataSettersWriteTheirLatch := by
  unfold Obligations.DataSettersWriteTheirLatch
  intro v s hl
  exact ⟨decode_append_of_fields rfl, exec_setter_live rfl hl, decode_append_of_fields rfl, exec_setter_live rfl hl,
    decode_append_of_fields rfl, exec_setter_live rfl hl⟩

/-- Settles O13: each update puts the operand beside the other half of its channel's pointer; in turn A, B, C, D. -/
theorem pointerSettersWriteOneHalf : Obligations.PointerSettersWriteOneHalf := by
  unfold Obligations.PointerSettersWriteOneHalf
  intro v s hl
  exact ⟨decode_append_of_fields rfl, exec_setter_live rfl hl, decode_append_of_fields rfl, exec_setter_live rfl hl,
    decode_append_of_fields rfl, exec_setter_live rfl hl, decode_append_of_fields rfl, exec_setter_live rfl hl,
    decode_append_of_fields rfl, exec_setter_live rfl hl, decode_append_of_fields rfl, exec_setter_live rfl hl,
    decode_append_of_fields rfl, exec_setter_live rfl hl, decode_append_of_fields rfl, exec_setter_live rfl hl⟩

/-- Settles O14: the operand sign-extended is the same number, and each update stores it in its channel's modulo. -/
theorem moduloSettersSignExtend : Obligations.ModuloSettersSignExtend := by
  unfold Obligations.ModuloSettersSignExtend
  intro v s hl
  have hsigned : (moduloWord v).toInt = v.toInt := BitVec.toInt_signExtend_of_le (by decide)
  exact ⟨moduloWord v, hsigned, decode_append_of_fields rfl, exec_setter_live rfl hl, decode_append_of_fields rfl,
    exec_setter_live rfl hl, decode_append_of_fields rfl, exec_setter_live rfl hl, decode_append_of_fields rfl,
    exec_setter_live rfl hl⟩

end Sys2Proof.Machine
end

section
/-! Proofs of the statements of `41_fill.md`: the fill tables (R131 to R135), a word filled as one carry chain (R130,
R133), and the rows of a transfer, each with its own seed (R137). -/

namespace Sys2Proof.Machine

/-! ### A filled word, bit by bit (R133, R135) -/

theorem parityFrom_succ (c : Bool) (w : Word) (i : Nat) :
    parityFrom c w (i + 1) = (parityFrom c w i ^^ w.getLsbD i) := by
  simp only [parityFrom, List.range_succ, List.foldl_append, List.foldl_cons, List.foldl_nil]

/-- Bit `i` of four equal pieces in a row, the last piece lowest. -/
theorem getLsbD_append_four {n : Nat} (p₃ p₂ p₁ p₀ : BitVec n) (i : Nat) :
    (p₃ ++ p₂ ++ p₁ ++ p₀).getLsbD i =
      if i < n then p₀.getLsbD i
      else if i < 2 * n then p₁.getLsbD (i - n)
      else if i < 3 * n then p₂.getLsbD (i - 2 * n)
      else p₃.getLsbD (i - 3 * n) := by
  have hlt₂ : i - n < n ↔ i < 2 * n := by omega
  have hlt₃ : i - 2 * n < n ↔ i < 3 * n := by omega
  have hsub₂ : i - n - n = i - 2 * n := by omega
  have hsub₃ : i - 2 * n - n = i - 3 * n := by omega
  simp only [BitVec.getLsbD_append, hsub₂, hsub₃, hlt₂, hlt₃]

/-- A nibble hands on the carry chain of the word it is cut from. -/
theorem fillNibble_carry (mode : FillMode) (c : Bool) (w : Word) (k : Nat) :
    (fillNibble mode (parityFrom c w k) (w.extractLsb' k 4)).2 = parityFrom c w (k + 4) := by
  simp [fillNibble, fillBit_carry, parityFrom_succ]

/-- A bit of a filled nibble is the bit step where the chain of the whole word stands. -/
theorem getLsbD_fillNibble (mode : FillMode) (c : Bool) (w : Word) {k j : Nat} (hk : k ≤ j) (hj : j < k + 4) :
    (fillNibble mode (parityFrom c w k) (w.extractLsb' k 4)).1.getLsbD (j - k) =
      (fillBit mode (parityFrom c w j) (w.getLsbD j)).1 := by
  obtain ⟨i, rfl⟩ := Nat.exists_eq_add_of_le hk
  rw [Nat.add_sub_cancel_left]
  have hi : i < 4 := by omega
  refine (getLsbD_append_four _ _ _ _ i).trans ?_
  interval_cases i <;> simp [fillBit_carry, parityFrom_succ]

/-- The four nibbles of a filled word, each seeded by the chain below it. -/
theorem fillWord_eq_append (mode : FillMode) (c : Bool) (w : Word) :
    fillWord mode c w =
      ((fillNibble mode (parityFrom c w 12) (w.extractLsb' 12 4)).1 ++
        (fillNibble mode (parityFrom c w 8) (w.extractLsb' 8 4)).1 ++
        (fillNibble mode (parityFrom c w 4) (w.extractLsb' 4 4)).1 ++
        (fillNibble mode (parityFrom c w 0) (w.extractLsb' 0 4)).1, parityFrom c w 16) := by
  rw [← fillNibble_carry mode c w 12, ← fillNibble_carry mode c w 8, ← fillNibble_carry mode c w 4,
    ← fillNibble_carry mode c w 0]
  rfl

theorem getLsbD_fillWord (mode : FillMode) (c : Bool) (w : Word) {i : Nat} (hi : i < 16) :
    (fillWord mode c w).1.getLsbD i = (fillBit mode (parityFrom c w i) (w.getLsbD i)).1 := by
  rw [fillWord_eq_append]
  refine (getLsbD_append_four _ _ _ _ i).trans ?_
  split_ifs with h4 h8 h12
  · exact getLsbD_fillNibble mode c w (Nat.zero_le i) h4
  · exact getLsbD_fillNibble mode c w (by omega) (by omega)
  · exact getLsbD_fillNibble mode c w (by omega) (by omega)
  · exact getLsbD_fillNibble mode c w (by omega) hi

/-- Settles O40: each bit is the bit step at the chain's carry, in its closed form for each mode. -/
theorem fillWordIsACarryChain : Obligations.FillWordIsACarryChain := by
  unfold Obligations.FillWordIsACarryChain
  intro c w
  refine ⟨fun i hi => ?_, by rw [fillWord_eq_append], by rw [fillWord_eq_append]⟩
  rw [getLsbD_fillWord _ _ _ hi, getLsbD_fillWord _ _ _ hi, fillBit_exclusive, fillBit_inclusive]
  exact ⟨rfl, rfl⟩

/-- Settles O39: the rows are the nibble step run on all nibbles; the lookup is the nibble step, so four lookups are the
word fill. -/
theorem fillTablesAreTheNibbleStep : Obligations.FillTablesAreTheNibbleStep := by
  unfold Obligations.FillTablesAreTheNibbleStep
  refine ⟨by decide, by decide, by decide, by decide, by decide,
    fun mode c => ⟨fillLookup_eq_fillNibble mode c, fun w => ?_⟩⟩
  simp only [fillLookup_eq_fillNibble]
  rfl

/-! ### What no column reads (R137, R145) -/

/-- The state with another height and other histories of interrupts and answers, and the flag raised if `flag`. -/
def State.withBooks (height : Nat) (interrupts : List Nat) (responses : List Response) (flag : Bool) (s : State) :
    State :=
  { s with
    height := height, interrupts := interrupts, responses := responses, notZeroFlag := flag || s.notZeroFlag }

section Books
variable (height : Nat) (interrupts : List Nat) (responses : List Response) (flag : Bool)

theorem fetchA_withBooks (s : State) :
    fetchA (s.withBooks height interrupts responses flag) =
      (fetchA s).withBooks height interrupts responses flag := by
  rw [fetchA, fetchA, apply_ite (State.withBooks height interrupts responses flag)]
  rfl

theorem fetchB_withBooks (s : State) :
    fetchB (s.withBooks height interrupts responses flag) =
      (fetchB s).withBooks height interrupts responses flag := by
  rw [fetchB, fetchB, apply_ite (State.withBooks height interrupts responses flag)]
  rfl

theorem fetchC_withBooks (s : State) :
    fetchC (s.withBooks height interrupts responses flag) =
      (fetchC s).withBooks height interrupts responses flag := by
  rw [fetchC, fetchC, apply_ite (State.withBooks height interrupts responses flag)]
  rfl

theorem loadColumn_withBooks (x : Nat) (s : State) :
    loadColumn x (s.withBooks height interrupts responses flag) =
      (loadColumn x s).withBooks height interrupts responses flag := by
  unfold loadColumn
  rw [fetchA_withBooks, fetchB_withBooks, fetchC_withBooks]
  rfl

theorem noteOutput_withBooks (out : Word) (s : State) :
    noteOutput out (s.withBooks height interrupts responses flag) =
      (noteOutput out s).withBooks height interrupts responses flag := by
  simp [noteOutput, State.withBooks, Bool.or_assoc]

theorem writeBack_withBooks (out : Word) (s : State) :
    writeBack out (s.withBooks height interrupts responses flag) =
      (writeBack out s).withBooks height interrupts responses flag := by
  rw [writeBack, writeBack, apply_ite (State.withBooks height interrupts responses flag)]
  rfl

theorem columnOut_withBooks (x : Nat) (s : State) (carry : Bool) :
    columnOut x ⟨s.withBooks height interrupts responses flag, carry⟩ = columnOut x ⟨s, carry⟩ := by
  unfold columnOut
  rw [loadColumn_withBooks]
  rfl

/-- A column makes the same word and hands on the same carry; the flag it finds stays or-ed to its own (R170). -/
theorem rectColumn_withBooks (x : Nat) (s : State) (carry : Bool) :
    rectColumn x ⟨s.withBooks height interrupts responses flag, carry⟩ =
      ⟨(rectColumn x ⟨s, carry⟩).st.withBooks height interrupts responses flag, (rectColumn x ⟨s, carry⟩).carry⟩ := by
  unfold rectColumn
  rw [columnOut_withBooks, loadColumn_withBooks, noteOutput_withBooks, writeBack_withBooks]

/-- Neither the books nor the flag at entry steer a rectangle. -/
theorem rectRows_withBooks (H W : Nat) (s : State) :
    rectRows H W (s.withBooks height interrupts responses flag) =
      (rectRows H W s).withBooks height interrupts responses flag := by
  refine rectRows_sim (fun s₁ s₂ => s₁ = s₂.withBooks height interrupts responses flag) ?_ ?_ ?_ H W _ s rfl
  · rintro _ s rfl
    rfl
  · rintro x carry _ s rfl
    rw [rectColumn_withBooks]
    exact ⟨rfl, rfl⟩
  · rintro _ s rfl
    rfl

end Books

/-- A performed rectangle of `H` rows is its rows from the flag cleared, and then the books: idle, one interrupt and one
answer more (R211). -/
theorem performed_rect_eq_withBooks {s : State} (hmode : s.control.lineMode = false) (H : Nat) :
    performed { s with height := H } =
      (rectRows H s.control.width (clearNotZero s)).withBooks 0 (s.platform.irqBlitter :: s.interrupts)
        (.performed true :: s.responses) false := by
  have hrows := rectRows_withBooks H s.interrupts s.responses false H s.control.width (clearNotZero s)
  have hplatform : (rectRows H s.control.width (clearNotZero s)).platform = s.platform :=
    (rectRows_keeps H s.control.width (clearNotZero s)).platform
  rw [performed_rect (s := { s with height := H }) hmode]
  refine (congrArg (fun u => respond (.performed true) (complete u)) hrows).trans ?_
  rw [← hplatform]
  rfl

/-- Clearing the flag between two transfers and rewriting the books loses nothing: all can be put back. -/
theorem withBooks_clearNotZero_withBooks (height : Nat) (interrupts : List Nat) (responses : List Response)
    (flag : Bool) (s : State) :
    (clearNotZero (s.withBooks height interrupts responses flag)).withBooks s.height s.interrupts s.responses
      s.notZeroFlag = s := by
  simp [State.withBooks, clearNotZero]

/-- Rows that start from where others ended, the flag cleared between, end as if they had run on; only the flag of the
first rows has to be or-ed in (R145, R170). -/
theorem performed_rect_add {s t₁ : State} {m : Nat} (n : Nat) (hmode : s.control.lineMode = false)
    (h₁ : t₁ = performed { s with height := m }) :
    performed { s with height := m + n } =
      (performed { t₁ with height := n }).withBooks 0 (s.platform.irqBlitter :: s.interrupts)
        (.performed true :: s.responses) t₁.notZeroFlag := by
  obtain ⟨-, -, -, -, hcontrol, -⟩ := performed_eq { s with height := m }
  rw [← h₁] at hcontrol
  have hmode₁ : t₁.control.lineMode = false := by rw [hcontrol, hmode]
  rw [performed_rect_eq_withBooks hmode] at h₁
  rw [performed_rect_eq_withBooks hmode, performed_rect_eq_withBooks hmode₁, hcontrol, rectRows_add]
  generalize rectRows m s.control.width (clearNotZero s) = r at h₁ ⊢
  have hresume := rectRows_withBooks r.height r.interrupts r.responses r.notZeroFlag n s.control.width (clearNotZero t₁)
  rw [h₁, withBooks_clearNotZero_withBooks] at hresume
  rw [hresume, h₁]
  rfl

/-- Settles O48: the `n` rows run on from where the `m` rows ended, and the books between them are not read. -/
theorem rowsSplitIntoTwoTransfers : Obligations.RowsSplitIntoTwoTransfers := by
  unfold Obligations.RowsSplitIntoTwoTransfers
  intro s t t₁ t₂ m n hl hmode hm hn ht ht₁ ht₂
  obtain ⟨-, -, -, hfault, hcontrol, -⟩ := performed_eq { s with height := m }
  rw [execAdvance_rect (s := { s with height := m }) ⟨hl, hm, hmode⟩] at ht₁
  obtain rfl := next_inj ht₁
  rw [execAdvance_rect (s := { performed { s with height := m } with height := n })
    ⟨hfault.trans hl, hn, (congrArg Control.lineMode hcontrol).trans hmode⟩] at ht₂
  rw [execAdvance_rect (s := { s with height := m + n }) ⟨hl, by simp [hm], hmode⟩] at ht
  rw [← next_inj ht, ← next_inj ht₂, performed_rect_add n hmode rfl]
  exact ⟨rfl, rfl, rfl, rfl, rfl, rfl, rfl, rfl, rfl⟩

end Sys2Proof.Machine
end

section
/-! Proofs of the statements of `42_trigger.md`: the idle and the performed trigger (R140, R141), the transitions between
Idle and Running (R142), and one transfer for one trigger (R145). -/

namespace Sys2Proof.Machine

/-! ### The trigger in each state (R140, R141) -/

theorem execAdvance_idle {s : State} (hl : s.Live) (h0 : s.height = 0) :
    exec .advance s = .next (respond (.performed false) s) := by
  rw [execAdvance_live hl, if_pos h0]

/-- A busy engine performs the transfer unless it is a patterned line. -/
theorem execAdvance_performed {s : State} (hl : s.Live) (h0 : s.height ≠ 0)
    (hsolid : s.control.lineMode = false ∨ s.bData = 0xFFFF#16) : exec .advance s = .next (performed s) := by
  have hp : patternedLine s = false := by
    obtain hmode | hb := hsolid
    · simp [patternedLine, hmode]
    · simp [patternedLine, hb]
  rw [execAdvance_live hl, if_neg h0, hp, if_neg Bool.false_ne_true]

/-! ### What a command does to `height` (R142) -/

theorem exists_setSize_of_mnemonic {i : Instr} (h : i.mnemonic = "SET_SIZE") : ∃ v, i = .setSize v := by
  cases i
  case setSize v => exact ⟨v, rfl⟩
  all_goals simp [Instr.mnemonic] at h

theorem writeSize_height_ne_zero (v : Word) (s : State) : (writeSize v s).height ≠ 0 :=
  Nat.ne_of_gt (sizeHeight_mem_Icc v).1

theorem exec_height_ne_zero_of_setSize {i : Instr} {s t : State} (hsize : i.mnemonic = "SET_SIZE")
    (h : exec i s = .next t) : t.height ≠ 0 := by
  obtain ⟨v, rfl⟩ := exists_setSize_of_mnemonic hsize
  obtain ⟨hl, -⟩ := exec_next h
  rw [exec_setter_live rfl hl] at h
  rw [← next_inj h]
  exact writeSize_height_ne_zero v s

theorem exec_height_of_ne {i : Instr} {s t : State} (hsize : i.mnemonic ≠ "SET_SIZE") (hadvance : i ≠ .advance)
    (h : exec i s = .next t) : t.height = s.height := by
  obtain ⟨-, ⟨-, rfl⟩ | ⟨-, rfl⟩ | ⟨hi, -⟩ | ⟨hi, -⟩ | ⟨hi, -⟩⟩ := exec_next h
  · exact (setterUpdate_size hsize s).1
  · rfl
  all_goals exact absurd hi hadvance

/-- In an idle engine every command but `SET_SIZE` leaves it idle, and none faults (R141, R142). -/
theorem exec_keeps_idle {i : Instr} {s t : State} (hsize : i.mnemonic ≠ "SET_SIZE") (h0 : s.height = 0)
    (h : exec i s = .next t) : t.Live ∧ t.height = 0 := by
  obtain ⟨hl, ⟨-, rfl⟩ | ⟨-, rfl⟩ | ⟨-, -, rfl⟩ | ⟨-, hne, -⟩ | ⟨-, hne, -⟩⟩ := exec_next h
  · exact ⟨(setterUpdate_fault i s).trans hl, (setterUpdate_size hsize s).1.trans h0⟩
  · exact ⟨hl, h0⟩
  · exact ⟨hl, h0⟩
  all_goals exact absurd h0 hne

theorem runCommands_cons_next_inv {i : Instr} {is : List Instr} {s u : State}
    (h : runCommands (i :: is) s = .next u) : ∃ t, exec i s = .next t ∧ runCommands is t = .next u := by
  rw [runCommands] at h
  cases he : exec i s with
  | next t => rw [he] at h; exact ⟨t, rfl, h⟩
  | fault f => rw [he] at h; cases h
  | refused r => rw [he] at h; cases h

theorem runCommands_keeps_idle {is : List Instr} (hsize : ∀ i ∈ is, i.mnemonic ≠ "SET_SIZE") {s u : State}
    (hl : s.Live) (h0 : s.height = 0) (h : runCommands is s = .next u) : u.Live ∧ u.height = 0 := by
  induction is generalizing s with
  | nil => exact next_inj h ▸ ⟨hl, h0⟩
  | cons i is ih =>
    obtain ⟨hi, his⟩ := List.forall_mem_cons.mp hsize
    obtain ⟨t, ht, hrest⟩ := runCommands_cons_next_inv h
    obtain ⟨htl, ht0⟩ := exec_keeps_idle hi h0 ht
    exact ih his htl ht0 hrest

/-! ### The statements -/

/-- Settles O18: the idle test comes before the test for a patterned line. -/
theorem advanceWhenIdleDoesNothing : Obligations.AdvanceWhenIdleDoesNothing := by
  unfold Obligations.AdvanceWhenIdleDoesNothing
  intro s hl h0
  exact execAdvance_idle hl h0

/-- Settles O21: only `SET_SIZE` arms, only `ADVANCE` disarms, and no other command writes `height`. -/
theorem stateMachineTransitions : Obligations.StateMachineTransitions := by
  unfold Obligations.StateMachineTransitions
  intro i s t h
  refine ⟨fun ⟨h0, hne⟩ => ?_, fun ⟨hne, h0⟩ => ?_, fun hsize => exec_height_ne_zero_of_setSize hsize h, ?_,
    fun hsize hadvance => exec_height_of_ne hsize hadvance h⟩
  · by_contra hsize
    exact hne (exec_keeps_idle hsize h0 h).2
  · by_contra hadvance
    have hsize : i.mnemonic ≠ "SET_SIZE" := fun hsize => exec_height_ne_zero_of_setSize hsize h h0
    exact hne ((exec_height_of_ne hsize hadvance h).symm.trans h0)
  · rintro rfl hl
    exact height_eq_zero_of_advance h hl

/-- Settles O24: after an `ADVANCE` the engine is idle until a `SET_SIZE`, and `SET_SIZE` always makes it busy. -/
theorem oneTriggerOneTransfer : Obligations.OneTriggerOneTransfer := by
  unfold Obligations.OneTriggerOneTransfer
  intro s t ht hl
  have h0 : t.height = 0 := height_eq_zero_of_advance ht hl
  refine ⟨execAdvance_idle hl h0, fun is u his hu => ?_, fun v => ?_⟩
  · obtain ⟨hul, hu0⟩ := runCommands_keeps_idle his hl h0 hu
    exact execAdvance_idle hul hu0
  · have hne := writeSize_height_ne_zero v t
    refine ⟨writeSize v t, exec_setter_live rfl hl, busy_eq_true_of_armed hne, rfl, fun hsolid => ?_⟩
    obtain ⟨-, -, hresponses, -⟩ := performed_eq (writeSize v t)
    exact ⟨performed (writeSize v t), execAdvance_performed hl hne hsolid, hresponses⟩

/-- Settles O41: completion, and what no column and no row end of the rows writes. -/
theorem rectAdvanceCompletes : Obligations.RectAdvanceCompletes := by
  unfold Obligations.RectAdvanceCompletes
  intro s hrect
  have hexec := execAdvance_rect hrect
  obtain ⟨hl, -, hmode⟩ := hrect
  obtain ⟨hheight, hinterrupts, hresponses, hfault, hcontrol, hmodulo, hshiftB, hinputs, hplatform⟩ := performed_eq s
  have hkeeps := rectRows_keeps s.height s.control.width (clearNotZero s)
  have hpointer := rectRows_disabled_pointer s.height s.control.width (clearNotZero s)
  obtain ⟨haData, hbData, hcData, hmem⟩ := rectRows_disabled_latches s.height s.control.width (clearNotZero s)
  refine ⟨performed s, hexec, hheight, hinterrupts, hresponses, hfault.trans hl, hcontrol, ?_, hshiftB, hmodulo, ?_, ?_,
    ?_, ?_, ?_, hinputs, hplatform⟩
  all_goals rw [performed_rect hmode]
  · exact hkeeps.shiftA
  · exact haData
  · exact hbData
  · exact hcData
  · exact hpointer
  · exact hmem

/-- Settles O50: completion, and what no step of the line writes. -/
theorem lineAdvanceCompletes : Obligations.LineAdvanceCompletes := by
  unfold Obligations.LineAdvanceCompletes
  intro s hline
  have hexec := execAdvance_line hline
  obtain ⟨hl, -, hmode, -⟩ := hline
  obtain ⟨hheight, hinterrupts, hresponses, hfault, hcontrol, hmodulo, hshiftB, hinputs, hplatform⟩ := performed_eq s
  have hkeeps := lineSteps_keeps s.height (lineStart (clearNotZero s))
  refine ⟨performed s, hexec, hheight, hinterrupts, hresponses, hfault.trans hl, hcontrol, hshiftB, hmodulo, ?_, ?_, ?_,
    ?_, ?_, ?_, ?_, hinputs, hplatform⟩
  all_goals rw [performed_line hmode]
  · exact hkeeps.aData
  · exact hkeeps.bData
  · exact hkeeps.aAcc
  · exact hkeeps.bAcc
  · exact hkeeps.pointerA
  · exact hkeeps.pointerB
  · exact hkeeps.pointerC

end Sys2Proof.Machine
end

section
/-! Proofs of the statements of `43_datapath.md`: the column mask and the accumulators (R150, R151), the barrel shifters
(R152, R153), and the minterm selector with its useful truth tables (R154, R155). -/

namespace Sys2Proof.Machine

/-! ### The column mask (R150) -/

theorem ffff_eq_allOnes : 0xFFFF#16 = BitVec.allOnes 16 := rfl

theorem colMask_first {ct : Control} (h : 1 < ct.width) : colMask ct 0 = ct.firstMask := by
  rw [colMask_eq, if_pos rfl, if_neg (by omega), ffff_eq_allOnes, BitVec.and_allOnes]

theorem colMask_last {ct : Control} {x : Nat} (hlast : x + 1 = ct.width) (h : 1 < ct.width) :
    colMask ct x = ct.lastMask := by
  rw [colMask_eq, if_neg (by omega), if_pos hlast, ffff_eq_allOnes, BitVec.allOnes_and]

theorem colMask_only {ct : Control} (h : ct.width = 1) : colMask ct 0 = ct.firstMask &&& ct.lastMask := by
  rw [colMask_eq, if_pos rfl, if_pos h.symm]

theorem colMask_inner {ct : Control} {x : Nat} (hfirst : 0 < x) (hlast : x + 1 < ct.width) :
    colMask ct x = 0xFFFF#16 := by
  rw [colMask_eq, if_neg hfirst.ne', if_neg hlast.ne, BitVec.and_self]

/-! ### One bit position of the minterm selector (R154) -/

/-- The entry's index with each bit's weight written as a choice. -/
theorem mintermBit_eq_entry (T : BitVec 8) (a b c : Bool) :
    mintermBit T a b c = T.getLsbD ((if a then 4 else 0) + (if b then 2 else 0) + (if c then 1 else 0)) := by
  cases a <;> cases b <;> cases c <;> rfl

/-- One product of the sum-of-products form, at one bit position: the product word where the entry is 1, else 0. -/
theorem getLsbD_ite_zero (entry : Bool) (P : Word) (i : Nat) :
    (if entry then P else 0#16).getLsbD i = (entry && P.getLsbD i) := by
  cases entry
  · exact BitVec.getLsbD_zero
  · exact (Bool.true_and _).symm

/-- For each triple exactly one product is 1, that of the entry the triple selects. -/
theorem mintermBit_eq_sum (T : BitVec 8) (a b c : Bool) :
    mintermBit T a b c =
      (T.getLsbD 0 && (!a && !b && !c) || T.getLsbD 1 && (!a && !b && c) ||
        T.getLsbD 2 && (!a && b && !c) || T.getLsbD 3 && (!a && b && c) ||
        T.getLsbD 4 && (a && !b && !c) || T.getLsbD 5 && (a && !b && c) ||
        T.getLsbD 6 && (a && b && !c) || T.getLsbD 7 && (a && b && c)) := by
  cases a <;> cases b <;> cases c <;> simp [mintermBit]

/-! ### The statements -/

/-- Settles O35: the mask by the place of the column, and the accumulators by their two halves. -/
theorem accumulatorsHoldMaskedWords : Obligations.AccumulatorsHoldMaskedWords := by
  unfold Obligations.AccumulatorsHoldMaskedWords
  refine ⟨fun ct x _ => ⟨?_, fun hlast h => colMask_last hlast h, ?_, colMask_inner⟩, fun s x => ?_⟩
  · rintro rfl
    exact colMask_first
  · rintro rfl
    exact colMask_only
  · rw [accumulate_aAcc, accumulate_bAcc, shiftIn_eq_append, shiftIn_eq_append]
    exact ⟨rfl, rfl, accumulate_aData x s, accumulate_bData x s⟩

/-- Settles O36: the laws of the two shifters. -/
theorem barrelShifterJoinsTwoWords : Obligations.BarrelShifterJoinsTwoWords := by
  unfold Obligations.BarrelShifterJoinsTwoWords
  exact fun prev cur sh => ⟨barrel_ascending prev cur sh, barrel_descending prev cur sh⟩

/-- Settles O37: both forms hold of one bit position, and the selector works position by position. -/
theorem mintermSelectsTableEntry : Obligations.MintermSelectsTableEntry := by
  unfold Obligations.MintermSelectsTableEntry
  intro A B C T
  refine ⟨fun i hi => ?_, minterm_eq_of_bits A B C _ T fun i hi => ?_⟩
  · rw [getLsbD_minterm, decide_eq_true hi, Bool.true_and, mintermBit_eq_entry]
  · simp only [BitVec.getLsbD_or, BitVec.getLsbD_and, BitVec.getLsbD_not, getLsbD_ite_zero, hi, decide_true,
      Bool.true_and, mintermBit_eq_sum]

/-- Settles O38: the functions are bitwise, so each table is compared with its function on the eight triples of one bit
position. -/
theorem usefulTruthTables : Obligations.UsefulTruthTables := by
  unfold Obligations.UsefulTruthTables
  intro A B C
  and_intros
  all_goals
    refine minterm_eq_of_bits A B C _ _ fun i hi => ?_
    simp only [mintermBit_eq_entry, ffff_eq_allOnes, @BitVec.getLsbD_zero 16 i, BitVec.getLsbD_allOnes,
      BitVec.getLsbD_not, BitVec.getLsbD_and, BitVec.getLsbD_or, BitVec.getLsbD_xor, hi, decide_true, Bool.true_and]
    generalize A.getLsbD i = a
    generalize B.getLsbD i = b
    generalize C.getLsbD i = c
    revert a b c
    decide

end Sys2Proof.Machine
end

section
/-! Proofs of the statements of `44_rect_transfer.md`: the pointers (R172, R173) and the memory (R171, R173) a
rectangular transfer leaves, one column in full (R165), the flag (R170), and what is left when the sources or the
destination are disabled (R174). -/

namespace Sys2Proof.Machine

/-! ### Pointers and memory (R171 to R173) -/

/-- Settles O42: the pointer stands where row `height` would begin. -/
theorem rectPointersAdvance : Obligations.RectPointersAdvance := by
  unfold Obligations.RectPointersAdvance
  intro s t ch hrect ht
  have ⟨_, _, hmode⟩ := hrect
  rw [execAdvance_rect hrect] at ht
  rw [← next_inj ht, performed_rect hmode]
  show (rectRows s.height s.control.width (clearNotZero s)).pointer.get ch = _
  split
  · next hen =>
    have hrows := rectRows_pointer s.height (clearNotZero s) ch 0 0 hen
    rw [columnPointer_zero, Nat.zero_add] at hrows
    refine hrows.trans ?_
    rw [BitVec.mul_add, ← BitVec.ofNat_mul]
    rfl
  · next hdis => exact rectRows_disabled_pointer _ _ (clearNotZero s) ch (Bool.eq_false_iff.mpr hdis)

/-- Settles O44: each column stores into D's cell alone. -/
theorem rectMemoryFrame : Obligations.RectMemoryFrame := by
  unfold Obligations.RectMemoryFrame
  intro s t a hrect ht hcells
  have ⟨_, _, hmode⟩ := hrect
  rw [execAdvance_rect hrect] at ht
  rw [← next_inj ht, performed_rect hmode]
  exact rectRows_read a s.height (clearNotZero s) hcells

/-! ### The flag (R170) -/

/-- The flag an `ADVANCE` leaves, in terms of the course's output words. -/
theorem notZeroFlag_advance_iff {s t : State} (hrect : s.RectReady)
    (hwf : s.control.enables.d = true → s.mem.wf = true) (ht : exec .advance s = .next t) :
    t.notZeroFlag = true ↔ ∃ n, n < s.height * s.control.width ∧ (rectCourse s (n + 1)).out ≠ 0x0000#16 := by
  obtain ⟨-, -, -, -, -, -, -, hflag⟩ := (rectAccessesInOrder s t hrect ht).2 hwf
  rw [hflag]
  simp only [List.any_eq_true, List.mem_range, bne_iff_ne]

/-- Settles O60: each column or-s its word in, and the words are those of the course. -/
theorem flagCollectsEveryColumn : Obligations.FlagCollectsEveryColumn := by
  unfold Obligations.FlagCollectsEveryColumn
  refine ⟨rectColumn_flag, fun s hrect hwf => ?_⟩
  have hexec := execAdvance_rect hrect
  exact ⟨performed s, hexec, notZeroFlag_advance_iff hrect hwf hexec⟩

/-! ### One column (R165) -/

/-- The word a source channel contributes to the first column: the cell it points at, or its latch (R166). -/
theorem columnWord_first (s : State) (ch : Channel) (latch : Word) :
    columnWord s (rectCourse s 0) ch latch 0 =
      if s.control.enables.get ch then wordAt s (s.pointer.get ch) else latch := by
  rw [columnWord, columnCell, Nat.zero_div, Nat.zero_mod, columnPointer_zero]
  rfl

/-- The only column of a row meets both masks (R150). -/
theorem columnMask_only {s : State} (h : s.control.width = 1) :
    columnMask s 0 = s.control.firstMask &&& s.control.lastMask := by
  rw [columnMask, Nat.zero_mod, if_pos rfl, if_pos h.symm]

/-- Step 5 of R165 without the carry. -/
theorem filled_fst (s : State) (carry : Bool) (raw : Word) :
    (filled s carry raw).1 =
      if s.control.exclusiveFill then (fillWord .exclusive carry raw).1
      else if s.control.inclusiveFill then (fillWord .inclusive carry raw).1
      else raw := by
  rw [filled, apply_ite Prod.fst, apply_ite Prod.fst]

theorem add_scaled (s : State) (p m : Ptr) :
    p + scaled s m = if s.control.oneDot then p - m else p + m := by
  rw [scaled]
  split
  · rw [BitVec.zero_sub, ← BitVec.sub_eq_add_neg]
  · rfl

/-- What stands after the first column, where the row has no other. -/
theorem rectCourse_one {s : State} (h : s.control.width = 1) :
    let a := if s.control.enables.a then wordAt s s.pointer.a else s.aData
    let b := if s.control.enables.b then wordAt s s.pointer.b else s.bData
    let c := if s.control.enables.c then wordAt s s.pointer.c else s.cData
    let aAcc := s.aAcc.extractLsb' 0 16 ++ (a &&& s.control.firstMask &&& s.control.lastMask)
    let bAcc := s.bAcc.extractLsb' 0 16 ++ b
    let out := filled s s.control.fillCarry (combine s aAcc bAcc c)
    rectCourse s 1 =
      { aData := a, bData := b, cData := c, aAcc := aAcc, bAcc := bAcc, carry := out.2, out := out.1,
        stores := if s.control.enables.d then [(cellOf s.platform s.pointer.d, out.1)] else [] } := by
  have hcell : columnCell s .d 0 = cellOf s.platform s.pointer.d := by
    rw [columnCell, Nat.zero_div, Nat.zero_mod, columnPointer_zero]
    rfl
  rw [rectCourse, columnCourse, hcell, columnMask_only h, columnWord_first, columnWord_first, columnWord_first,
    Nat.zero_mod, if_pos rfl]
  simp only [BitVec.and_assoc]
  rfl

/-- A cell after one column: D's cell holds the column's word if D is enabled (R171). -/
theorem cellAfter_one_column (s : State) (d : Bool) (cell : Nat) (out : Word) (c : Nat) :
    cellAfter s (if d then [(cell, out)] else []) c =
      if d = true ∧ c = cell then out else readCell s.platform s.mem c := by
  cases d
  · rfl
  · simp [cellAfter]

/-- Settles O45: the first column of the course, in full. -/
theorem oneWordTransfer : Obligations.OneWordTransfer := by
  unfold Obligations.OneWordTransfer
  intro s hrect hheight hwidth hwf
  have hexec := execAdvance_rect hrect
  obtain ⟨h0, -, -, -, -, -, -, -, hplatform⟩ := performed_eq s
  obtain ⟨-, ha, hb, hc, haAcc, hbAcc, hcells, hany⟩ := (rectAccessesInOrder s _ hrect hexec).2 fun _ => hwf
  have hn : s.height * s.control.width = 1 := by rw [hheight, hwidth]
  rw [hn] at ha hb hc haAcc hbAcc hcells hany
  have hflag : (performed s).notZeroFlag = ((rectCourse s 1).out != 0x0000#16) := hany.trans (Bool.or_false _)
  simp only [rectCourse_one hwidth, filled_fst] at ha hb hc haAcc hbAcc hcells hflag
  refine ⟨performed s, hexec, ha, hb, hc, haAcc, hbAcc, hflag, h0, fun q => ?_, fun ch => ?_⟩
  · rw [wordAt, hcells, hplatform]
    exact cellAfter_one_column s _ _ _ _
  · rw [rectPointersAdvance s _ ch hrect hexec, hheight, hwidth, BitVec.one_mul, add_scaled]

/-! ### Columns that read no memory (R174) -/

/-- No source channel is enabled. -/
def State.NoSources (s : State) : Prop := ∀ ch, ch ≠ .d → s.control.enables.get ch = false

theorem loadColumn_of_noSources {s : State} (h : s.NoSources) (x : Nat) : loadColumn x s = accumulate x s := by
  have ha : s.control.enables.a = false := h .a (by decide)
  have hb : s.control.enables.b = false := h .b (by decide)
  have hc : s.control.enables.c = false := h .c (by decide)
  simp [loadColumn, fetchA, fetchB, fetchC, ha, hb, hc]

theorem exists_writeBack_onMemory (out : Word) (m : Memory) (o : ByteOrder) (s : State) :
    ∃ m', writeBack out (s.onMemory m o) = (writeBack out s).onMemory m' o := by
  cases hd : s.control.enables.d with
  | false =>
    refine ⟨m, ?_⟩
    have hd' : (s.onMemory m o).control.enables.d = false := hd
    simp [writeBack, hd, hd']
  | true =>
    have hd' : (s.onMemory m o).control.enables.d = true := hd
    simp only [writeBack, hd, hd', if_true]
    exact ⟨_, rfl⟩

/-- A column without sources makes the same word over any memory. -/
theorem exists_rectColumn_onMemory {s : State} (h : s.NoSources) (x : Nat) (carry : Bool) (m : Memory)
    (o : ByteOrder) :
    ∃ m', rectColumn x ⟨s.onMemory m o, carry⟩ =
      ⟨(rectColumn x ⟨s, carry⟩).st.onMemory m' o, (rectColumn x ⟨s, carry⟩).carry⟩ := by
  have hload : loadColumn x (s.onMemory m o) = (loadColumn x s).onMemory m o := by
    rw [loadColumn_of_noSources h, loadColumn_of_noSources (s := s.onMemory m o) h]
    rfl
  have hout : columnOut x ⟨s.onMemory m o, carry⟩ = columnOut x ⟨s, carry⟩ := by
    simp only [columnOut, hload]
    rfl
  obtain ⟨m', hwrite⟩ :=
    exists_writeBack_onMemory (columnOut x ⟨s, carry⟩).1 m o (noteOutput (columnOut x ⟨s, carry⟩).1 (loadColumn x s))
  refine ⟨m', ?_⟩
  rw [rectColumn, hout, hload]
  exact congrArg (RowRun.mk · _) hwrite

/-- A rectangle without sources runs alike over any memory. -/
theorem exists_rectRows_onMemory {s : State} (h : s.NoSources) (H W : Nat) (m : Memory) (o : ByteOrder) :
    ∃ m', rectRows H W (s.onMemory m o) = (rectRows H W s).onMemory m' o := by
  have hrows := rectRows_sim (fun s₁ s₂ => s₂.NoSources ∧ ∃ m', s₁ = s₂.onMemory m' o) ?_ ?_ ?_ H W
    (s.onMemory m o) s ⟨h, m, rfl⟩
  · exact hrows.2
  · rintro _ s ⟨-, m, rfl⟩
    rfl
  · rintro x carry _ s ⟨h, m, rfl⟩
    obtain ⟨m', hcol⟩ := exists_rectColumn_onMemory h x carry m o
    have hkeeps : (rectColumn x ⟨s, carry⟩).st.NoSources := by
      rw [State.NoSources, (rectColumn_keeps x ⟨s, carry⟩).control]
      exact h
    rw [hcol]
    exact ⟨⟨hkeeps, m', rfl⟩, rfl⟩
  · rintro _ s ⟨h, m, rfl⟩
    exact ⟨h, m, rfl⟩

/-- An `ADVANCE` without sources leaves the flag and the record it would leave over the empty memory. -/
theorem exists_advance_over_empty {s t : State} (hrect : s.RectReady) (h : s.NoSources)
    (ht : exec .advance s = .next t) :
    ∃ u, exec .advance (s.onMemory [] .big) = .next u ∧ u.notZeroFlag = t.notZeroFlag ∧ u.accesses = t.accesses := by
  have hrect' : (s.onMemory [] .big).RectReady := hrect
  have ⟨_, _, hmode⟩ := hrect
  obtain ⟨m, hrows⟩ := exists_rectRows_onMemory (s := clearNotZero s) h s.height s.control.width [] .big
  rw [execAdvance_rect hrect] at ht
  have hflag := congrArg State.notZeroFlag hrows
  have haccesses := congrArg State.accesses hrows
  refine ⟨_, execAdvance_rect hrect', ?_⟩
  rw [← next_inj ht, performed_rect hmode, performed_rect (s := s.onMemory [] .big) hmode]
  exact ⟨hflag, haccesses⟩

theorem noSources_of_enables {s : State} {d : Bool} (h : s.control.enables = ⟨false, false, false, d⟩) :
    s.NoSources := by
  intro ch hch
  rw [h]
  cases ch with
  | d => exact absurd rfl hch
  | _ => rfl

/-! ### Every input 0 (R174 (a)) -/

/-- The latches and the accumulators are 0. -/
def State.Cleared (s : State) : Prop :=
  s.aData = 0#16 ∧ s.bData = 0#16 ∧ s.cData = 0#16 ∧ s.aAcc = 0#32 ∧ s.bAcc = 0#32

/-- With all three inputs 0 every bit looks up entry 0 (R154, R155). -/
theorem minterm_zero (T : BitVec 8) :
    minterm 0#16 0#16 0#16 T = if T.getLsbD 0 then 0xFFFF#16 else 0x0000#16 := by
  refine minterm_eq_of_bits _ _ _ _ T fun i hi => ?_
  rw [getLsbD_ite_zero, ffff_eq_allOnes, BitVec.getLsbD_allOnes, decide_eq_true hi, Bool.and_true,
    BitVec.getLsbD_zero]
  rfl

/-- What is 0 at entry stays so where nothing is read. -/
theorem rectCourse_of_cleared {s : State} (h : s.NoSources) (hz : s.Cleared) (n : Nat) :
    (rectCourse s n).aData = 0#16 ∧ (rectCourse s n).bData = 0#16 ∧ (rectCourse s n).cData = 0#16 ∧
    (rectCourse s n).aAcc = 0#32 ∧ (rectCourse s n).bAcc = 0#32 := by
  induction n with
  | zero => exact hz
  | succ n ih =>
    obtain ⟨ha, hb, hc, haAcc, hbAcc⟩ := ih
    simp [rectCourse, columnCourse, columnWord, h .a, h .b, h .c, ha, hb, hc, haAcc, hbAcc]

/-- The output word of every column, fill off. -/
theorem rectCourse_out_of_cleared {s : State} (h : s.NoSources) (hz : s.Cleared)
    (hexclusive : s.control.exclusiveFill = false) (hinclusive : s.control.inclusiveFill = false) (n : Nat) :
    (rectCourse s (n + 1)).out = if s.control.minterms.getLsbD 0 then 0xFFFF#16 else 0x0000#16 := by
  obtain ⟨-, -, hc, haAcc, hbAcc⟩ := rectCourse_of_cleared h hz (n + 1)
  calc (rectCourse s (n + 1)).out
    _ = (filled s _ (combine s (rectCourse s (n + 1)).aAcc (rectCourse s (n + 1)).bAcc
          (rectCourse s (n + 1)).cData)).1 := rfl
    _ = combine s 0#32 0#32 0#16 := by rw [filled_fst, hexclusive, hinclusive, hc, haAcc, hbAcc]; rfl
    _ = _ := by rw [combine, barrel_zero, barrel_zero, minterm_zero]

/-- Settles O46: memory is not read, so over the empty one the course gives the record: one write of entry 0 for each
column. -/
theorem disabledSourcesRepeatEntryZero : Obligations.DisabledSourcesRepeatEntryZero := by
  unfold Obligations.DisabledSourcesRepeatEntryZero
  intro s t hrect ht hen ha hb hc haAcc hbAcc hexclusive hinclusive
  have hsources := noSources_of_enables hen
  obtain ⟨u, hu, -, haccesses⟩ := exists_advance_over_empty hrect hsources ht
  obtain ⟨hrecord, -⟩ := (rectAccessesInOrder (s.onMemory [] .big) u hrect hu).2 fun _ => rfl
  have hcolumn (n : Nat) : columnAccesses (s.onMemory [] .big) n =
      [.write (columnCell s .d n) (if s.control.minterms.getLsbD 0 then 0xFFFF#16 else 0x0000#16)] := by
    rw [columnAccesses, rectCourse_out_of_cleared (s := s.onMemory [] .big) hsources ⟨ha, hb, hc, haAcc, hbAcc⟩
      hexclusive hinclusive, show (s.onMemory [] .big).control.enables = _ from hen]
    rfl
  rw [funext hcolumn, haccesses, ← List.map_eq_flatMap, ← List.reverse_inj, List.reverse_append,
    List.reverse_reverse, List.reverse_reverse] at hrecord
  refine ⟨_, hrecord, ?_, fun x hx => ?_⟩
  · rw [List.length_reverse, List.length_map, List.length_range]
    rfl
  · rw [List.mem_reverse, List.mem_map] at hx
    obtain ⟨n, -, rfl⟩ := hx
    exact ⟨_, rfl⟩

/-! ### Channel D enabled or not (R170, R174 (b)) -/

/-- The state with channel D enabled as well. -/
def State.enableD (s : State) : State :=
  { s with control := { s.control with enables := { s.control.enables with d := true } } }

/-- The stores of a course are made at D's cells, in columns passed already. -/
theorem rectCourse_stores_cell (s : State) (n : Nat) {p : Nat × Word} (hp : p ∈ (rectCourse s n).stores) :
    ∃ m, m < n ∧ p.1 = columnCell s .d m := by
  induction n with
  | zero => cases hp
  | succ n ih =>
    have hcases : p = (columnCell s .d n, (rectCourse s (n + 1)).out) ∨ p ∈ (rectCourse s n).stores := by
      rw [rectCourse, columnCourse] at hp
      dsimp only at hp
      split at hp
      · exact List.mem_cons.mp hp
      · exact .inr hp
    obtain rfl | hold := hcases
    · exact ⟨n, Nat.lt_succ_self n, rfl⟩
    · obtain ⟨m, hm, hcell⟩ := ih hold
      exact ⟨m, Nat.lt_succ_of_lt hm, hcell⟩

theorem rectCourse_stores_of_d_disabled {s : State} (h : s.control.enables.d = false) (n : Nat) :
    (rectCourse s n).stores = [] := by
  induction n with
  | zero => rfl
  | succ n ih => rw [rectCourse, columnCourse, h, ih]; rfl

/-- A cell that no store names holds what it held at entry. -/
theorem cellAfter_of_not_stored (s : State) {stores : List (Nat × Word)} {c : Nat}
    (h : ∀ p ∈ stores, p.1 ≠ c) : cellAfter s stores c = readCell s.platform s.mem c := by
  induction stores with
  | nil => rfl
  | cons p stores ih =>
    obtain ⟨hp, hrest⟩ := List.forall_mem_cons.mp h
    rw [cellAfter, if_neg (Ne.symm hp), ih hrest]

/-- No enabled source reads, at a column, a cell channel D stores into at an earlier one. -/
def State.NoOverlap (s : State) : Prop :=
  ∀ ch, ch ≠ .d → s.control.enables.get ch = true → ∀ m n, m < n → n < s.height * s.control.width →
    columnCell s ch n ≠ columnCell s .d m

/-- A source word of a column does not tell whether D was enabled, where D's stores are not read. -/
theorem columnWord_enableD {s : State} (hd : s.control.enables.d = false) (ho : s.NoOverlap) {n : Nat}
    (hn : n < s.height * s.control.width) {ch : Channel} (hch : ch ≠ .d) (latch : Word) :
    columnWord s.enableD (rectCourse s.enableD n) ch latch n = columnWord s (rectCourse s n) ch latch n := by
  have hen : s.enableD.control.enables.get ch = s.control.enables.get ch := by
    cases ch with
    | d => exact absurd rfl hch
    | _ => rfl
  rw [columnWord, columnWord, hen, rectCourse_stores_of_d_disabled hd]
  split
  · next hread =>
    refine cellAfter_of_not_stored s.enableD fun p hp heq => ?_
    obtain ⟨m, hm, hcell⟩ := rectCourse_stores_cell s.enableD n hp
    exact ho ch hch hread m n hm hn (heq.symm.trans hcell)
  · rfl

/-- The same latches, accumulators, carry and output word, with other stores. -/
def RectCourse.withStores (stores : List (Nat × Word)) (k : RectCourse) : RectCourse := { k with stores := stores }

/-- The two courses differ in the stores alone. -/
theorem exists_rectCourse_enableD {s : State} (hd : s.control.enables.d = false) (ho : s.NoOverlap) {n : Nat}
    (hn : n ≤ s.height * s.control.width) :
    ∃ stores, rectCourse s.enableD n = (rectCourse s n).withStores stores := by
  induction n with
  | zero => exact ⟨[], rfl⟩
  | succ n ih =>
    obtain ⟨stores, hprev⟩ := ih (Nat.le_of_succ_le hn)
    have hword {ch : Channel} (hch : ch ≠ .d) (latch : Word) := columnWord_enableD hd ho hn hch latch
    simp only [hprev] at hword
    rw [rectCourse, rectCourse, hprev, columnCourse, columnCourse, hword (ch := .a) nofun, hword (ch := .b) nofun,
      hword (ch := .c) nofun]
    exact ⟨_, rfl⟩

/-- Where no source reads D's stores, `ADVANCE` leaves the same flag, latches and accumulators with D as without. -/
theorem advance_enableD {s t₀ t₁ : State} (hrect : s.RectReady) (hwf : s.mem.wf = true)
    (hd : s.control.enables.d = false) (ho : s.NoOverlap) (h₀ : exec .advance s = .next t₀)
    (h₁ : exec .advance s.enableD = .next t₁) :
    t₁.notZeroFlag = t₀.notZeroFlag ∧ t₁.aData = t₀.aData ∧ t₁.bData = t₀.bData ∧ t₁.cData = t₀.cData ∧
    t₁.aAcc = t₀.aAcc ∧ t₁.bAcc = t₀.bAcc := by
  have hrect₁ : s.enableD.RectReady := hrect
  obtain ⟨-, ha₀, hb₀, hc₀, haAcc₀, hbAcc₀, -⟩ := (rectAccessesInOrder s t₀ hrect h₀).2 fun _ => hwf
  obtain ⟨-, ha₁, hb₁, hc₁, haAcc₁, hbAcc₁, -⟩ := (rectAccessesInOrder s.enableD t₁ hrect₁ h₁).2 fun _ => hwf
  have hflag : t₁.notZeroFlag = true ↔ t₀.notZeroFlag = true := by
    rw [notZeroFlag_advance_iff hrect (fun _ => hwf) h₀, notZeroFlag_advance_iff hrect₁ (fun _ => hwf) h₁]
    refine exists_congr fun n => and_congr_right fun hn => ?_
    obtain ⟨stores, hcourse⟩ := exists_rectCourse_enableD hd ho hn
    rw [hcourse]
    rfl
  obtain ⟨stores, hcourse⟩ := exists_rectCourse_enableD hd ho (Nat.le_refl _)
  refine ⟨Bool.eq_iff_iff.mpr hflag, ?_, ?_, ?_, ?_, ?_⟩
  · exact ha₁.trans ((congrArg RectCourse.aData hcourse).trans ha₀.symm)
  · exact hb₁.trans ((congrArg RectCourse.bData hcourse).trans hb₀.symm)
  · exact hc₁.trans ((congrArg RectCourse.cData hcourse).trans hc₀.symm)
  · exact haAcc₁.trans ((congrArg RectCourse.aAcc hcourse).trans haAcc₀.symm)
  · exact hbAcc₁.trans ((congrArg RectCourse.bAcc hcourse).trans hbAcc₀.symm)

/-- With no source to overlap, any memory will do: the flag is that over the empty one. -/
theorem notZeroFlag_enableD_of_noSources {s t₀ t₁ : State} (hrect : s.RectReady) (h : s.NoSources)
    (hd : s.control.enables.d = false) (h₀ : exec .advance s = .next t₀) (h₁ : exec .advance s.enableD = .next t₁) :
    t₁.notZeroFlag = t₀.notZeroFlag := by
  have hsources : s.enableD.NoSources := by
    intro ch hch
    cases ch with
    | d => exact absurd rfl hch
    | a => exact h .a hch
    | b => exact h .b hch
    | c => exact h .c hch
  have hoverlap : (s.onMemory [] .big).NoOverlap := fun ch hch hread => absurd ((h ch hch).symm.trans hread) nofun
  obtain ⟨u₀, hu₀, hflag₀, -⟩ := exists_advance_over_empty hrect h h₀
  obtain ⟨u₁, hu₁, hflag₁, -⟩ := exists_advance_over_empty (s := s.enableD) hrect hsources h₁
  obtain ⟨hflag, -⟩ := advance_enableD (s := s.onMemory [] .big) hrect rfl hd hoverlap hu₀ hu₁
  rw [← hflag₀, ← hflag₁, hflag]

/-! ### The pure test: channel D disabled (R174 (b)) -/

/-- The word a source channel contributes to column `n`, from memory as it stood at entry. -/
def entryWord (s : State) (ch : Channel) (latch : Word) (n : Nat) : Word :=
  if s.control.enables.get ch then readCell s.platform s.mem (columnCell s ch n) else latch

/-- The masked A word of column `n` (R150). -/
def entryA (s : State) (n : Nat) : Word := entryWord s .a s.aData n &&& columnMask s n

/-- The B word of column `n`. -/
def entryB (s : State) (n : Nat) : Word := entryWord s .b s.bData n

/-- The A accumulator at column `n`: this column's word and the one before it (R151). -/
def entryAAcc (s : State) (n : Nat) : Acc :=
  (if n = 0 then s.aAcc.extractLsb' 0 16 else entryA s (n - 1)) ++ entryA s n

/-- The B accumulator at column `n` (R151). -/
def entryBAcc (s : State) (n : Nat) : Acc :=
  (if n = 0 then s.bAcc.extractLsb' 0 16 else entryB s (n - 1)) ++ entryB s n

/-- The logic function's word at column `n` (R168). -/
def entryRaw (s : State) (n : Nat) : Word :=
  combine s (entryAAcc s n) (entryBAcc s n) (entryWord s .c s.cData n)

/-- The fill carry that meets column `n`, chained from the row's seed (R137, R169). -/
def entryCarry (s : State) (n : Nat) : Bool :=
  (List.range (n % s.control.width)).foldl
    (fun c j => (filled s c (entryRaw s (n - n % s.control.width + j))).2) s.control.fillCarry

/-- The latch of a disabled source keeps its word throughout the course. -/
theorem rectCourse_latch_of_disabled (s : State) (n : Nat) :
    (s.control.enables.a = false → (rectCourse s n).aData = s.aData) ∧
    (s.control.enables.b = false → (rectCourse s n).bData = s.bData) ∧
    (s.control.enables.c = false → (rectCourse s n).cData = s.cData) := by
  induction n with
  | zero => exact ⟨fun _ => rfl, fun _ => rfl, fun _ => rfl⟩
  | succ n ih =>
    obtain ⟨iha, ihb, ihc⟩ := ih
    refine ⟨fun h => ?_, fun h => ?_, fun h => ?_⟩
    · simp [rectCourse, columnCourse, columnWord, PerChannel.get, h, iha h]
    · simp [rectCourse, columnCourse, columnWord, PerChannel.get, h, ihb h]
    · simp [rectCourse, columnCourse, columnWord, PerChannel.get, h, ihc h]

section PureTest
variable {s : State} (hd : s.control.enables.d = false)
include hd

/-- A source word of the course is that of memory at entry: nothing has been stored. -/
theorem columnWord_eq_entryWord {ch : Channel} {latch held : Word} (n : Nat)
    (h : s.control.enables.get ch = false → held = latch) :
    columnWord s (rectCourse s n) ch held n = entryWord s ch latch n := by
  rw [columnWord, entryWord, rectCourse_stores_of_d_disabled hd]
  split
  · rfl
  · next hdis => exact h (Bool.eq_false_iff.mpr hdis)

theorem rectCourse_entryWords (n : Nat) :
    columnWord s (rectCourse s n) .a (rectCourse s n).aData n = entryWord s .a s.aData n ∧
    columnWord s (rectCourse s n) .b (rectCourse s n).bData n = entryWord s .b s.bData n ∧
    columnWord s (rectCourse s n) .c (rectCourse s n).cData n = entryWord s .c s.cData n := by
  obtain ⟨ha, hb, hc⟩ := rectCourse_latch_of_disabled s n
  exact ⟨columnWord_eq_entryWord hd n ha, columnWord_eq_entryWord hd n hb, columnWord_eq_entryWord hd n hc⟩

/-- The accumulators of the course, both halves (R151). -/
theorem rectCourse_entryAccs (n : Nat) :
    (rectCourse s (n + 1)).aAcc = entryAAcc s n ∧ (rectCourse s (n + 1)).bAcc = entryBAcc s n := by
  have hstep (n : Nat) :
      (rectCourse s (n + 1)).aAcc = (rectCourse s n).aAcc.extractLsb' 0 16 ++ entryA s n ∧
      (rectCourse s (n + 1)).bAcc = (rectCourse s n).bAcc.extractLsb' 0 16 ++ entryB s n := by
    obtain ⟨ha, hb, -⟩ := rectCourse_entryWords hd n
    rw [rectCourse, columnCourse, ha, hb]
    exact ⟨rfl, rfl⟩
  obtain ⟨haAcc, hbAcc⟩ := hstep n
  cases n with
  | zero => exact ⟨haAcc, hbAcc⟩
  | succ n =>
    obtain ⟨haPrev, hbPrev⟩ := hstep n
    rw [haAcc, hbAcc, haPrev, hbPrev, BitVec.extractLsb'_append_eq_right, BitVec.extractLsb'_append_eq_right]
    exact ⟨rfl, rfl⟩

/-- A column of the course fills the word of its inputs at entry, from the row's seed or the column before. -/
theorem rectCourse_filled_seed (n : Nat) :
    ((rectCourse s (n + 1)).out, (rectCourse s (n + 1)).carry) =
      filled s (if n % s.control.width = 0 then s.control.fillCarry else (rectCourse s n).carry) (entryRaw s n) := by
  obtain ⟨haAcc, hbAcc⟩ := rectCourse_entryAccs hd n
  obtain ⟨-, -, hc⟩ := rectCourse_entryWords hd n
  have hcData : (rectCourse s (n + 1)).cData = entryWord s .c s.cData n := hc
  rw [entryRaw, ← haAcc, ← hbAcc, ← hcData]
  rfl

omit hd in
/-- The carry at column `x` of row `y`, chained over the columns before it in that row. -/
theorem entryCarry_of_index {y x : Nat} (hx : x < s.control.width) :
    entryCarry s (y * s.control.width + x) =
      (List.range x).foldl (fun c j => (filled s c (entryRaw s (y * s.control.width + j))).2) s.control.fillCarry := by
  rw [entryCarry, column_of_index hx, Nat.add_sub_cancel]

/-- The same with the carry in closed form: induction over the columns of the row (R137, R169). -/
theorem rectCourse_filled (y : Nat) {x : Nat} (hx : x < s.control.width) :
    ((rectCourse s (y * s.control.width + x + 1)).out, (rectCourse s (y * s.control.width + x + 1)).carry) =
      filled s (entryCarry s (y * s.control.width + x)) (entryRaw s (y * s.control.width + x)) := by
  rw [rectCourse_filled_seed hd, column_of_index hx, entryCarry_of_index hx]
  induction x with
  | zero => rfl
  | succ x ih =>
    have hprev := congrArg Prod.snd (rectCourse_filled_seed hd (y * s.control.width + x))
    rw [column_of_index (Nat.lt_of_succ_lt hx), ih (Nat.lt_of_succ_lt hx)] at hprev
    rw [if_neg (Nat.succ_ne_zero x), List.range_succ, List.foldl_append]
    exact congrArg (filled s · _) hprev

/-- The output word of a column of a pure test, from the words at entry alone. -/
theorem rectCourse_out_eq {n : Nat} (hn : n < s.height * s.control.width) :
    (rectCourse s (n + 1)).out = (filled s (entryCarry s n) (entryRaw s n)).1 := by
  have hwidth : 0 < s.control.width := Nat.pos_of_ne_zero fun h0 => by simp [h0] at hn
  have hfill := rectCourse_filled hd (n / s.control.width) (Nat.mod_lt n hwidth)
  rw [Nat.div_add_mod'] at hfill
  exact congrArg Prod.fst hfill

end PureTest

/-- Settles O47: without sources memory does not matter; without overlap the two courses differ in the stores alone;
without D nothing is stored, so every word is that of memory at entry. -/
theorem flagIgnoresDEnable : Obligations.FlagIgnoresDEnable := by
  unfold Obligations.FlagIgnoresDEnable
  refine ⟨fun s t₀ t₁ hrect hen h₀ h₁ => ?_, fun s t₀ t₁ hrect hwf hd ho h₀ h₁ => ?_, fun s hrect hd => ?_⟩
  · have hd : s.control.enables.d = false := congrArg PerChannel.d hen
    have henable : { s with control := { s.control with enables := ⟨false, false, false, true⟩ } } = s.enableD := by
      rw [State.enableD, hen]
    exact notZeroFlag_enableD_of_noSources hrect (noSources_of_enables hen) hd h₀ (henable ▸ h₁)
  · exact advance_enableD hrect hwf hd ho h₀ h₁
  · have hexec := execAdvance_rect hrect
    have ⟨_, _, hmode⟩ := hrect
    obtain ⟨-, -, -, hmem⟩ := rectRows_disabled_latches s.height s.control.width (clearNotZero s)
    have hflag := notZeroFlag_advance_iff hrect (fun h => Bool.noConfusion (hd.symm.trans h)) hexec
    refine ⟨performed s, hexec, ?_, hflag.trans (exists_congr fun n => and_congr_right fun hn => ?_)⟩
    · rw [performed_rect hmode]
      exact hmem hd
    · rw [rectCourse_out_eq hd hn]
      rfl

end Sys2Proof.Machine
end

section
/-! Proofs of the statements of `45_line_draw.md`: the step set (R190), which steps plot (R187 to R189), the two axis
steps (R192, R193), memory and one step of a line in full (R185, R188, R195), the ideal line (R191), and what no line
reads (R188). -/

namespace Sys2Proof.Machine

/-! ### The step set, and which steps plot (R187 to R190) -/

/-- Settles O54: the eight codes, evaluated. -/
theorem stepSetOfEachCode : Obligations.StepSetOfEachCode := by
  unfold Obligations.StepSetOfEachCode
  decide

theorem signMove_ne_stay (neg : Bool) : signMove neg ≠ .stay := by
  cases neg <;> nofun

/-- A step has a y part if y is the major axis or the step is diagonal (R190). -/
theorem lineMoves_snd_bne_stay (dir : BitVec 3) (diagonal : Bool) :
    ((lineMoves dir diagonal).2 != .stay) = (!dir.getLsbD 2 || diagonal) := by
  unfold lineMoves
  cases dir.getLsbD 2
  · simp [signMove_ne_stay]
  · cases diagonal <;> simp [signMove_ne_stay]

/-- The draw state after a step, by the control fields at entry (R189, R193). -/
theorem lineSteps_succ_draw (s : State) (k : Nat) :
    (lineSteps (k + 1) (lineStart s)).draw =
      ((lineSteps k (lineStart s)).draw && !s.control.oneDot ||
        (!s.control.lineDirection.getLsbD 2 || decide (0 ≤ (lineSteps k (lineStart s)).error))) := by
  have hcontrol : (lineSteps k (lineStart s)).st.control = s.control := (lineSteps_keeps k (lineStart s)).control
  rw [lineSteps_succ, lineStep_draw, lineMoves_snd_bne_stay, hcontrol]

/-- Settles O53: drawing stays on without one-dot mode, and a y part turns it on again. -/
theorem whichStepsPlot : Obligations.WhichStepsPlot := by
  unfold Obligations.WhichStepsPlot
  intro s k
  refine ⟨rfl, fun hdot => ?_, fun hy => ?_, fun hdot hx => ?_⟩
  · induction k with
    | zero => rfl
    | succ k ih => rw [lineSteps_succ_draw, ih, hdot]; rfl
  · cases k with
    | zero => rfl
    | succ k => rw [lineSteps_succ_draw, hy]; exact Bool.or_true _
  · rw [lineSteps_succ_draw, hdot, hx, Bool.not_true, Bool.and_false, Bool.false_or, Bool.false_or]

/-! ### The two axis steps (R192, R193) -/

/-- Settles O55: an x step is one pixel of the position, and both steps are record updates. -/
theorem stepsMoveOnePixel : Obligations.StepsMoveOnePixel := by
  unfold Obligations.StepsMoveOnePixel
  intro s
  refine ⟨pixelPosition_stepX .forth s, ?_, rfl, rfl, rfl, rfl, fun m => stepX_eq m s⟩
  rw [pixelPosition_stepX, BitVec.sub_eq_add_neg]
  rfl

/-! ### What a line `ADVANCE` leaves (R185, R195) -/

/-- A line `ADVANCE` is `height` steps from the state it is issued in, but for the flag, and then completion (R140). -/
theorem exists_advance_line_eq {s t : State} (hline : s.LineReady) (ht : exec .advance s = .next t) :
    ∃ flag, t = respond (.performed true)
      (complete { (lineSteps s.height (lineStart s)).st with notZeroFlag := flag }) := by
  have ⟨_, _, hmode, _⟩ := hline
  obtain ⟨flag, hsteps⟩ := lineSteps_clearNotZero s.height s
  rw [execAdvance_line hline, performed_line hmode, hsteps] at ht
  exact ⟨flag, (next_inj ht).symm⟩

/-- Settles O52: a step stores into the cell it plots alone. -/
theorem lineMemoryFrame : Obligations.LineMemoryFrame := by
  unfold Obligations.LineMemoryFrame
  intro s t a hline ht hcells
  obtain ⟨flag, rfl⟩ := exists_advance_line_eq hline ht
  exact lineSteps_read a s.height (lineStart s) hcells

/-! ### A step by its two axes (R190) -/

/-- The sign of the major step. -/
def majorSign (s : State) : Int := if s.control.lineDirection.getLsbD 1 then -1 else 1

/-- The sign of the minor step. -/
def minorSign (s : State) : Int := if s.control.lineDirection.getLsbD 0 then -1 else 1

/-- A distance along the major and one along the minor axis, as one along x and one along y. -/
def alongAxes (s : State) (major minor : Int) : Int × Int :=
  if s.control.lineDirection.getLsbD 2 then (major, minor) else (minor, major)

theorem alongAxes_fst (s : State) (major minor : Int) :
    (alongAxes s major minor).1 = if s.control.lineDirection.getLsbD 2 then major else minor := by
  rw [alongAxes, apply_ite Prod.fst]

theorem alongAxes_snd (s : State) (major minor : Int) :
    (alongAxes s major minor).2 = if s.control.lineDirection.getLsbD 2 then minor else major := by
  rw [alongAxes, apply_ite Prod.snd]

theorem alongAxes_zero (s : State) : alongAxes s 0 0 = 0 := by
  rw [alongAxes, ite_self]
  rfl

theorem alongAxes_add (s : State) (major minor major' minor' : Int) :
    alongAxes s (major + major') (minor + minor') = alongAxes s major minor + alongAxes s major' minor' := by
  unfold alongAxes
  split <;> rfl

/-- The step vector is one step along the major axis, and one along the minor axis if the error is not negative. -/
theorem stepVector_eq_alongAxes (s : State) (error : Int) :
    stepVector s error = alongAxes s (majorSign s) (if 0 ≤ error then minorSign s else 0) := rfl

/-! ### One step of a line (R185) -/

/-- The cell, the word read and the word written by the first step of the course (R188). -/
theorem lineCourse_first_plot (s : State) :
    (lineCourse s 0).cell s = cellOf s.platform s.pointer.d ∧
    (lineCourse s 0).readWord s = wordAt s s.pointer.d ∧
    (lineCourse s 0).written s =
      minterm (s.aData >>> s.shiftA.toNat) 0xFFFF#16 (wordAt s s.pointer.d) s.control.minterms := by
  have hpointer : (lineCourse s 0).position.extractLsb' 4 32 = s.pointer.d := pixelPosition_pointer s
  have hshift : (lineCourse s 0).position.extractLsb' 0 4 = s.shiftA := pixelPosition_shift s
  have hcell : (lineCourse s 0).cell s = cellOf s.platform s.pointer.d := by rw [LineCourse.cell, hpointer]
  have hread : (lineCourse s 0).readWord s = wordAt s s.pointer.d := by rw [LineCourse.readWord, hcell]; rfl
  exact ⟨hcell, hread, by rw [LineCourse.written, hshift, hread]⟩

/-- The position after the first step of the course: moved by the sign of the seed (R186, R191). -/
theorem lineCourse_one_position (s : State) :
    (lineCourse s 1).position =
      pixelPosition s + BitVec.ofInt 36 (stepVector s (errorSeed s)).1 +
        rowDistance (stepVector s (errorSeed s)).2 s.modulo.c := rfl

/-- Settles O57: the first step of the course, which plots. -/
theorem oneStepLine : Obligations.OneStepLine := by
  unfold Obligations.OneStepLine
  intro s hline hheight hwf
  have hexec := execAdvance_line hline
  obtain ⟨h0, -, -, -, -, -, -, -, hplatform⟩ := performed_eq s
  obtain ⟨-, hcourse⟩ := lineAccessesInOrder s _ hline hexec
  obtain ⟨-, hc, hposition, hcells, hany⟩ := hcourse hwf
  rw [hheight] at hc hposition hcells hany
  obtain ⟨hcell, hread, hwritten⟩ := lineCourse_first_plot s
  have hflag : (performed s).notZeroFlag = ((lineCourse s 0).written s != 0x0000#16) := hany.trans (Bool.or_false _)
  refine ⟨performed s, hexec, hc.trans hread, hwritten ▸ hflag, h0, fun q => ?_, ?_⟩
  · rw [wordAt, hcells, hplatform, ← hcell, ← hwritten]
    rfl
  · rw [hposition, lineCourse_one_position, stepVector_eq_alongAxes, alongAxes_fst, alongAxes_snd]
    simp only [decide_eq_true_eq]
    rfl

/-! ### The ideal line (R191 to R194) -/

/-- The minor steps an ideal line of extents `m` and `M` has taken after `k` major ones: `k * m / M`, rounded. -/
def idealMinor (m M : Int) (k : Nat) : Int := (2 * m * k + M) / (2 * M)

/-- The error at step `k` of the set-up with seed `2 * m - M`, in closed form: negative exactly while no minor step is
due (R191). -/
def idealError (m M : Int) (k : Nat) : Int := 2 * m * (k + 1) - M - 2 * M * idealMinor m M k

section IdealLine
variable {m M : Int} (hm : 0 ≤ m) (hmM : m ≤ M) (hM : 0 < M)
include hM

theorem idealMinor_zero : idealMinor m M 0 = 0 := by
  rw [idealMinor, Nat.cast_zero, Int.mul_zero, Int.zero_add]
  exact Int.ediv_eq_zero_of_lt (Int.le_of_lt hM) (by omega)

theorem idealError_zero : idealError m M 0 = 2 * m - M := by
  simp [idealError, idealMinor_zero hM]

include hm hmM

/-- The rounded quotient grows by one exactly where the error is not negative, and never by more, since `m ≤ M`. -/
theorem idealMinor_succ (k : Nat) :
    idealMinor m M (k + 1) = idealMinor m M k + if 0 ≤ idealError m M k then 1 else 0 := by
  have hlo : 2 * M * idealMinor m M k ≤ 2 * m * k + M := Int.mul_ediv_self_le (by omega)
  have hhi : 2 * m * k + M < 2 * M * idealMinor m M k + 2 * M := Int.lt_mul_ediv_self_add (by omega)
  have hk : 2 * m * ((k + 1 : Nat) : Int) = 2 * m * k + 2 * m := by rw [Nat.cast_succ, Int.mul_add, Int.mul_one]
  have herr : idealError m M k = 2 * m * k + 2 * m - M - 2 * M * idealMinor m M k := by rw [idealError, ← hk]; rfl
  rw [idealMinor, Int.ediv_eq_iff_of_pos (by omega), herr, hk]
  split <;> constructor <;> linarith

theorem idealError_succ (k : Nat) :
    idealError m M (k + 1) = idealError m M k + if idealError m M k < 0 then 2 * m else 2 * m - 2 * M := by
  have hstep := idealMinor_succ hm hmM hM k
  by_cases hneg : idealError m M k < 0
  · rw [if_neg (Int.not_le.mpr hneg)] at hstep
    rw [if_pos hneg, idealError, hstep, idealError]
    push_cast
    ring
  · rw [if_pos (Int.not_lt.mp hneg)] at hstep
    rw [if_neg hneg, idealError, hstep, idealError]
    push_cast
    ring

end IdealLine

/-- The position moved by `v.1` pixels along the bitmap's words and by `v.2` rows (R192, R193). -/
def movedPosition (s : State) (v : Int × Int) : BitVec 36 :=
  pixelPosition s + BitVec.ofInt 36 v.1 + rowDistance v.2 s.modulo.c

theorem movedPosition_zero (s : State) : movedPosition s 0 = pixelPosition s := by
  simp [movedPosition]

theorem movedPosition_add (s : State) (v w : Int × Int) :
    movedPosition s (v + w) = movedPosition s v + BitVec.ofInt 36 w.1 + rowDistance w.2 s.modulo.c := by
  rw [movedPosition, movedPosition, Prod.fst_add, Prod.snd_add, rowDistance_add, BitVec.ofInt_add]
  ac_rfl

/-- The position after a step, by the control fields and the stride at entry. -/
theorem pixelPosition_lineSteps_succ (s : State) (k : Nat) :
    pixelPosition (lineSteps (k + 1) (lineStart s)).st =
      pixelPosition (lineSteps k (lineStart s)).st +
        BitVec.ofInt 36 (stepVector s (lineSteps k (lineStart s)).error).1 +
        rowDistance (stepVector s (lineSteps k (lineStart s)).error).2 s.modulo.c := by
  have hkeeps := lineSteps_keeps k (lineStart s)
  rw [lineSteps_succ, pixelPosition_lineStep, hkeeps.modulo, stepVector_eq s _ hkeeps.control]
  rfl

/-- The error after a step, by the modulos at entry (R191). -/
theorem lineSteps_succ_error (s : State) (k : Nat) :
    (lineSteps (k + 1) (lineStart s)).error = lineError s (lineSteps k (lineStart s)).error := by
  rw [lineSteps_succ, lineStep_error, lineError, (lineSteps_keeps k (lineStart s)).modulo]
  rfl

/-- The classical set-up of a line of extents `m` and `M`, times a positive factor `f` (R191). -/
structure ClassicalSetup (s : State) (f m M : Int) : Prop where
  factor_pos : 0 < f
  minor_nonneg : 0 ≤ m
  minor_le_major : m ≤ M
  major_pos : 0 < M
  seed : errorSeed s = f * (2 * m - M)
  secondary : s.modulo.b.toInt = f * (2 * m)
  primary : s.modulo.a.toInt = f * (2 * m - 2 * M)

section ClassicalSetup
variable {s : State} {f m M : Int} (hset : ClassicalSetup s f m M)
include hset

theorem ClassicalSetup.lineError_eq (e : Int) :
    lineError s (f * e) = f * (e + if e < 0 then 2 * m else 2 * m - 2 * M) := by
  have hsign : f * e < 0 ↔ e < 0 := lt_iff_lt_of_le_iff_le (mul_nonneg_iff_of_pos_left hset.factor_pos)
  simp only [lineError, hset.secondary, hset.primary, hsign]
  split <;> rw [Int.mul_add]

/-- The error runs as the closed form says, times the factor. -/
theorem ClassicalSetup.lineSteps_error (k : Nat) :
    (lineSteps k (lineStart s)).error = f * idealError m M k := by
  induction k with
  | zero =>
    rw [idealError_zero hset.major_pos]
    exact hset.seed
  | succ k ih =>
    rw [lineSteps_succ_error, ih, hset.lineError_eq,
      idealError_succ hset.minor_nonneg hset.minor_le_major hset.major_pos]

/-- After `k` steps the line has moved by `k` major steps and the rounded number of minor steps. -/
theorem ClassicalSetup.lineSteps_position (k : Nat) :
    pixelPosition (lineSteps k (lineStart s)).st =
      movedPosition s (alongAxes s (majorSign s * k) (minorSign s * idealMinor m M k)) := by
  induction k with
  | zero =>
    rw [idealMinor_zero hset.major_pos, Nat.cast_zero, Int.mul_zero, Int.mul_zero, alongAxes_zero, movedPosition_zero]
    rfl
  | succ k ih =>
    have hminor : minorSign s * idealMinor m M (k + 1) =
        minorSign s * idealMinor m M k + if 0 ≤ f * idealError m M k then minorSign s else 0 := by
      simp only [idealMinor_succ hset.minor_nonneg hset.minor_le_major hset.major_pos,
        mul_nonneg_iff_of_pos_left hset.factor_pos, Int.mul_add, mul_ite, Int.mul_one, Int.mul_zero]
    rw [pixelPosition_lineSteps_succ, ih, hset.lineSteps_error, hminor, Nat.cast_succ, Int.mul_add, Int.mul_one,
      alongAxes_add, movedPosition_add, stepVector_eq_alongAxes]

end ClassicalSetup

/-- Settles O58: `ADVANCE` ends where `height` steps end, and each step keeps to the ideal line. -/
theorem lineFollowsIdealLine : Obligations.LineFollowsIdealLine := by
  unfold Obligations.LineFollowsIdealLine
  intro s t f m M hline ht hf hm hmM hM hseed hsecondary hprimary
  have hsteps := ClassicalSetup.lineSteps_position ⟨hf, hm, hmM, hM, hseed, hsecondary, hprimary⟩
  simp only [movedPosition, alongAxes_fst, alongAxes_snd] at hsteps
  obtain ⟨flag, rfl⟩ := exists_advance_line_eq hline ht
  exact ⟨hsteps, hsteps s.height⟩

/-! ### What no line reads (R188, R24) -/

/-- `u` with the registers a line reads or writes, memory and the record of accesses taken from `s`. -/
def State.withLineOf (u s : State) : State :=
  { u with
    control :=
      { u.control with
        minterms := s.control.minterms, lineDirection := s.control.lineDirection, oneDot := s.control.oneDot }
    shiftA := s.shiftA
    pointer := { u.pointer with d := s.pointer.d }
    modulo := { u.modulo with a := s.modulo.a, b := s.modulo.b, c := s.modulo.c }
    aData := s.aData
    bData := s.bData
    cData := s.cData
    notZeroFlag := s.notZeroFlag
    mem := s.mem
    accesses := s.accesses
    platform := s.platform }

/-- The same line in progress, the registers it does not read those of `u`. -/
def LineRun.within (u : State) (r : LineRun) : LineRun := { r with st := u.withLineOf r.st }

theorem stepX_withLineOf (u : State) (mv : Move) (s : State) :
    stepX mv (u.withLineOf s) = u.withLineOf (stepX mv s) := by
  cases mv with
  | stay => rfl
  | forth => rw [stepX, stepX, apply_ite u.withLineOf]; rfl
  | back => rw [stepX, stepX, apply_ite u.withLineOf]; rfl

theorem stepY_withLineOf (u : State) (mv : Move) (s : State) :
    stepY mv (u.withLineOf s) = u.withLineOf (stepY mv s) := by
  cases mv <;> rfl

theorem linePlot_within (u : State) (r : LineRun) : linePlot (r.within u) = (linePlot r).within u := by
  rw [linePlot, linePlot, apply_ite (LineRun.within u)]
  rfl

theorem lineMove_within (u : State) (r : LineRun) : lineMove (r.within u) = (lineMove r).within u := by
  unfold lineMove LineRun.within
  simp only [stepX_withLineOf, stepY_withLineOf]
  rfl

/-- A line runs alike whatever the registers are that it does not read. -/
theorem lineSteps_within (u : State) (n : Nat) (r : LineRun) :
    lineSteps n (r.within u) = (lineSteps n r).within u := by
  refine lineSteps_sim (fun r₁ r₂ => r₁ = r₂.within u) ?_ n _ r rfl
  rintro _ r rfl
  rw [lineStep, lineStep, linePlot_within, lineMove_within]

/-- The first step plots, so what `c_data` holds at entry is lost (R187, R195). -/
theorem lineSteps_of_cData {n : Nat} (hn : n ≠ 0) (c : Word) (s : State) :
    lineSteps n (lineStart { s with cData := c }) = lineSteps n (lineStart s) := by
  obtain ⟨n, rfl⟩ := Nat.exists_eq_succ_of_ne_zero hn
  rfl

/-- Settles O59: but for `c_data` at entry, which the first step replaces, one state is the other's line within its own
registers. -/
theorem lineIgnoresOtherRegisters : Obligations.LineIgnoresOtherRegisters := by
  unfold Obligations.LineIgnoresOtherRegisters
  intro s₁ s₂ t₁ t₂ hline₁ hline₂ hheight haData hshift hpointer hseed hmodA hmodB hmodC hminterms hdir hdot hmem
    hplatform haccesses ht₁ ht₂
  have ⟨_, hheight₂, hmode₂, hb₂⟩ := hline₂
  have ⟨_, _, hmode₁, hb₁⟩ := hline₁
  have hstart : lineStart { clearNotZero s₂ with cData := s₁.cData } = (lineStart (clearNotZero s₁)).within s₂ := by
    simp [lineStart, errorSeed, LineRun.within, State.withLineOf, clearNotZero, haData, hshift, hpointer, hseed, hmodA,
      hmodB, hmodC, hminterms, hdir, hdot, hmem, hplatform, haccesses, hb₁, hb₂]
  rw [execAdvance_line hline₁, performed_line hmode₁] at ht₁
  rw [execAdvance_line hline₂, performed_line hmode₂, ← lineSteps_of_cData hheight₂ s₁.cData, hstart,
    lineSteps_within, ← hheight] at ht₂
  rw [← next_inj ht₁, ← next_inj ht₂]
  exact ⟨rfl, rfl, rfl, rfl, rfl, rfl⟩

end Sys2Proof.Machine
end

section
/-! Proofs of the statements of `46_status.md`: the status word and its read (R210), the interrupt of completion (R211)
and the busy bit from `SET_SIZE` to the next `ADVANCE` (R213). -/

namespace Sys2Proof.Machine

/-! ### The status word (R210, R91) -/

/-- The two flag bits stand apart, so their words add (R91). -/
theorem statusWord_eq_add (s : State) :
    statusWord s =
      (if s.notZeroFlag then 0x0000#16 else 0x2000#16) + (if s.height = 0 then 0x0000#16 else 0x4000#16) := by
  unfold statusWord
  by_cases h0 : s.height = 0
  · rw [busy_eq_false_of_idle h0, if_pos h0]
    cases s.notZeroFlag <;> rfl
  · rw [busy_eq_true_of_armed h0, if_neg h0]
    cases s.notZeroFlag <;> rfl

theorem busyBit_eq_true_iff (s : State) : (statusWord s).getLsbD 14 = true ↔ s.height ≠ 0 := by
  rw [getLsbD_statusWord_busyBit, busy, bne_iff_ne]

theorem busyBit_eq_false_iff (s : State) : (statusWord s).getLsbD 14 = false ↔ s.height = 0 := by
  rw [getLsbD_statusWord_busyBit, busy, bne_eq_false_iff_eq]

/-! ### The interrupt of completion (R211) -/

theorem setterUpdate_interrupts (i : Instr) (s : State) : (setterUpdate i s).interrupts = s.interrupts := by
  rw [setterUpdate_frame]

theorem patternedLine_iff (s : State) :
    patternedLine s = true ↔ s.control.lineMode = true ∧ s.bData ≠ 0xFFFF#16 := by
  rw [patternedLine, Bool.and_eq_true, bne_iff_ne]

/-! ### The statements -/

/-- Settles O26: the answer is the status word, whose two bits add. -/
theorem getStatusAnswersBusyAndZero : Obligations.GetStatusAnswersBusyAndZero := by
  unfold Obligations.GetStatusAnswersBusyAndZero
  intro s hl
  exact ⟨statusWord s, execGetStatus_live hl, statusWord_eq_add s⟩

/-- Settles O22: of all that a command can do, only a performed transfer posts an interrupt. -/
theorem oneInterruptPerTransfer : Obligations.OneInterruptPerTransfer := by
  unfold Obligations.OneInterruptPerTransfer
  intro i s t h
  simp only [← patternedLine_iff]
  obtain ⟨-, ⟨hsetter, rfl⟩ | ⟨rfl, rfl⟩ | ⟨rfl, h0, rfl⟩ | ⟨rfl, -, hp, rfl⟩ | ⟨rfl, h0, hp, rfl⟩⟩ := exec_next h
  · have hi : i ≠ .advance := by rintro rfl; cases hsetter
    rw [setterUpdate_interrupts, if_neg fun hc => hi hc.1]
  · rfl
  · simp [h0]
  · simp [hp]
  · obtain ⟨-, hinterrupts, -⟩ := performed_eq s
    simp [h0, hp, hinterrupts]

/-- Settles O27: bit 14 is on exactly when `height` is not 0, so the transitions of `height` are those of the bit. -/
theorem busyFromSizeToAdvance : Obligations.BusyFromSizeToAdvance := by
  unfold Obligations.BusyFromSizeToAdvance
  simp only [busyBit_eq_true_iff, busyBit_eq_false_iff]
  refine ⟨fun v s hl => ⟨writeSize v s, exec_setter_live rfl hl, writeSize_height_ne_zero v s⟩,
    fun i s t h hne h0 => ?_, fun s t h hl => ?_, fun i s t h h0 hne => ?_⟩
  · obtain ⟨-, hdisarms, -⟩ := stateMachineTransitions i s t h
    exact hdisarms ⟨hne, h0⟩
  · have h0 := height_eq_zero_of_advance h hl
    exact ⟨h0, h0⟩
  · obtain ⟨harms, -⟩ := stateMachineTransitions i s t h
    exact harms ⟨h0, hne⟩

end Sys2Proof.Machine
end

section
/-! Proofs of the statements of `60_exceptions.md`: the one fault of the block, raised by a patterned line, and what it
leaves alone (R220, R221, R224). -/

namespace Sys2Proof.Machine

/-! ### The faulting trigger, and the commands that answer (R220, R221) -/

theorem execAdvance_patterned {s : State} (hl : s.Live) (h0 : s.height ≠ 0) (hp : patternedLine s = true) :
    exec .advance s = .next { s with fault := some .unsupportedPatternedLine } := by
  rw [execAdvance_live hl, if_neg h0, if_pos hp]

/-- No command is stuck or refused in a live state. -/
theorem exists_exec_next (i : Instr) {s : State} (hl : s.Live) : ∃ t, exec i s = .next t := by
  cases hi : i.isSetter with
  | true => exact ⟨_, exec_setter_live hi hl⟩
  | false =>
    cases i
    case advance =>
      rw [execAdvance_live hl]
      split_ifs <;> exact ⟨_, rfl⟩
    case getStatus => exact ⟨_, execGetStatus_live hl⟩
    all_goals cases hi

/-! ### The statements -/

/-- Settles O19: the second of the three cases of `ADVANCE`. -/
theorem patternedLineFaults : Obligations.PatternedLineFaults := by
  unfold Obligations.PatternedLineFaults
  intro s hl h0 hmode hb
  exact execAdvance_patterned hl h0 ((patternedLine_iff s).mpr ⟨hmode, hb⟩)

/-- Settles O20: of all that a command can do, only a patterned line's trigger writes the mark. -/
theorem onlyPatternedLinesFault : Obligations.OnlyPatternedLinesFault := by
  unfold Obligations.OnlyPatternedLinesFault
  intro i s hl
  simp only [← patternedLine_iff]
  obtain ⟨t, ht⟩ := exists_exec_next i hl
  refine ⟨t, ht, ?_⟩
  obtain ⟨-, ⟨hsetter, rfl⟩ | ⟨rfl, rfl⟩ | ⟨rfl, h0, rfl⟩ | ⟨rfl, h0, hp, rfl⟩ | ⟨rfl, -, hp, rfl⟩⟩ := exec_next ht
  · have hi : i ≠ .advance := by rintro rfl; cases hsetter
    simp [hl, hi]
  · simp [hl]
  · simp [hl, h0]
  · simp [h0, hp]
  · obtain ⟨-, -, -, hfault, -⟩ := performed_eq s
    simp [hfault, hl, hp]

end Sys2Proof.Machine
end

section
/-! Proof of the statement of `70_reset_and_hazards.md`: the setters among themselves, in any order (R243). -/

namespace Sys2Proof.Machine

/-! ### The elements each setter writes (R121, R243) -/

/-- The two setters of the truth table, the one element with two writers (R243). -/
def tableSetters : List String := ["SET_CONTROL0", "SET_MINTERMS"]

/-- The pointer `q` with its upper half taken from `p` if `hi`, its lower half if `lo`. -/
def takeHalves (hi lo : Prop) [Decidable hi] [Decidable lo] (p q : Ptr) : Ptr :=
  (if hi then p.extractLsb' 16 16 else q.extractLsb' 16 16) ++
    (if lo then p.extractLsb' 0 16 else q.extractLsb' 0 16)

@[simp] theorem takeHalves_neither (p q : Ptr) : takeHalves False False p q = q :=
  BitVec.extractLsb'_append_extractLsb'

@[simp] theorem takeHalves_upper (v : Word) (p q : Ptr) :
    takeHalves True False (withHighHalf v p) q = withHighHalf v q :=
  congrArg (· ++ _) BitVec.extractLsb'_append_eq_left

@[simp] theorem takeHalves_lower (v : Word) (p q : Ptr) :
    takeHalves False True (withLowHalf v p) q = withLowHalf v q :=
  congrArg (_ ++ ·) BitVec.extractLsb'_append_eq_right

/-- Halves are taken from `p` and `p'` in either order, unless both give the same half. -/
theorem takeHalves_comm {hi hi' lo lo' : Prop} [Decidable hi] [Decidable hi'] [Decidable lo] [Decidable lo']
    (hhi : hi → ¬ hi') (hlo : lo → ¬ lo') (p p' q : Ptr) :
    takeHalves hi lo p (takeHalves hi' lo' p' q) = takeHalves hi' lo' p' (takeHalves hi lo p q) := by
  simp only [takeHalves, BitVec.extractLsb'_append_eq_left, BitVec.extractLsb'_append_eq_right]
  rw [ite_ite_comm _ _ _ _ hhi, ite_ite_comm _ _ _ _ hlo]

/-- The state `s` with the elements that the setter named `m` writes taken from `t`: each element stands beside the name
of its setter, the truth table beside two. -/
def State.takeElements (s : State) (m : String) (t : State) : State :=
  { s with
    control :=
      { enables := if m = "SET_CONTROL0" then t.control.enables else s.control.enables
        minterms := if m ∈ tableSetters then t.control.minterms else s.control.minterms
        lineSign := if m = "SET_CONTROL1" then t.control.lineSign else s.control.lineSign
        lineDirection := if m = "SET_CONTROL1" then t.control.lineDirection else s.control.lineDirection
        exclusiveFill := if m = "SET_CONTROL1" then t.control.exclusiveFill else s.control.exclusiveFill
        inclusiveFill := if m = "SET_CONTROL1" then t.control.inclusiveFill else s.control.inclusiveFill
        fillCarry := if m = "SET_CONTROL1" then t.control.fillCarry else s.control.fillCarry
        oneDot := if m = "SET_CONTROL1" then t.control.oneDot else s.control.oneDot
        lineMode := if m = "SET_CONTROL1" then t.control.lineMode else s.control.lineMode
        firstMask := if m = "SET_FIRST_WORD_MASK" then t.control.firstMask else s.control.firstMask
        lastMask := if m = "SET_LAST_WORD_MASK" then t.control.lastMask else s.control.lastMask
        width := if m = "SET_SIZE" then t.control.width else s.control.width }
    shiftA := if m = "SET_CONTROL0" then t.shiftA else s.shiftA
    shiftB := if m = "SET_CONTROL1" then t.shiftB else s.shiftB
    height := if m = "SET_SIZE" then t.height else s.height
    pointer :=
      { a := takeHalves (m = "SET_A_PTR_HI") (m = "SET_A_PTR_LO") t.pointer.a s.pointer.a
        b := takeHalves (m = "SET_B_PTR_HI") (m = "SET_B_PTR_LO") t.pointer.b s.pointer.b
        c := takeHalves (m = "SET_C_PTR_HI") (m = "SET_C_PTR_LO") t.pointer.c s.pointer.c
        d := takeHalves (m = "SET_D_PTR_HI") (m = "SET_D_PTR_LO") t.pointer.d s.pointer.d }
    modulo :=
      { a := if m = "SET_A_MOD" then t.modulo.a else s.modulo.a
        b := if m = "SET_B_MOD" then t.modulo.b else s.modulo.b
        c := if m = "SET_C_MOD" then t.modulo.c else s.modulo.c
        d := if m = "SET_D_MOD" then t.modulo.d else s.modulo.d }
    aData := if m = "SET_A_DATA" then t.aData else s.aData
    bData := if m = "SET_B_DATA" then t.bData else s.bData
    cData := if m = "SET_C_DATA" then t.cData else s.cData }

/-- What a setter writes does not depend on the state it is issued in: its elements can be taken from any other. -/
theorem setterUpdate_eq_takeElements (i : Instr) (s t : State) :
    setterUpdate i s = s.takeElements i.mnemonic (setterUpdate i t) := by
  cases i <;>
    simp [State.takeElements, Instr.mnemonic, tableSetters, setterUpdate, writeControl0, writeControl1, writeSize,
      setPointerHi, setPointerLo, setPointer, setModulo, PerChannel.get, PerChannel.set]

/-- Two setters that share no element take theirs in either order. -/
theorem takeElements_comm {m m' : String} (hne : m ≠ m') (htable : ¬ (m ∈ tableSetters ∧ m' ∈ tableSetters))
    (s t t' : State) :
    (s.takeElements m' t').takeElements m t = (s.takeElements m t).takeElements m' t' := by
  have hname : ∀ k, m = k → ¬ m' = k := fun k h h' => hne (h.trans h'.symm)
  simp only [State.takeElements, ite_ite_comm _ _ _ _ (hname _), ite_ite_comm _ _ _ _ (not_and.mp htable),
    takeHalves_comm (hname _) (hname _)]

/-- The elements each setter writes, taken from where it was issued, make both orders one. -/
theorem setterUpdate_comm {i j : Instr} (hne : i.mnemonic ≠ j.mnemonic)
    (htable : ¬ (i.mnemonic ∈ tableSetters ∧ j.mnemonic ∈ tableSetters)) (s : State) :
    setterUpdate j (setterUpdate i s) = setterUpdate i (setterUpdate j s) := by
  calc setterUpdate j (setterUpdate i s)
      = (s.takeElements i.mnemonic (setterUpdate i s)).takeElements j.mnemonic (setterUpdate j s) := by
        rw [← setterUpdate_eq_takeElements i s s, ← setterUpdate_eq_takeElements j _ s]
    _ = (s.takeElements j.mnemonic (setterUpdate j s)).takeElements i.mnemonic (setterUpdate i s) :=
        (takeElements_comm hne htable s _ _).symm
    _ = setterUpdate i (setterUpdate j s) := by
        rw [← setterUpdate_eq_takeElements j s s, ← setterUpdate_eq_takeElements i _ s]

/-- A setter of the truth table writes it whole, whatever stood there (R84, R87). -/
theorem setterUpdate_minterms {i : Instr} (h : i.mnemonic ∈ tableSetters) (s t : State) :
    (setterUpdate i s).control.minterms = (setterUpdate i t).control.minterms := by
  rw [setterUpdate_eq_takeElements i s t]
  exact if_pos h

/-! ### Setters that answer (R121) -/

theorem exec_setter_next {i : Instr} (hi : i.isSetter = true) {s t : State} (h : exec i s = .next t) :
    s.Live ∧ t = setterUpdate i s := by
  obtain ⟨hl, -⟩ := exec_next h
  rw [exec_setter_live hi hl] at h
  exact ⟨hl, (next_inj h).symm⟩

theorem isSetter_of_mem_tableSetters {i : Instr} (h : i.mnemonic ∈ tableSetters) : i.isSetter = true := by
  cases i
  case advance => simp [Instr.mnemonic, tableSetters] at h
  case getStatus => simp [Instr.mnemonic, tableSetters] at h
  all_goals rfl

/-! ### The statement -/

/-- Settles O16: the elements of two setters of different names are disjoint but for the truth table, which the later of
its two setters writes whole. -/
theorem settersOfDifferentElementsCommute : Obligations.SettersOfDifferentElementsCommute := by
  unfold Obligations.SettersOfDifferentElementsCommute
  refine ⟨fun i => exists_exec_next i rfl, ?_, ?_, ?_⟩
  · intro i j s t u hi hj hne htable ht hu
    obtain ⟨hl, rfl⟩ := exec_setter_next hi ht
    obtain ⟨-, rfl⟩ := exec_setter_next hj hu
    refine ⟨setterUpdate j s, exec_setter_live hj hl, ?_⟩
    rw [exec_setter_live hi ((setterUpdate_fault j s).trans hl), setterUpdate_comm hne htable]
  · intro _ j s t u w _ hj _ hu hw
    obtain ⟨-, rfl⟩ := exec_setter_next (isSetter_of_mem_tableSetters hj) hu
    obtain ⟨-, rfl⟩ := exec_setter_next (isSetter_of_mem_tableSetters hj) hw
    exact setterUpdate_minterms hj t s
  · intro v s t ht
    obtain ⟨-, rfl⟩ := exec_setter_next rfl ht
    rfl

end Sys2Proof.Machine
end
